-- ==== Sys2Proof/Word.lean ====
section
/-! DEFINITION. The word types of WSFP: a byte, the 64-bit length, a mask key, the header word (00_scope.md R5; 30_encoding.md
R67). The block's size type has `SIZE_W` bits, and `SIZE_W` is a parameter of the instance (00_scope.md R4;
92_eei_decisions.md D6), so a size (window base and capacity, `klen`, `length`, `NEED`, `CNT`, `F_PLEN`, `F_CR_OFF`,
`F_CR_LEN`) is a `Nat`: the rules' integers are "unsigned naturals" and "no arithmetic in this spec wraps" (R7). That a size is
below `2^SIZE_W` is what `Window.valid`, `Instr.wellFormed` and the invariant `Sound` say (log 1). -/

namespace Sys2Proof

/-- 00_scope.md R5: a byte is 8 bits. -/
abbrev Byte := BitVec 8

/-- The 64-bit type of `LEN`, `MAX_LEN` and `E_WRITTEN` (00_scope.md R5; 10_state.md R22, R28). -/
abbrev Len := BitVec 64

/-- A mask key: exactly four bytes in stream order (10_state.md R18). -/
abbrev Key := Vector Byte 4

/-- The base header seen as one 16-bit word, first byte most significant (30_encoding.md R67). -/
abbrev HeaderWord := BitVec 16

/-- A 16-bit close status code (00_scope.md R5). -/
abbrev StatusCode := BitVec 16

end Sys2Proof
end

