-- ==== Sys2Proof/Config.lean ====
section
/-! DEFINITION. What an implementation fixes and the free values (00_scope.md R4; 20_memory.md R48). An `opaque`
constant has no body: no proof can see what it is, so what is proved holds whatever it is. -/

namespace Sys2Proof.Config

/-- The default of the parameter `SIZE_W`, the width in bits of the size type (00_scope.md R4; 92_eei_decisions.md D6; log 1). -/
def sizeW : Nat := 32

/-- The legal values of `SIZE_W`: the reset value of `MAX_LEN`, 2^31, is at most `2^SIZE_W - 1` (00_scope.md R4), which is so
for every `SIZE_W >= 32` (92_eei_decisions.md D6). -/
def legalSizeW (sizeW : Nat) : Bool := decide (32 ≤ sizeW)

/-- `2^SIZE_W`: the number of values of the size type, and of addresses of `PBUF` (20_memory.md R44). -/
def sizeRange (sizeW : Nat) : Nat := 2 ^ sizeW

/-- The largest value `MAX_LEN` may hold, `2^SIZE_W - 1` (10_state.md R22). -/
def maxLenLimit (sizeW : Nat) : Nat := sizeRange sizeW - 1

/-- The reset value of `MAX_LEN`, 2^31 (10_state.md R22, R25). -/
def maxLenReset : Len := 2147483648#64

/-- The one code that `RECOGNISED_CODES` must contain, 1000 (00_scope.md R4). -/
def normalClosure : StatusCode := 1000#16

/-- `HAS_ENCODER`, OPEN with default true (00_scope.md R4; log 2). -/
def hasEncoder : Bool := true

/-- The members of `RECOGNISED_CODES` beside 1000: OPEN (00_scope.md R4; 91_not_in_source.md N4; log 2). -/
opaque otherRecognised : List StatusCode

/-- `NO_STATUS`: OPEN (00_scope.md R4; log 2). -/
opaque noStatus : StatusCode

/-- The four bytes of the n-th draw of the random source that the script `State.rng` does not give: "any value 0..255,
under no law the block can rely on" (20_memory.md R48; log 13). -/
opaque freeKey : Nat → Key

/-- The value of `E_WRITTEN` where `HL + n` does not fit its 64 bits, which can be so for a `SIZE_W` of 64 or more: no rule
states it (10_state.md R28; 43_frame_encoder.md R137; log 30). -/
opaque writtenBeyond : Nat → Len

/-- The value of the eight length bytes of a payload of `n` bytes where `n` does not fit eight bytes, which can be so for a
`SIZE_W` above 64: no rule states them (43_frame_encoder.md R133; log 30). -/
opaque lengthBeyond : Nat → Len

end Sys2Proof.Config
end

