-- ==== Sys2Proof/Syntax.lean ====
section
/-! DEFINITION. The instructions of WSFP: one constructor per row of spec/opcode_table.json. A row over the header word
carries every field of HW that the row itself does not fix (30_encoding.md R61, R62, R67); a command row carries the
arguments of 30_encoding.md R79. -/

namespace Sys2Proof

/-- A window over the payload memory: the bytes at `base .. base+cap-1` (20_memory.md R44). -/
structure Window where
  base : Nat
  cap : Nat
  deriving DecidableEq, Repr

/-- One row of the opcode table each. `rsv` is the reserved field HW[14:12], kept so that no bit of a word is dropped and
read by no meaning (30_encoding.md R66). -/
inductive Instr where
  -- opcode rows (30_encoding.md R68): the row fixes OPC = HW[11:8]
  | cont (fin : Bool) (rsv : BitVec 3) (mask : Bool) (ind : BitVec 7)
  | text (fin : Bool) (rsv : BitVec 3) (mask : Bool) (ind : BitVec 7)
  | bin (fin : Bool) (rsv : BitVec 3) (mask : Bool) (ind : BitVec 7)
  | op3 (fin : Bool) (rsv : BitVec 3) (mask : Bool) (ind : BitVec 7)
  | op4 (fin : Bool) (rsv : BitVec 3) (mask : Bool) (ind : BitVec 7)
  | op5 (fin : Bool) (rsv : BitVec 3) (mask : Bool) (ind : BitVec 7)
  | op6 (fin : Bool) (rsv : BitVec 3) (mask : Bool) (ind : BitVec 7)
  | op7 (fin : Bool) (rsv : BitVec 3) (mask : Bool) (ind : BitVec 7)
  | close (fin : Bool) (rsv : BitVec 3) (mask : Bool) (ind : BitVec 7)
  | ping (fin : Bool) (rsv : BitVec 3) (mask : Bool) (ind : BitVec 7)
  | pong (fin : Bool) (rsv : BitVec 3) (mask : Bool) (ind : BitVec 7)
  | op11 (fin : Bool) (rsv : BitVec 3) (mask : Bool) (ind : BitVec 7)
  | op12 (fin : Bool) (rsv : BitVec 3) (mask : Bool) (ind : BitVec 7)
  | op13 (fin : Bool) (rsv : BitVec 3) (mask : Bool) (ind : BitVec 7)
  | op14 (fin : Bool) (rsv : BitVec 3) (mask : Bool) (ind : BitVec 7)
  | op15 (fin : Bool) (rsv : BitVec 3) (mask : Bool) (ind : BitVec 7)
  -- length-form rows (30_encoding.md R72): the row fixes MASK = HW[7], and IND but for the 7-bit form (IND 0..125)
  | len7U (fin : Bool) (rsv : BitVec 3) (opc : BitVec 4) (ind : BitVec 7)
  | len7M (fin : Bool) (rsv : BitVec 3) (opc : BitVec 4) (ind : BitVec 7)
  | len16U (fin : Bool) (rsv : BitVec 3) (opc : BitVec 4)
  | len16M (fin : Bool) (rsv : BitVec 3) (opc : BitVec 4)
  | len64U (fin : Bool) (rsv : BitVec 3) (opc : BitVec 4)
  | len64M (fin : Bool) (rsv : BitVec 3) (opc : BitVec 4)
  -- command rows (30_encoding.md R78, R79)
  | decode (win : Window)
  | toggleMask (klen : Nat) (key : Key) (win : Window)
  | encode (opcode : BitVec 4) (isFinal : Bool) (isClient : Bool) (win : Window)
  | readExact (length : Nat) (win : Window)
  | swap16 (b : Vector Byte 2)
  | swap64 (b : Vector Byte 8)
  | rdu16 (b : Vector Byte 2) (little : Bool)
  | rdi16 (b : Vector Byte 2) (little : Bool)
  | rdu64 (b : Vector Byte 8) (little : Bool)
  | rdi64 (b : Vector Byte 8) (little : Bool)
  | wru16 (v : BitVec 16) (little : Bool)
  | wri16 (v : BitVec 16) (little : Bool)
  | wru64 (v : BitVec 64) (little : Bool)
  | wri64 (v : BitVec 64) (little : Bool)
  deriving DecidableEq, Repr

/-- The argument lines of the command port, sampled when a command is issued (30_encoding.md R79). The table's arguments
"are not bit-packed": each has a line of its own here, and a command reads the lines that R79 lists for it (log 8). -/
structure Args where
  win : Window
  klen : Nat
  key : Key
  opcode : BitVec 4
  isFinal : Bool
  isClient : Bool
  length : Nat
  b : Vector Byte 8
  little : Bool
  v : BitVec 64
  deriving DecidableEq, Repr

/-- Every argument line at zero. -/
def Args.zero : Args :=
  { win := ⟨0, 0⟩, klen := 0, key := Vector.replicate 4 0#8, opcode := 0#4, isFinal := false,
    isClient := false, length := 0, b := Vector.replicate 8 0#8, little := false, v := 0#64 }

end Sys2Proof
end

