-- ==== Sys2Proof/WellFormed.lean ====
section
/-! DEFINITION. What makes a term of `Instr` an instruction of an instance with the parameter `SIZE_W`: a command's window is a
window (20_memory.md R44), a size argument has `SIZE_W` bits (30_encoding.md R79), and a 7-bit length form has an indicator
of 0..125 (30_encoding.md R72). -/

namespace Sys2Proof

/-- The value has `SIZE_W` bits. -/
def fitsSize (sizeW : Nat) (n : Nat) : Bool :=
  decide (n < Config.sizeRange sizeW)

/-- "`base` and `cap` are `SIZE_W`-bit unsigned values with `base + cap <= 2^SIZE_W`" (20_memory.md R44). -/
def Window.valid (sizeW : Nat) (w : Window) : Bool :=
  fitsSize sizeW w.base && fitsSize sizeW w.cap && decide (w.base + w.cap ≤ Config.sizeRange sizeW)

/-- `IND <= 125`, the condition of the rows LEN7.U and LEN7.M (30_encoding.md R72). -/
def shortIndicator (ind : BitVec 7) : Bool :=
  decide (ind.toNat ≤ 125)

/-- The check, one arm per constructor. -/
def Instr.wellFormed (sizeW : Nat) : Instr → Bool
  | .cont _ _ _ _ => true
  | .text _ _ _ _ => true
  | .bin _ _ _ _ => true
  | .op3 _ _ _ _ => true
  | .op4 _ _ _ _ => true
  | .op5 _ _ _ _ => true
  | .op6 _ _ _ _ => true
  | .op7 _ _ _ _ => true
  | .close _ _ _ _ => true
  | .ping _ _ _ _ => true
  | .pong _ _ _ _ => true
  | .op11 _ _ _ _ => true
  | .op12 _ _ _ _ => true
  | .op13 _ _ _ _ => true
  | .op14 _ _ _ _ => true
  | .op15 _ _ _ _ => true
  | .len7U _ _ _ ind => shortIndicator ind
  | .len7M _ _ _ ind => shortIndicator ind
  | .len16U _ _ _ => true
  | .len16M _ _ _ => true
  | .len64U _ _ _ => true
  | .len64M _ _ _ => true
  | .decode win => win.valid sizeW
  | .toggleMask klen _ win => fitsSize sizeW klen && win.valid sizeW
  | .encode _ _ _ win => win.valid sizeW
  | .readExact length win => fitsSize sizeW length && win.valid sizeW
  | .swap16 _ => true
  | .swap64 _ => true
  | .rdu16 _ _ => true
  | .rdi16 _ _ => true
  | .rdu64 _ _ => true
  | .rdi64 _ _ => true
  | .wru16 _ _ => true
  | .wri16 _ _ => true
  | .wru64 _ _ => true
  | .wri64 _ _ => true

end Sys2Proof
end

