-- ==== Sys2Proof/Decode.lean ====
section
/-! DEFINITION. The decoder, total on every word, and the encoder written from the same tables (30_encoding.md R61, R62,
R67, R68, R72, R78, R79). Every header word "matches exactly one opcode row and exactly one length-form row" (R67), so
what is fetched names the class it is read in: `FetchWord`. -/

namespace Sys2Proof

/-- What the sequencer fetches: a command code with its argument lines, or the header word read as its length-form row or
as its opcode row (30_encoding.md R67, R78; log 5). -/
inductive FetchWord where
  | command (code : BitVec 4) (args : Args)
  | lengthForm (hw : HeaderWord)
  | opcode (hw : HeaderWord)
  deriving DecidableEq, Repr

/-- Why a word is no instruction: a command code that names no operation, 0x0 or 0xF (30_encoding.md R81). No header word
is rejected (30_encoding.md R73). -/
inductive DecodeReject where
  | noOperation (code : BitVec 4)
  deriving DecidableEq, Repr

/-! ### Fields of the header word (30_encoding.md R61, R62, R67) -/

/-- `HW = 256*HB[0] + HB[1]`: the first byte is the most significant. -/
def headerWordOf (b0 b1 : Byte) : HeaderWord := b0 ++ b1

/-- `HB[0]`, HW[15:8]. -/
def hwByte0 (hw : HeaderWord) : Byte := hw.extractLsb' 8 8

/-- `HB[1]`, HW[7:0]. -/
def hwByte1 (hw : HeaderWord) : Byte := hw.extractLsb' 0 8

/-- FIN, HW[15]. -/
def hwFin (hw : HeaderWord) : Bool := hw.getLsbD 15

/-- The reserved bits, HW[14:12]. -/
def hwRsv (hw : HeaderWord) : BitVec 3 := hw.extractLsb' 12 3

/-- OPC, HW[11:8]. -/
def hwOpc (hw : HeaderWord) : BitVec 4 := hw.extractLsb' 8 4

/-- MASK, HW[7]. -/
def hwMask (hw : HeaderWord) : Bool := hw.getLsbD 7

/-- IND, HW[6:0]. -/
def hwInd (hw : HeaderWord) : BitVec 7 := hw.extractLsb' 0 7

/-- The header word of five fields, in the order of R61 and R62. -/
def makeHeader (fin : Bool) (rsv : BitVec 3) (opc : BitVec 4) (mask : Bool) (ind : BitVec 7) : HeaderWord :=
  BitVec.ofBool fin ++ rsv ++ opc ++ BitVec.ofBool mask ++ ind

/-! ### The decoder -/

/-- The opcode row of a header word (30_encoding.md R68): every value of OPC has a row, the last arm being 0xF. -/
def decodeOpcode (hw : HeaderWord) : Instr :=
  let f := hwFin hw
  let r := hwRsv hw
  let m := hwMask hw
  let i := hwInd hw
  match hwOpc hw with
  | 0x0#4 => .cont f r m i
  | 0x1#4 => .text f r m i
  | 0x2#4 => .bin f r m i
  | 0x3#4 => .op3 f r m i
  | 0x4#4 => .op4 f r m i
  | 0x5#4 => .op5 f r m i
  | 0x6#4 => .op6 f r m i
  | 0x7#4 => .op7 f r m i
  | 0x8#4 => .close f r m i
  | 0x9#4 => .ping f r m i
  | 0xA#4 => .pong f r m i
  | 0xB#4 => .op11 f r m i
  | 0xC#4 => .op12 f r m i
  | 0xD#4 => .op13 f r m i
  | 0xE#4 => .op14 f r m i
  | _ => .op15 f r m i

/-- The length-form row of a header word (30_encoding.md R72): the 16-bit and 64-bit forms first, the 7-bit form for every
other indicator. -/
def decodeLengthForm (hw : HeaderWord) : Instr :=
  let f := hwFin hw
  let r := hwRsv hw
  let o := hwOpc hw
  let i := hwInd hw
  if i = 126#7 then
    if hwMask hw then .len16M f r o else .len16U f r o
  else if i = 127#7 then
    if hwMask hw then .len64M f r o else .len64U f r o
  else
    if hwMask hw then .len7M f r o i else .len7U f r o i

/-- The first two of the eight byte lines: the operands `b[0..1]` of the 16-bit commands (30_encoding.md R79). -/
def firstTwo (b : Vector Byte 8) : Vector Byte 2 := #v[b[0], b[1]]

/-- The command of a code (30_encoding.md R78, R79); 0x0 and 0xF name no operation (R81). -/
def decodeCommand (code : BitVec 4) (a : Args) : Except DecodeReject Instr :=
  match code with
  | 0x1#4 => .ok (.decode a.win)
  | 0x2#4 => .ok (.toggleMask a.klen a.key a.win)
  | 0x3#4 => .ok (.encode a.opcode a.isFinal a.isClient a.win)
  | 0x4#4 => .ok (.readExact a.length a.win)
  | 0x5#4 => .ok (.swap16 (firstTwo a.b))
  | 0x6#4 => .ok (.swap64 a.b)
  | 0x7#4 => .ok (.rdu16 (firstTwo a.b) a.little)
  | 0x8#4 => .ok (.rdi16 (firstTwo a.b) a.little)
  | 0x9#4 => .ok (.rdu64 a.b a.little)
  | 0xA#4 => .ok (.rdi64 a.b a.little)
  | 0xB#4 => .ok (.wru16 (a.v.setWidth 16) a.little)
  | 0xC#4 => .ok (.wri16 (a.v.setWidth 16) a.little)
  | 0xD#4 => .ok (.wru64 a.v a.little)
  | 0xE#4 => .ok (.wri64 a.v a.little)
  | c => .error (.noOperation c)

/-- The decoder: total, rejecting by name. -/
def decode : FetchWord → Except DecodeReject Instr
  | .command code a => decodeCommand code a
  | .lengthForm hw => .ok (decodeLengthForm hw)
  | .opcode hw => .ok (decodeOpcode hw)

/-! ### The encoder -/

/-- Two bytes on the eight byte lines, the other lines zero. -/
def twoLines (b : Vector Byte 2) : Vector Byte 8 := #v[b[0], b[1], 0#8, 0#8, 0#8, 0#8, 0#8, 0#8]

/-- The word of an instruction: a header row's word from its fields (30_encoding.md R61, R62, R68, R72), a command's code
with its arguments on their lines and every other line zero (R78, R79). -/
def encode : Instr → FetchWord
  | .cont f r m i => .opcode (makeHeader f r 0x0#4 m i)
  | .text f r m i => .opcode (makeHeader f r 0x1#4 m i)
  | .bin f r m i => .opcode (makeHeader f r 0x2#4 m i)
  | .op3 f r m i => .opcode (makeHeader f r 0x3#4 m i)
  | .op4 f r m i => .opcode (makeHeader f r 0x4#4 m i)
  | .op5 f r m i => .opcode (makeHeader f r 0x5#4 m i)
  | .op6 f r m i => .opcode (makeHeader f r 0x6#4 m i)
  | .op7 f r m i => .opcode (makeHeader f r 0x7#4 m i)
  | .close f r m i => .opcode (makeHeader f r 0x8#4 m i)
  | .ping f r m i => .opcode (makeHeader f r 0x9#4 m i)
  | .pong f r m i => .opcode (makeHeader f r 0xA#4 m i)
  | .op11 f r m i => .opcode (makeHeader f r 0xB#4 m i)
  | .op12 f r m i => .opcode (makeHeader f r 0xC#4 m i)
  | .op13 f r m i => .opcode (makeHeader f r 0xD#4 m i)
  | .op14 f r m i => .opcode (makeHeader f r 0xE#4 m i)
  | .op15 f r m i => .opcode (makeHeader f r 0xF#4 m i)
  | .len7U f r o i => .lengthForm (makeHeader f r o false i)
  | .len7M f r o i => .lengthForm (makeHeader f r o true i)
  | .len16U f r o => .lengthForm (makeHeader f r o false 126#7)
  | .len16M f r o => .lengthForm (makeHeader f r o true 126#7)
  | .len64U f r o => .lengthForm (makeHeader f r o false 127#7)
  | .len64M f r o => .lengthForm (makeHeader f r o true 127#7)
  | .decode win => .command 0x1#4 { Args.zero with win := win }
  | .toggleMask klen key win => .command 0x2#4 { Args.zero with klen := klen, key := key, win := win }
  | .encode opcode isFinal isClient win =>
      .command 0x3#4 { Args.zero with opcode := opcode, isFinal := isFinal, isClient := isClient, win := win }
  | .readExact length win => .command 0x4#4 { Args.zero with length := length, win := win }
  | .swap16 b => .command 0x5#4 { Args.zero with b := twoLines b }
  | .swap64 b => .command 0x6#4 { Args.zero with b := b }
  | .rdu16 b little => .command 0x7#4 { Args.zero with b := twoLines b, little := little }
  | .rdi16 b little => .command 0x8#4 { Args.zero with b := twoLines b, little := little }
  | .rdu64 b little => .command 0x9#4 { Args.zero with b := b, little := little }
  | .rdi64 b little => .command 0xA#4 { Args.zero with b := b, little := little }
  | .wru16 v little => .command 0xB#4 { Args.zero with v := v.setWidth 64, little := little }
  | .wri16 v little => .command 0xC#4 { Args.zero with v := v.setWidth 64, little := little }
  | .wru64 v little => .command 0xD#4 { Args.zero with v := v, little := little }
  | .wri64 v little => .command 0xE#4 { Args.zero with v := v, little := little }

/-! ### The opcode table's words -/

/-- The word the opcode table writes as the number `w` of `nbits` bits: a command code (4 bits, in whole bytes 8) with
every argument line zero, or a header word. A header word has a row in two classes: it is read as its opcode row when
its length byte is zero and as its length-form row otherwise (log 6). `none` where the bits are no word of the table's. -/
def tableWord (nbits w : Nat) : Option FetchWord :=
  if nbits ≤ 8 then
    if w < 16 then some (.command (BitVec.ofNat 4 w) Args.zero) else none
  else if nbits ≤ 16 then
    if w < 65536 then
      some (if w % 256 = 0 then .opcode (BitVec.ofNat 16 w) else .lengthForm (BitVec.ofNat 16 w))
    else none
  else none

/-- The instruction the decoder reads from the table's word. -/
def decodeTableWord (nbits w : Nat) : Option Instr :=
  match tableWord nbits w with
  | some f => (decode f).toOption
  | none => none

end Sys2Proof
end

