-- ==== Sys2Proof/Machine/State.lean ====
section
/-! DEFINITION. The state of one WSFP instance and of its environment as plain data, and the state after reset
(10_state.md; 20_memory.md; 60_exceptions.md R196). An Option whose `none` is a register's value is the spec's own "holds
no value": "A model gives such a register no value (an option type or a fault on read), never zero" (10_state.md R12; log 3). -/

namespace Sys2Proof.Machine

/-- The sequencer register `PHASE` (10_state.md R14). -/
inductive Phase where
  | idle | hdr | ext16 | ext64 | keyrd | payload | unmask | closemeta | rxrun | done | fault
  deriving DecidableEq, Repr

/-- The outcome register `ERR` (10_state.md R21). -/
inductive Err where
  | none | unexpectedEndOfStream | lengthOutOfRange | bufferTooSmall | invalidMaskKeyLength | cancelled
  deriving DecidableEq, Repr

/-- The working registers (10_state.md R11) and the two flags (R17). -/
structure Working where
  hb : Vector (Option Byte) 2
  opc : Option (BitVec 4)
  ind : Option (BitVec 7)
  xb : Vector (Option Byte) 8
  len : Option Len
  need : Option Nat
  cnt : Option Nat
  fin : Option Bool
  mask : Option Bool
  deriving DecidableEq, Repr

/-- No working register holds a value (10_state.md R12, R25). -/
def Working.empty : Working :=
  { hb := Vector.replicate 2 none, opc := none, ind := none, xb := Vector.replicate 8 none, len := none, need := none,
    cnt := none, fin := none, mask := none }

/-- The mask key file `KEY[0..3]` (10_state.md R18). -/
abbrev KeyFile := Vector (Option Byte) 4

/-- No key byte holds a value (10_state.md R25). -/
def KeyFile.empty : KeyFile := Vector.replicate 4 none

/-- What `B_OUT` holds (10_state.md R28): a value read, or the bytes written; the 16-bit forms use the low 16 bits or the
first two bytes, and the register's other bits are not stated (log 18). -/
inductive BOut where
  | value16 (v : BitVec 16)
  | value64 (v : BitVec 64)
  | bytes2 (b : Vector Byte 2)
  | bytes8 (b : Vector Byte 8)
  deriving DecidableEq, Repr

/-- The result registers (10_state.md R19, R28). -/
structure Results where
  fFin : Option Bool
  fOpc : Option (BitVec 4)
  fPlen : Option Nat
  fCsV : Option Bool
  fCs : Option StatusCode
  fCrV : Option Bool
  fCrOff : Option Nat
  fCrLen : Option Nat
  eWritten : Option Len
  bOut : Option BOut
  deriving DecidableEq, Repr

/-- No result register holds a value (10_state.md R25, R27). -/
def Results.empty : Results :=
  { fFin := none, fOpc := none, fPlen := none, fCsV := none, fCs := none, fCrV := none, fCrOff := none, fCrLen := none,
    eWritten := none, bOut := none }

/-- The payload memory `PBUF`: address and byte, in one canonical form (`Memory.wf`, Machine/Ops.lean). -/
abbrev Memory := List Host.Cell

/-- One answer the stream will give to a read issued while CANCEL = 0 (20_memory.md R41, R43; 60_exceptions.md R196 (b), (c)):
`data size` while CANCEL stays 0; `dataAsCancelRises size`, CANCEL rises and the data is still delivered; `cancelled`,
CANCEL rises and the read is cancelled. `size` is the size the stream would choose; what it delivers is cut to 1..n
and to the bytes it has (log 11, 12). -/
inductive ReadDraw where
  | data (size : Nat)
  | dataAsCancelRises (size : Nat)
  | cancelled
  deriving DecidableEq, Repr

/-- One move of the host (log 10): present a command (30_encoding.md R78 to R80), acknowledge (60_exceptions.md R205), write
`MAX_LEN` (10_state.md R22), drive `CANCEL` (60_exceptions.md R196), reset the block (70_reset_and_hazards.md R220, R221),
connect a live stream (R222), store a byte into `PBUF` (20_memory.md R49), let the block take one step, or let it run
until its operation has ended. -/
inductive HostMove where
  | command (code : BitVec 4) (args : Args)
  | ack
  | writeMaxLen (v : Len)
  | setCancel (level : Bool)
  | reset
  | connect (bytes : List Byte)
  | store (addr : Nat) (b : Byte)
  | yield
  | await
  deriving DecidableEq, Repr

/-- The parameters of the instance that 00_scope.md R4 and 92_eei_decisions.md D6, D13 and D21 leave open (log 1, 2); no step
changes them. -/
structure Params where
  sizeW : Nat
  recognised : List StatusCode
  noStatus : StatusCode
  hasEncoder : Bool
  deriving DecidableEq, Repr

/-- The machine. -/
structure State where
  -- the block (10_state.md R10)
  phase : Phase
  work : Working
  key : KeyFile
  res : Results
  err : Err
  maxLen : Len
  -- the sampled window of the running operation (30_encoding.md R79)
  win : Option Window
  -- the environment: payload memory, stream and its position, coming answers, CANCEL, sink, random source, host
  pbuf : Memory
  input : List Byte
  spos : Nat
  answers : List ReadDraw
  cancel : Bool
  out : List Byte
  rng : List Key
  draws : Nat
  host : List HostMove
  -- the parameters
  params : Params
  deriving DecidableEq, Repr

/-- A register of the block that may hold no value (10_state.md R11, R17, R18; R12). -/
inductive Reg where
  | hb | opc | ind | xb | len | need | cnt | fin | mask | key
  deriving DecidableEq, Repr

/-- Why the machine stops with a fault. -/
inductive Fault where
  /-- Raised by a meaning or by the sequencer that reads a register which holds no value (10_state.md R12; 93 U11 `fault`).
  Safe: the model stops; no step from a state that meets the invariant raises it. -/
  | noValue (r : Reg)
  deriving DecidableEq, Repr

/-- Why the machine refuses to go on. -/
inductive Refusal where
  /-- Raised by an arm of `exec` for an instruction without a meaning; no arm does. Safe. -/
  | notModelled (mnemonic : String)
  /-- Raised by a host's store to an address that `PBUF` does not have, one of `2^SIZE_W` or more (20_memory.md R44; log 17).
  Safe: the model stops. -/
  | noSuchAddress
  /-- Raised by a command whose window is none, `base + cap > 2^SIZE_W` (93 U22 `refuse`: "not a window; the host is
  required not to give one"). Safe: the model stops. -/
  | notAWindow
  /-- Raised by a header row that is run in a phase in which the sequencer never runs it (10_state.md R14; log 7). Safe: the
  step fetches no row there. -/
  | notItsPhase
  /-- Raised by a host's store into the window of a running operation (93 U14 `no move`; 70 R232). Safe: the model stops. -/
  | windowInUse
  /-- Raised by a host that connects another stream while an operation runs (93 U15 `no move`; log 17). Safe: the model
  stops. -/
  | streamInUse
  deriving DecidableEq, Repr

/-- What a meaning answers. -/
abbrev Outcome := Host.Outcome State Fault Refusal

/-- The block's registers at reset: `PHASE`, `ERR` and `MAX_LEN` have a value, every other register holds none
(10_state.md R25; 70_reset_and_hazards.md R220). -/
def State.resetBlock (s : State) : State :=
  { s with phase := .idle, err := .none, maxLen := Config.maxLenReset, work := Working.empty, key := KeyFile.empty,
           res := Results.empty, win := none }

/-- The parameters of the instance that `State.reset` describes: the default `SIZE_W` (log 1), and the default and the free
values of Config for the others (log 2). -/
def Params.default : Params :=
  { sizeW := Config.sizeW, recognised := Config.normalClosure :: Config.otherRecognised, noStatus := Config.noStatus,
    hasEncoder := Config.hasEncoder }

/-- The machine right after reset, in an environment in which nothing is listed: no byte of `PBUF`, a stream that holds no
byte, `CANCEL` at 0, an empty sink, no scripted draw and a host that makes no move (10_state.md R25; log 15, 16). -/
def State.reset : State :=
  { phase := .idle, work := Working.empty, key := KeyFile.empty, res := Results.empty, err := .none,
    maxLen := Config.maxLenReset, win := none, pbuf := [], input := [], spos := 0, answers := [], cancel := false,
    out := [], rng := [], draws := 0, host := [], params := Params.default }

end Sys2Proof.Machine
end

