-- ==== Sys2Proof/Machine/Operands.lean ====
section
/-! DEFINITION. Operand forms: the byte-order converters and swappers (45_byte_order.md), the reading of byte files that may
hold no value, and the numeric codes of `ERR` (10_state.md R21). -/

namespace Sys2Proof.Machine

/-! ### Assembly (45_byte_order.md R170, R171, R180, R181) -/

/-- R170: `256*b0 + b1`. -/
def be16 (b0 b1 : Byte) : BitVec 16 := BitVec.ofNat 16 (256 * b0.toNat + b1.toNat)

/-- R180: `b0 + 256*b1`. -/
def le16 (b0 b1 : Byte) : BitVec 16 := BitVec.ofNat 16 (b0.toNat + 256 * b1.toNat)

/-- R171, as a number. -/
def be64Nat (b : Vector Byte 8) : Nat :=
  b[0].toNat * 256 ^ 7 + b[1].toNat * 256 ^ 6 + b[2].toNat * 256 ^ 5 + b[3].toNat * 256 ^ 4 + b[4].toNat * 256 ^ 3
    + b[5].toNat * 256 ^ 2 + b[6].toNat * 256 + b[7].toNat

/-- R181, as a number. -/
def le64Nat (b : Vector Byte 8) : Nat :=
  b[0].toNat + b[1].toNat * 256 + b[2].toNat * 256 ^ 2 + b[3].toNat * 256 ^ 3 + b[4].toNat * 256 ^ 4
    + b[5].toNat * 256 ^ 5 + b[6].toNat * 256 ^ 6 + b[7].toNat * 256 ^ 7

/-- R171. -/
def be64 (b : Vector Byte 8) : BitVec 64 := BitVec.ofNat 64 (be64Nat b)

/-- R181. -/
def le64 (b : Vector Byte 8) : BitVec 64 := BitVec.ofNat 64 (le64Nat b)

/-! ### The swappers (45_byte_order.md R168, R169) -/

/-- R168: `[ b[1], b[0] ]`. -/
def swapBytes2 (b : Vector Byte 2) : Vector Byte 2 := #v[b[1], b[0]]

/-- R169: the eight bytes in the other order. -/
def swapBytes8 (b : Vector Byte 8) : Vector Byte 8 := #v[b[7], b[6], b[5], b[4], b[3], b[2], b[1], b[0]]

/-! ### Reading a value (45_byte_order.md R172 to R175) -/

/-- R172. -/
def readU16 (b : Vector Byte 2) (little : Bool) : BitVec 16 :=
  if little then le16 b[0] b[1] else be16 b[0] b[1]

/-- R173: `(u >= 32768) ? u - 65536 : u`. -/
def readI16 (b : Vector Byte 2) (little : Bool) : Int :=
  let u := (readU16 b little).toNat
  if u ≥ 32768 then (u : Int) - 65536 else (u : Int)

/-- R174. -/
def readU64 (b : Vector Byte 8) (little : Bool) : BitVec 64 :=
  if little then le64 b else be64 b

/-- R175: `(u >= 2^63) ? u - 2^64 : u`. -/
def readI64 (b : Vector Byte 8) (little : Bool) : Int :=
  let u := (readU64 b little).toNat
  if u ≥ 9223372036854775808 then (u : Int) - 18446744073709551616 else (u : Int)

/-! ### Writing a value (45_byte_order.md R176 to R179) -/

/-- The byte `d[j] = v[8j+7 : 8j]` (R178). -/
def byteAt {w : Nat} (v : BitVec w) (j : Nat) : Byte := v.extractLsb' (8 * j) 8

/-- R176. -/
def writeU16 (v : BitVec 16) (little : Bool) : Vector Byte 2 :=
  if little then #v[byteAt v 0, byteAt v 1] else #v[byteAt v 1, byteAt v 0]

/-- R178. -/
def writeU64 (v : BitVec 64) (little : Bool) : Vector Byte 8 :=
  if little then
    #v[byteAt v 0, byteAt v 1, byteAt v 2, byteAt v 3, byteAt v 4, byteAt v 5, byteAt v 6, byteAt v 7]
  else
    #v[byteAt v 7, byteAt v 6, byteAt v 5, byteAt v 4, byteAt v 3, byteAt v 2, byteAt v 1, byteAt v 0]

/-- R177: `u <- (v < 0) ? v + 65536 : v`. -/
def writeI16 (v : Int) (little : Bool) : Vector Byte 2 :=
  writeU16 (BitVec.ofInt 16 (if v < 0 then v + 65536 else v)) little

/-- R179: `u <- (v < 0) ? v + 2^64 : v`. -/
def writeI64 (v : Int) (little : Bool) : Vector Byte 8 :=
  writeU64 (BitVec.ofInt 64 (if v < 0 then v + 18446744073709551616 else v)) little

/-! ### Byte files -/

/-- The two bytes of `HB`, where both hold a value. -/
def headerBytes (hb : Vector (Option Byte) 2) : Option HeaderWord :=
  match hb[0], hb[1] with
  | some b0, some b1 => some (headerWordOf b0 b1)
  | _, _ => none

/-- The 16-bit extended length, `BE16(XB[0], XB[1])` (30_encoding.md R65). -/
def ext16Value (xb : Vector (Option Byte) 8) : Option (BitVec 16) :=
  match xb[0], xb[1] with
  | some b0, some b1 => some (be16 b0 b1)
  | _, _ => none

/-- The 64-bit extended length, `BE64(XB[0], ..., XB[7])` (30_encoding.md R65). -/
def ext64Value (xb : Vector (Option Byte) 8) : Option (BitVec 64) :=
  match xb[0], xb[1], xb[2], xb[3], xb[4], xb[5], xb[6], xb[7] with
  | some b0, some b1, some b2, some b3, some b4, some b5, some b6, some b7 =>
      some (be64 #v[b0, b1, b2, b3, b4, b5, b6, b7])
  | _, _, _, _, _, _, _, _ => none

/-- The four bytes of `KEY`, where all hold a value. -/
def keyBytes (k : KeyFile) : Option Key :=
  match k[0], k[1], k[2], k[3] with
  | some b0, some b1, some b2, some b3 => some #v[b0, b1, b2, b3]
  | _, _, _, _ => none

/-- The key file that holds a key. -/
def keyFileOf (k : Key) : KeyFile := #v[some k[0], some k[1], some k[2], some k[3]]

/-- The bytes `bs` stored at indices `i, i+1, ...` of a byte file; an index beyond the file stores nothing. -/
def storeFile {n : Nat} (f : Vector (Option Byte) n) (i : Nat) : List Byte → Vector (Option Byte) n
  | [] => f
  | b :: bs => storeFile (f.setIfInBounds i (some b)) (i + 1) bs

/-! ### Codes -/

/-- The 3-bit code of an outcome (10_state.md R21). -/
def errCode : Err → BitVec 3
  | .none => 0#3
  | .unexpectedEndOfStream => 1#3
  | .lengthOutOfRange => 2#3
  | .bufferTooSmall => 3#3
  | .invalidMaskKeyLength => 4#3
  | .cancelled => 5#3

end Sys2Proof.Machine
end

