-- ==== Sys2Proof/Machine/Flags.lean ====
section
/-! DEFINITION. The two flags FIN and MASK and the fields extracted with them (10_state.md R17; 41_frame_decoder.md R92). There
are no condition codes: no other operation writes a flag. -/

namespace Sys2Proof.Machine

/-- R92: `FIN <- HB[0][7]`, `OPC <- HB[0][3:0]`, `MASK <- HB[1][7]`, `IND <- HB[1][6:0]`; the reserved bits go nowhere. -/
def extractFields (fin : Bool) (opc : BitVec 4) (mask : Bool) (ind : BitVec 7) (s : State) : State :=
  { s with work := { s.work with fin := some fin, opc := some opc, mask := some mask, ind := some ind } }

end Sys2Proof.Machine
end

