-- ==== Sys2Proof/Machine/Ops.lean ====
section
/-! DEFINITION. The named operations over memory and registers: `PBUF` and its windows (20_memory.md), the mask procedure
(42_toggle_mask.md R121), the sink and the random source (20_memory.md R47, R48), the stream read and the exact read's
loop (20_memory.md R41; 44_exact_read.md R151), acceptance of a command (30_encoding.md R80), and the two ends of an
operation: `raise` (60_exceptions.md R200), which is how WSFP takes an exception, and `done` (R206). There is no return
from a fault (R205). -/

namespace Sys2Proof.Machine

/-! ### The payload memory -/

/-- What a byte of `PBUF` that is not listed reads as: 0 (DESIGN CHOICE, unsafe; log 14). -/
def unlisted : Byte := 0#8

/-- Every address of the list is above `lo`, the addresses rise strictly, and no entry equals what an unlisted address reads
as. -/
def Memory.wfAbove : Nat → Memory → Bool
  | _, [] => true
  | lo, (a, v) :: m => decide (lo ≤ a) && decide (v ≠ unlisted) && Memory.wfAbove (a + 1) m

/-- The canonical form of a memory. -/
def Memory.wf (m : Memory) : Bool := Memory.wfAbove 0 m

/-- Every listed address is an address of `PBUF`. -/
def Memory.inSpace (sizeW : Nat) (m : Memory) : Bool := m.all fun c => decide (c.1 < Config.sizeRange sizeW)

/-- The byte at an address. -/
def Memory.read : Memory → Nat → Byte
  | [], _ => unlisted
  | (x, v) :: m, a => if a = x then v else Memory.read m a

/-- Store a byte, keeping the canonical form. -/
def Memory.write : Memory → Nat → Byte → Memory
  | [], a, b => if b = unlisted then [] else [(a, b)]
  | (x, v) :: m, a, b =>
      if a < x then (if b = unlisted then (x, v) :: m else (a, b) :: (x, v) :: m)
      else if a = x then (if b = unlisted then m else (a, b) :: m)
      else (x, v) :: Memory.write m a b

/-! ### Windows (20_memory.md R44) -/

/-- `WinRead(W, i)`: address `base + i`. -/
def winRead (w : Window) (m : Memory) (i : Nat) : Byte := Memory.read m (w.base + i)

/-- `WinWrite(W, i, b)`: address `base + i` for `i < cap`; it is defined for no other index, and writes nothing there
(20_memory.md R45: such an index is unreachable; log 20). -/
def winWrite (w : Window) (m : Memory) (i : Nat) (b : Byte) : Memory :=
  if i < w.cap then Memory.write m (w.base + i) b else m

/-- The bytes `bs` stored at indices `i, i+1, ...` of a window, in that order (44_exact_read.md R151). -/
def winWriteAll (w : Window) (m : Memory) (i : Nat) : List Byte → Memory
  | [] => m
  | b :: bs => winWriteAll w (winWrite w m i b) (i + 1) bs

/-- `[ WinRead(W, 0), ..., WinRead(W, n-1) ]` (43_frame_encoder.md R130). -/
def winBytes (w : Window) (m : Memory) (n : Nat) : List Byte := (List.range n).map (winRead w m)

/-- The key byte for payload index `i`, `K[i mod 4]` (42_toggle_mask.md R121). -/
def keyByte (k : Key) (i : Nat) : Byte := k[i % 4]'(Nat.mod_lt i (by decide))

/-- The mask procedure `TM(K, W, n)` (42_toggle_mask.md R121), index 0 first. -/
def toggleMask (k : Key) (w : Window) (m : Memory) : Nat → Memory
  | 0 => m
  | n + 1 =>
      let m' := toggleMask k w m n
      winWrite w m' n (winRead w m' n ^^^ keyByte k n)

/-! ### The sink and the random source -/

/-- `Out(bs)` (20_memory.md R47). -/
def emit (bs : List Byte) (s : State) : State := { s with out := s.out ++ bs }

/-- `Rand4()` (20_memory.md R48): the next scripted draw, or the free value of the draw counter (log 13). -/
def rand4 (s : State) : Key × State :=
  match s.rng with
  | k :: ks => (k, { s with rng := ks })
  | [] => (Config.freeKey s.draws, { s with draws := s.draws + 1 })

/-! ### Phases and the life of an operation -/

/-- An operation is running: `PHASE` is none of `IDLE`, `DONE`, `FAULT` (30_encoding.md R80). -/
def Phase.running : Phase → Bool
  | .idle => false
  | .done => false
  | .fault => false
  | .hdr => true
  | .ext16 => true
  | .ext64 => true
  | .keyrd => true
  | .payload => true
  | .unmask => true
  | .closemeta => true
  | .rxrun => true

/-- The phase reads the stream (10_state.md R14, R15). -/
def Phase.reading : Phase → Bool
  | .hdr => true
  | .ext16 => true
  | .ext64 => true
  | .keyrd => true
  | .payload => true
  | .rxrun => true
  | .idle => false
  | .done => false
  | .fault => false
  | .unmask => false
  | .closemeta => false

/-- The results of the last operation: what the result registers hold while `PHASE` is DONE ("results valid", 10_state.md R14),
and none while an operation runs, after a fault ("results invalid") and once the host has acknowledged (60_exceptions.md
R205: "results lose their value"; log 31). -/
def State.results (s : State) : Option Results := if s.phase = .done then some s.res else none

/-- The stop at a register that holds no value: 10_state.md R12, "A model gives such a register no value (an option type or a
fault on read), never zero"; 93 U11, "`fault` on read in a model (no value); the rules never read one" (log 3). -/
def noValueStop (r : Reg) : Outcome := .fault (.noValue r)

/-- The one read of a register of the block (10_state.md R11, R17, R18): what follows, from its value; without one, the stop
of R12. -/
def withValue {α : Type} (r : Reg) (v : Option α) (k : α → Outcome) : Outcome :=
  match v with
  | some x => k x
  | none => noValueStop r

/-- The working registers, the key file and the sampled arguments hold no value (10_state.md R12; 60_exceptions.md R200
"lose their meaning"; log 4). -/
def clearOperation (s : State) : State :=
  { s with work := Working.empty, key := KeyFile.empty, win := none }

/-- Acceptance of a command: `ERR <- NONE`, every result register loses its value (30_encoding.md R80), and no register holds
a value of an earlier operation (10_state.md R12, R13). -/
def accept (s : State) : State :=
  clearOperation { s with err := .none, res := Results.empty }

/-- The state a fault leaves (60_exceptions.md R200): `ERR <- E`, `PHASE <- FAULT`, the result registers hold no value, the
working registers and the key file lose their meaning; what the stream, the memory and the sink hold stays (R201, R202). -/
def raised (e : Err) (s : State) : State :=
  { clearOperation s with err := e, phase := .fault, res := Results.empty }

/-- TAKING A FAULT: `raise E` (60_exceptions.md R200). -/
def raiseErr (e : Err) (s : State) : Outcome := .next (raised e s)

/-- The state `done` leaves (60_exceptions.md R206): `ERR <- NONE`, the operation's result registers are written, `PHASE <- DONE`. -/
def finished (r : Results) (s : State) : State :=
  { clearOperation s with err := .none, phase := .done, res := r }

/-- `done` (60_exceptions.md R206). -/
def finish (r : Results) (s : State) : Outcome := .next (finished r s)

/-- A command is accepted only when no operation runs, and otherwise has no effect (30_encoding.md R80). -/
def issue (s : State) (start : State → Outcome) : Outcome :=
  if s.phase.running then .next s else start (accept s)

/-- A command with a window: what is no window is refused (20_memory.md R44; 93 U22; log 9). -/
def issueWindow (w : Window) (s : State) (start : State → Outcome) : Outcome :=
  issue s fun s' => if w.valid s.params.sizeW then start s' else .refused .notAWindow

/-! ### The exact read (44_exact_read.md R151) -/

/-- The entry of `XRD(n, W)` in phase `p`: `NEED <- n; CNT <- 0`; for `n = 0` it returns before that and writes neither (R151). -/
def startRead (p : Phase) (n : Nat) (s : State) : State :=
  { s with phase := p, work := { s.work with need := if n = 0 then s.work.need else some n,
                                             cnt := if n = 0 then s.work.cnt else some 0 } }

/-- The window sampled by the running operation (30_encoding.md R79; log 22). A state in which no operation has sampled one has
the empty window, whose every index is beyond its capacity. -/
def someWindow (s : State) : Window := s.win.getD ⟨0, 0⟩

/-- What a stream read answers; `pending`: the stream has not answered yet (44_exact_read.md R157). -/
inductive ReadAnswer where
  | data (bs : List Byte)
  | cancelled
  | pending
  deriving DecidableEq, Repr

/-- The bytes a stream that would choose `size` delivers to a request for `n` bytes: the next ones, at least one, at most `n`
and at most what it holds; none only at its end (20_memory.md R41). -/
def deliveryOf (n size : Nat) (input : List Byte) : List Byte := input.take (min n (max 1 size))

/-- The stream delivers: `SPOS` advances by what is delivered and nothing else of it changes (20_memory.md R41; 10_state.md R16). -/
def deliver (n size : Nat) (s : State) : ReadAnswer × State :=
  let bs := deliveryOf n size s.input
  (.data bs, { s with input := s.input.drop bs.length, spos := s.spos + bs.length })

/-- `StreamRead(n)` (20_memory.md R41, R42; 60_exceptions.md R196): issued while CANCEL = 1 it answers `Cancelled`; otherwise
it takes the next scripted answer, and waits where there is none. -/
def streamRead (n : Nat) (s : State) : ReadAnswer × State :=
  if s.cancel then (.cancelled, s)
  else
    match s.answers with
    | [] => (.pending, s)
    | .data size :: ds => deliver n size { s with answers := ds }
    | .dataAsCancelRises size :: ds => deliver n size { s with answers := ds, cancel := true }
    | .cancelled :: ds => (.cancelled, { s with answers := ds, cancel := true })

/-- The delivered bytes stored from index `i` on, where the running phase stores them: `HB`, `XB`, `KEY` or the window
(20_memory.md R46; 44_exact_read.md R151). -/
def storeDelivered (i : Nat) (bs : List Byte) (s : State) : Outcome :=
  match s.phase with
  | .hdr => .next { s with work := { s.work with hb := storeFile s.work.hb i bs } }
  | .ext16 => .next { s with work := { s.work with xb := storeFile s.work.xb i bs } }
  | .ext64 => .next { s with work := { s.work with xb := storeFile s.work.xb i bs } }
  | .keyrd => .next { s with key := storeFile s.key i bs }
  | .payload => .next { s with pbuf := winWriteAll (someWindow s) s.pbuf i bs }
  | .rxrun => .next { s with pbuf := winWriteAll (someWindow s) s.pbuf i bs }
  | .idle => .refused .notItsPhase
  | .done => .refused .notItsPhase
  | .fault => .refused .notItsPhase
  | .unmask => .refused .notItsPhase
  | .closemeta => .refused .notItsPhase

/-- One turn of the loop of `XRD` (44_exact_read.md R151 to R155): a request for exactly the missing part, its answer, and what
follows from it. -/
def readStep (need cnt : Nat) (s : State) : Outcome :=
  match streamRead (need - cnt) s with
  | (.pending, s') => .next s'
  | (.cancelled, s') => raiseErr .cancelled s'
  | (.data bs, s') =>
      if bs.isEmpty then raiseErr .unexpectedEndOfStream s'
      else
        storeDelivered cnt bs
          { s' with work := { s'.work with cnt := some (cnt + bs.length) } }

end Sys2Proof.Machine
end

