-- ==== Sys2Proof/Machine/ByteOrder.lean ====
section
/-! DEFINITION. The meanings of the ten byte-order commands (45_byte_order.md R165 to R184): each one atomic step whose result
is in `B_OUT` (10_state.md R28) and which touches nothing else (R165). -/

namespace Sys2Proof.Machine

/-- A byte-order command that answers `b`: accepted, then `done` with `B_OUT` (10_state.md R28). -/
def answer (b : BOut) (s : State) : Outcome :=
  issue s fun s' => finish { Results.empty with bOut := some b } s'

/-- SWAP16 (R168). -/
def execSwap16 (b : Vector Byte 2) (s : State) : Outcome := answer (.bytes2 (swapBytes2 b)) s

/-- SWAP64 (R169). -/
def execSwap64 (b : Vector Byte 8) (s : State) : Outcome := answer (.bytes8 (swapBytes8 b)) s

/-- RDU16 (R172). -/
def execRdu16 (b : Vector Byte 2) (little : Bool) (s : State) : Outcome := answer (.value16 (readU16 b little)) s

/-- RDI16 (R173): the value in two's complement, the same 16 bits as RDU16's (R182 (d)). -/
def execRdi16 (b : Vector Byte 2) (little : Bool) (s : State) : Outcome :=
  answer (.value16 (BitVec.ofInt 16 (readI16 b little))) s

/-- RDU64 (R174). -/
def execRdu64 (b : Vector Byte 8) (little : Bool) (s : State) : Outcome := answer (.value64 (readU64 b little)) s

/-- RDI64 (R175): the value in two's complement, the same 64 bits as RDU64's (R182 (d)). -/
def execRdi64 (b : Vector Byte 8) (little : Bool) (s : State) : Outcome :=
  answer (.value64 (BitVec.ofInt 64 (readI64 b little))) s

/-- WRU16 (R176). -/
def execWru16 (v : BitVec 16) (little : Bool) (s : State) : Outcome := answer (.bytes2 (writeU16 v little)) s

/-- WRI16 (R177): the argument read as a signed value. -/
def execWri16 (v : BitVec 16) (little : Bool) (s : State) : Outcome := answer (.bytes2 (writeI16 v.toInt little)) s

/-- WRU64 (R178). -/
def execWru64 (v : BitVec 64) (little : Bool) (s : State) : Outcome := answer (.bytes8 (writeU64 v little)) s

/-- WRI64 (R179): the argument read as a signed value. -/
def execWri64 (v : BitVec 64) (little : Bool) (s : State) : Outcome := answer (.bytes8 (writeI64 v.toInt little)) s

end Sys2Proof.Machine
end

