-- ==== Sys2Proof/Machine/Commands.lean ====
section
/-! DEFINITION. The meanings of the four commands over windows: DECODE (41_frame_decoder.md R90), TOGGLE_MASK (42_toggle_mask.md
R120), ENCODE (43_frame_encoder.md R130) and READ_EXACT (44_exact_read.md R150). DECODE and READ_EXACT start here and go
on step by step (30_encoding.md R80); the other two are one atomic step. -/

namespace Sys2Proof.Machine

/-- DECODE: `PHASE <- HDR` and the entry of `XRD(2, HB)` (R90, R91). -/
def execDecode (win : Window) (s : State) : Outcome :=
  issueWindow win s fun s' => .next (startRead .hdr 2 { s' with win := some win })

/-- TOGGLE_MASK: the key length is checked before any byte is touched (R120, R124). -/
def execToggleMask (klen : Nat) (key : Key) (win : Window) (s : State) : Outcome :=
  issueWindow win s fun s' =>
    if klen ≠ 4 then raiseErr .invalidMaskKeyLength s'
    else
      let s'' := { s' with key := keyFileOf key }
      finish Results.empty { s'' with pbuf := toggleMask key win s''.pbuf win.cap }

/-- The first byte of a frame (R131): `(is_final ? 0x80 : 0x00) | opcode`. -/
def firstByte (opcode : BitVec 4) (isFinal : Bool) : Byte :=
  (if isFinal then 0x80#8 else 0x00#8) ||| opcode.setWidth 8

/-- `n` in the eight bytes of the longest length form (R133); a free value where it does not fit them (log 30). -/
def lengthField (n : Nat) : Len := if n < 2 ^ 64 then BitVec.ofNat 64 n else Config.lengthBeyond n

/-- The number of bytes written, in the 64 bits of `E_WRITTEN` (10_state.md R28); a free value where it does not fit them
(log 30). -/
def writtenCount (n : Nat) : Len := if n < 2 ^ 64 then BitVec.ofNat 64 n else Config.writtenBeyond n

/-- The second byte and the extended length of a payload of `n` bytes (R132, R133): always the minimal form. -/
def lengthBytes (isClient : Bool) (n : Nat) : List Byte :=
  let m : Byte := if isClient then 0x80#8 else 0x00#8
  if n < 126 then [m ||| BitVec.ofNat 8 n]
  else if n ≤ 65535 then (m ||| 126#8) :: (writeU16 (BitVec.ofNat 16 n) false).toList
  else (m ||| 127#8) :: (writeU64 (lengthField n) false).toList

/-- Header and extended length of a frame, in the order of R130. -/
def headerBytesOf (opcode : BitVec 4) (isFinal isClient : Bool) (n : Nat) : List Byte :=
  firstByte opcode isFinal :: lengthBytes isClient n

/-- `HL = 2 + E + 4*MASK` for the minimal form of a payload of `n` bytes (30_encoding.md R63; R137). -/
def headerLength (isClient : Bool) (n : Nat) : Nat :=
  2 + (if n < 126 then 0 else if n ≤ 65535 then 2 else 8) + (if isClient then 4 else 0)

/-- The client's part of ENCODE (R135): `KEY <- Rand4()`, `Out(KEY)`, `TM(KEY, W, n)`. -/
def maskForClient (win : Window) (s : State) : State :=
  let drawn := rand4 s
  let s' := emit drawn.1.toList { drawn.2 with key := keyFileOf drawn.1 }
  { s' with pbuf := toggleMask drawn.1 win s'.pbuf win.cap }

/-- The body of ENCODE (R130). -/
def encodeBody (opcode : BitVec 4) (isFinal isClient : Bool) (win : Window) (s : State) : Outcome :=
  let n := win.cap
  let s1 := emit (headerBytesOf opcode isFinal isClient n) s
  let s2 := if isClient then maskForClient win s1 else s1
  let s3 := emit (winBytes win s2.pbuf n) s2
  finish { Results.empty with eWritten := some (writtenCount (headerLength isClient n + n)) } s3

/-- ENCODE: without the encoder, as a code that names no operation: no effect at all (30_encoding.md R81); else R130. It
raises nothing (R141). -/
def execEncode (opcode : BitVec 4) (isFinal isClient : Bool) (win : Window) (s : State) : Outcome :=
  if s.params.hasEncoder then issueWindow win s (encodeBody opcode isFinal isClient win) else .next s

/-- `XRD(n, W)` as a command: for `n = 0` it returns at once, and `done` (R150; log 19); else the window check before any I/O
(R151, R153) and the read. -/
def startReadExact (length : Nat) (win : Window) (s : State) : Outcome :=
  if length = 0 then finish Results.empty s
  else if win.cap < length then raiseErr .bufferTooSmall s
  else .next (startRead .rxrun length s)

/-- READ_EXACT: `PHASE <- RXRUN; XRD(length, W); done` (R150). -/
def execReadExact (length : Nat) (win : Window) (s : State) : Outcome :=
  issueWindow win s fun s' => startReadExact length win { s' with win := some win }

end Sys2Proof.Machine
end

