-- ==== Sys2Proof/Machine/Length.lean ====
section
/-! DEFINITION. The meanings of the six length-form rows: the head of a DECODE (41_frame_decoder.md R90 to R99, R106). A row is
run at the end of each phase in which its header is read: at the end of HDR it extracts the fields and resolves the
length or starts the extended read; at the end of EXT16 or EXT64 it assembles the length; at the end of KEYRD, in a
masked form, it goes on to the window check (log 5). -/

namespace Sys2Proof.Machine

/-- R98, R99: the window check, then the entry of the payload read. -/
def startPayload (s : State) : Outcome :=
  withValue .len s.work.len fun l =>
    if (someWindow s).cap < l.toNat then raiseErr .bufferTooSmall s
    else .next (startRead .payload l.toNat s)

/-- `LEN` is assembled: the cap check (R95), then the key read of a masked form (R97), else the window check. -/
def lengthKnown (masked : Bool) (l : Len) (s : State) : Outcome :=
  let s' := { s with work := { s.work with len := some l } }
  if s.maxLen.toNat < l.toNat then raiseErr .lengthOutOfRange s'
  else if masked then .next (startRead .keyrd 4 s')
  else startPayload s'

/-- What a length-form row does at the end of KEYRD: only a masked form has read a key (R97, R106). -/
def keyKnown (masked : Bool) (s : State) : Outcome :=
  if masked then startPayload s else .refused .notItsPhase

/-- The 7-bit forms (30_encoding.md R65: `LEN <- zext_64(IND)`). -/
def length7Row (masked fin : Bool) (opc : BitVec 4) (ind : BitVec 7) (s : State) : Outcome :=
  match s.phase with
  | .hdr => lengthKnown masked (ind.setWidth 64) (extractFields fin opc masked ind s)
  | .keyrd => keyKnown masked s
  | .ext16 => .refused .notItsPhase
  | .ext64 => .refused .notItsPhase
  | .idle => .refused .notItsPhase
  | .payload => .refused .notItsPhase
  | .unmask => .refused .notItsPhase
  | .closemeta => .refused .notItsPhase
  | .rxrun => .refused .notItsPhase
  | .done => .refused .notItsPhase
  | .fault => .refused .notItsPhase

/-- The 16-bit forms (30_encoding.md R65: `LEN <- zext_64(BE16(XB[0], XB[1]))`). -/
def length16Row (masked fin : Bool) (opc : BitVec 4) (s : State) : Outcome :=
  match s.phase with
  | .hdr => .next (startRead .ext16 2 (extractFields fin opc masked 126#7 s))
  | .ext16 => withValue .xb (ext16Value s.work.xb) fun v => lengthKnown masked (v.setWidth 64) s
  | .keyrd => keyKnown masked s
  | .ext64 => .refused .notItsPhase
  | .idle => .refused .notItsPhase
  | .payload => .refused .notItsPhase
  | .unmask => .refused .notItsPhase
  | .closemeta => .refused .notItsPhase
  | .rxrun => .refused .notItsPhase
  | .done => .refused .notItsPhase
  | .fault => .refused .notItsPhase

/-- The 64-bit forms (30_encoding.md R65: `LEN <- BE64(XB[0], ..., XB[7])`). -/
def length64Row (masked fin : Bool) (opc : BitVec 4) (s : State) : Outcome :=
  match s.phase with
  | .hdr => .next (startRead .ext64 8 (extractFields fin opc masked 127#7 s))
  | .ext64 => withValue .xb (ext64Value s.work.xb) fun v => lengthKnown masked v s
  | .keyrd => keyKnown masked s
  | .ext16 => .refused .notItsPhase
  | .idle => .refused .notItsPhase
  | .payload => .refused .notItsPhase
  | .unmask => .refused .notItsPhase
  | .closemeta => .refused .notItsPhase
  | .rxrun => .refused .notItsPhase
  | .done => .refused .notItsPhase
  | .fault => .refused .notItsPhase

/-- LEN7.U: an unmasked frame with a length of 0..125 (30_encoding.md R72). -/
def execLen7U (fin : Bool) (_rsv : BitVec 3) (opc : BitVec 4) (ind : BitVec 7) (s : State) : Outcome :=
  length7Row false fin opc ind s

/-- LEN7.M: a masked frame with a length of 0..125 (30_encoding.md R72). -/
def execLen7M (fin : Bool) (_rsv : BitVec 3) (opc : BitVec 4) (ind : BitVec 7) (s : State) : Outcome :=
  length7Row true fin opc ind s

/-- LEN16.U (30_encoding.md R72). -/
def execLen16U (fin : Bool) (_rsv : BitVec 3) (opc : BitVec 4) (s : State) : Outcome :=
  length16Row false fin opc s

/-- LEN16.M (30_encoding.md R72). -/
def execLen16M (fin : Bool) (_rsv : BitVec 3) (opc : BitVec 4) (s : State) : Outcome :=
  length16Row true fin opc s

/-- LEN64.U (30_encoding.md R72). -/
def execLen64U (fin : Bool) (_rsv : BitVec 3) (opc : BitVec 4) (s : State) : Outcome :=
  length64Row false fin opc s

/-- LEN64.M (30_encoding.md R72). -/
def execLen64M (fin : Bool) (_rsv : BitVec 3) (opc : BitVec 4) (s : State) : Outcome :=
  length64Row true fin opc s

end Sys2Proof.Machine
end

