-- ==== Sys2Proof/Machine/Opcode.lean ====
section
/-! DEFINITION. The meanings of the sixteen opcode rows: the end of a DECODE (41_frame_decoder.md R100 to R106). A row is run
once the payload is complete: at the end of PAYLOAD, in UNMASK, and for CLOSE in CLOSEMETA (log 5). The header's
fields are in FIN, OPC, MASK and IND by then (R92), and the rules read them there: the row's operands are its word's. -/

namespace Sys2Proof.Machine

/-- What the close metadata step reports (R102, R103): `F_CS_V`, `F_CS`, `F_CR_V`, `F_CR_OFF`, `F_CR_LEN`. -/
structure CloseMeta where
  csV : Bool
  cs : Option StatusCode
  crV : Bool
  crOff : Option Nat
  crLen : Option Nat
  deriving DecidableEq, Repr

/-- R104: nothing of the payload is interpreted. -/
def noCloseMeta : CloseMeta := { csV := false, cs := none, crV := false, crOff := none, crLen := none }

/-- R102: a code that is not recognised is normalised to `NO_STATUS`. -/
def normaliseStatus (p : Params) (code : StatusCode) : StatusCode :=
  if code ∈ p.recognised then code else p.noStatus

/-- R102, R103: close status and reason extent of a payload of `l` bytes in window `w`. -/
def closeMetaOf (p : Params) (m : Memory) (w : Window) (l : Len) : CloseMeta :=
  if l.toNat ≥ 2 then
    let code := be16 (winRead w m 0) (winRead w m 1)
    if l.toNat > 2 then
      { csV := true, cs := some (normaliseStatus p code), crV := true, crOff := some 2,
        crLen := some (l.toNat - 2) }
    else { csV := true, cs := some (normaliseStatus p code), crV := false, crOff := none, crLen := none }
  else { csV := true, cs := some p.noStatus, crV := false, crOff := none, crLen := none }

/-- R105: `F_FIN <- FIN`, `F_OPC <- OPC`, `F_PLEN <- LEN` (R96), the metadata, then `done`. -/
def frameDone (c : CloseMeta) (s : State) : Outcome :=
  withValue .fin s.work.fin fun f =>
  withValue .opc s.work.opc fun o =>
  withValue .len s.work.len fun l =>
    finish { Results.empty with fFin := some f, fOpc := some o, fPlen := some l.toNat, fCsV := some c.csV,
                                fCs := c.cs, fCrV := some c.crV, fCrOff := c.crOff, fCrLen := c.crLen } s

/-- The payload is complete and unmasked: the close row goes on to CLOSEMETA, every other row ends the frame (R104, R106). -/
def payloadDone (isClose : Bool) (s : State) : Outcome :=
  if isClose then .next { s with phase := .closemeta } else frameDone noCloseMeta s

/-- R100: `TM(KEY, W, LEN)`. -/
def unmaskPayload (isClose : Bool) (s : State) : Outcome :=
  withValue .key (keyBytes s.key) fun k =>
  withValue .len s.work.len fun l =>
    payloadDone isClose { s with pbuf := toggleMask k (someWindow s) s.pbuf l.toNat }

/-- R102, R103, R105: the step of phase CLOSEMETA. -/
def closeMetaStep (s : State) : Outcome :=
  withValue .len s.work.len fun l => frameDone (closeMetaOf s.params s.pbuf (someWindow s) l) s

/-- The shared course of the opcode rows (R106): from PAYLOAD to UNMASK if MASK = 1, then to CLOSEMETA for CLOSE, else to
DONE. -/
def opcodeRow (isClose : Bool) (s : State) : Outcome :=
  match s.phase with
  | .payload =>
      withValue .mask s.work.mask fun m =>
        if m then .next { s with phase := .unmask } else payloadDone isClose s
  | .unmask => unmaskPayload isClose s
  | .closemeta => if isClose then closeMetaStep s else .refused .notItsPhase
  | .idle => .refused .notItsPhase
  | .hdr => .refused .notItsPhase
  | .ext16 => .refused .notItsPhase
  | .ext64 => .refused .notItsPhase
  | .keyrd => .refused .notItsPhase
  | .rxrun => .refused .notItsPhase
  | .done => .refused .notItsPhase
  | .fault => .refused .notItsPhase

/-- CONT, opcode 0x0 (R104). -/
def execCont (_fin : Bool) (_rsv : BitVec 3) (_mask : Bool) (_ind : BitVec 7) (s : State) : Outcome :=
  opcodeRow false s

/-- TEXT, opcode 0x1 (R104). -/
def execText (_fin : Bool) (_rsv : BitVec 3) (_mask : Bool) (_ind : BitVec 7) (s : State) : Outcome :=
  opcodeRow false s

/-- BIN, opcode 0x2 (R104). -/
def execBin (_fin : Bool) (_rsv : BitVec 3) (_mask : Bool) (_ind : BitVec 7) (s : State) : Outcome :=
  opcodeRow false s

/-- OP3, opcode 0x3 (R104; 30_encoding.md R69: passed through). -/
def execOp3 (_fin : Bool) (_rsv : BitVec 3) (_mask : Bool) (_ind : BitVec 7) (s : State) : Outcome :=
  opcodeRow false s

/-- OP4, opcode 0x4 (R104; 30_encoding.md R69: passed through). -/
def execOp4 (_fin : Bool) (_rsv : BitVec 3) (_mask : Bool) (_ind : BitVec 7) (s : State) : Outcome :=
  opcodeRow false s

/-- OP5, opcode 0x5 (R104; 30_encoding.md R69: passed through). -/
def execOp5 (_fin : Bool) (_rsv : BitVec 3) (_mask : Bool) (_ind : BitVec 7) (s : State) : Outcome :=
  opcodeRow false s

/-- OP6, opcode 0x6 (R104; 30_encoding.md R69: passed through). -/
def execOp6 (_fin : Bool) (_rsv : BitVec 3) (_mask : Bool) (_ind : BitVec 7) (s : State) : Outcome :=
  opcodeRow false s

/-- OP7, opcode 0x7 (R104; 30_encoding.md R69: passed through). -/
def execOp7 (_fin : Bool) (_rsv : BitVec 3) (_mask : Bool) (_ind : BitVec 7) (s : State) : Outcome :=
  opcodeRow false s

/-- CLOSE, opcode 0x8 (R102 to R105). -/
def execClose (_fin : Bool) (_rsv : BitVec 3) (_mask : Bool) (_ind : BitVec 7) (s : State) : Outcome :=
  opcodeRow true s

/-- PING, opcode 0x9 (R104). -/
def execPing (_fin : Bool) (_rsv : BitVec 3) (_mask : Bool) (_ind : BitVec 7) (s : State) : Outcome :=
  opcodeRow false s

/-- PONG, opcode 0xA (R104). -/
def execPong (_fin : Bool) (_rsv : BitVec 3) (_mask : Bool) (_ind : BitVec 7) (s : State) : Outcome :=
  opcodeRow false s

/-- OP11, opcode 0xB (R104; 30_encoding.md R69: passed through). -/
def execOp11 (_fin : Bool) (_rsv : BitVec 3) (_mask : Bool) (_ind : BitVec 7) (s : State) : Outcome :=
  opcodeRow false s

/-- OP12, opcode 0xC (R104; 30_encoding.md R69: passed through). -/
def execOp12 (_fin : Bool) (_rsv : BitVec 3) (_mask : Bool) (_ind : BitVec 7) (s : State) : Outcome :=
  opcodeRow false s

/-- OP13, opcode 0xD (R104; 30_encoding.md R69: passed through). -/
def execOp13 (_fin : Bool) (_rsv : BitVec 3) (_mask : Bool) (_ind : BitVec 7) (s : State) : Outcome :=
  opcodeRow false s

/-- OP14, opcode 0xE (R104; 30_encoding.md R69: passed through). -/
def execOp14 (_fin : Bool) (_rsv : BitVec 3) (_mask : Bool) (_ind : BitVec 7) (s : State) : Outcome :=
  opcodeRow false s

/-- OP15, opcode 0xF (R104; 30_encoding.md R69: passed through). -/
def execOp15 (_fin : Bool) (_rsv : BitVec 3) (_mask : Bool) (_ind : BitVec 7) (s : State) : Outcome :=
  opcodeRow false s

end Sys2Proof.Machine
end

