-- ==== Sys2Proof/Machine/Dispatch.lean ====
section
/-! DEFINITION. One arm per constructor of `Instr`, each a direct call of the instruction's meaning. -/

namespace Sys2Proof.Machine

def exec (i : Instr) (s : State) : Host.Outcome State Fault Refusal :=
  match i with
  | .cont fin rsv mask ind => Sys2Proof.Machine.execCont fin rsv mask ind s
  | .text fin rsv mask ind => Sys2Proof.Machine.execText fin rsv mask ind s
  | .bin fin rsv mask ind => Sys2Proof.Machine.execBin fin rsv mask ind s
  | .op3 fin rsv mask ind => Sys2Proof.Machine.execOp3 fin rsv mask ind s
  | .op4 fin rsv mask ind => Sys2Proof.Machine.execOp4 fin rsv mask ind s
  | .op5 fin rsv mask ind => Sys2Proof.Machine.execOp5 fin rsv mask ind s
  | .op6 fin rsv mask ind => Sys2Proof.Machine.execOp6 fin rsv mask ind s
  | .op7 fin rsv mask ind => Sys2Proof.Machine.execOp7 fin rsv mask ind s
  | .close fin rsv mask ind => Sys2Proof.Machine.execClose fin rsv mask ind s
  | .ping fin rsv mask ind => Sys2Proof.Machine.execPing fin rsv mask ind s
  | .pong fin rsv mask ind => Sys2Proof.Machine.execPong fin rsv mask ind s
  | .op11 fin rsv mask ind => Sys2Proof.Machine.execOp11 fin rsv mask ind s
  | .op12 fin rsv mask ind => Sys2Proof.Machine.execOp12 fin rsv mask ind s
  | .op13 fin rsv mask ind => Sys2Proof.Machine.execOp13 fin rsv mask ind s
  | .op14 fin rsv mask ind => Sys2Proof.Machine.execOp14 fin rsv mask ind s
  | .op15 fin rsv mask ind => Sys2Proof.Machine.execOp15 fin rsv mask ind s
  | .len7U fin rsv opc ind => Sys2Proof.Machine.execLen7U fin rsv opc ind s
  | .len7M fin rsv opc ind => Sys2Proof.Machine.execLen7M fin rsv opc ind s
  | .len16U fin rsv opc => Sys2Proof.Machine.execLen16U fin rsv opc s
  | .len16M fin rsv opc => Sys2Proof.Machine.execLen16M fin rsv opc s
  | .len64U fin rsv opc => Sys2Proof.Machine.execLen64U fin rsv opc s
  | .len64M fin rsv opc => Sys2Proof.Machine.execLen64M fin rsv opc s
  | .decode win => Sys2Proof.Machine.execDecode win s
  | .toggleMask klen key win => Sys2Proof.Machine.execToggleMask klen key win s
  | .encode opcode isFinal isClient win => Sys2Proof.Machine.execEncode opcode isFinal isClient win s
  | .readExact length win => Sys2Proof.Machine.execReadExact length win s
  | .swap16 b => Sys2Proof.Machine.execSwap16 b s
  | .swap64 b => Sys2Proof.Machine.execSwap64 b s
  | .rdu16 b little => Sys2Proof.Machine.execRdu16 b little s
  | .rdi16 b little => Sys2Proof.Machine.execRdi16 b little s
  | .rdu64 b little => Sys2Proof.Machine.execRdu64 b little s
  | .rdi64 b little => Sys2Proof.Machine.execRdi64 b little s
  | .wru16 v little => Sys2Proof.Machine.execWru16 v little s
  | .wri16 v little => Sys2Proof.Machine.execWri16 v little s
  | .wru64 v little => Sys2Proof.Machine.execWru64 v little s
  | .wri64 v little => Sys2Proof.Machine.execWri64 v little s

end Sys2Proof.Machine
end

