-- ==== Sys2Proof/Machine/Fetch.lean ====
section
/-! DEFINITION. What the sequencer does next, and where it fetches from (10_state.md R14, R15; 30_encoding.md R80;
41_frame_decoder.md R106). -/

namespace Sys2Proof.Machine

/-- The sequencer's next move: wait for a command (70_reset_and_hazards.md R220), one turn of a read, the end of a
READ_EXACT, a row of the header in `HB`, or a stop at a register without a value. -/
inductive Fetch where
  | wait
  | read (need cnt : Nat)
  | endRead
  | word (w : FetchWord)
  | missing (r : Reg)
  deriving DecidableEq, Repr

/-- The header in `HB`, read as its length-form row. -/
def fetchLengthForm (s : State) : Fetch :=
  match headerBytes s.work.hb with
  | some hw => .word (.lengthForm hw)
  | none => .missing .hb

/-- The header in `HB`, read as its opcode row. -/
def fetchOpcode (s : State) : Fetch :=
  match headerBytes s.work.hb with
  | some hw => .word (.opcode hw)
  | none => .missing .hb

/-- In a phase that reads the stream: go on reading while `CNT < NEED`, and at its end do `next` (10_state.md R15). -/
def fetchReading (s : State) (next : Fetch) : Fetch :=
  match s.work.need, s.work.cnt with
  | some n, some c => if c < n then .read n c else next
  | none, _ => .missing .need
  | some _, none => .missing .cnt

/-- The next move in each phase (41_frame_decoder.md R106). -/
def fetch (s : State) : Fetch :=
  match s.phase with
  | .idle => .wait
  | .done => .wait
  | .fault => .wait
  | .hdr => fetchReading s (fetchLengthForm s)
  | .ext16 => fetchReading s (fetchLengthForm s)
  | .ext64 => fetchReading s (fetchLengthForm s)
  | .keyrd => fetchReading s (fetchLengthForm s)
  | .payload => fetchReading s (fetchOpcode s)
  | .unmask => fetchOpcode s
  | .closemeta => fetchOpcode s
  | .rxrun => fetchReading s .endRead

/-- The header word `hw` in `HB`, both bytes written. -/
def withHeader (hw : HeaderWord) (s : State) : State :=
  { s with work := { s.work with hb := #v[some (hwByte0 hw), some (hwByte1 hw)] } }

/-- A word placed where the next step fetches it (log 6, 16): a command as the host's next move; a header read as its
length-form row at the end of HDR; a header read as its opcode row at the end of the payload read of a frame with no
payload byte. For a header the host's next move lets the block take its step. -/
def placeWord (f : FetchWord) (s : State) : State :=
  match f with
  | .command code a => { s with host := .command code a :: s.host }
  | .lengthForm hw =>
      withHeader hw { s with
        phase := .hdr, work := { s.work with need := some 2, cnt := some 2 }, win := some (someWindow s),
        host := .yield :: s.host }
  | .opcode hw =>
      let s' := startRead .payload 0 (extractFields (hwFin hw) (hwOpc hw) (hwMask hw) (hwInd hw) s)
      withHeader hw { s' with
        work := { s'.work with len := some 0#64, need := some 2, cnt := some 2 }, win := some (someWindow s),
        host := .yield :: s.host }

end Sys2Proof.Machine
end

