-- ==== Sys2Proof/Machine/HostPort.lean ====
section
/-! DEFINITION. The host's moves other than a command: acknowledge, `MAX_LEN`, `CANCEL`, reset, a new stream, a store into
`PBUF`. -/

namespace Sys2Proof.Machine

/-- From DONE or FAULT: `PHASE <- IDLE`, and with it the results lose their value (60_exceptions.md R205): `State.results` is none
outside DONE (10_state.md R14). No result register is changed: they "stay readable until the next command is issued" (R13,
R27, R28). DEDUCED: that the two are said of two things, log 31. `ERR` keeps its code (log 24). Elsewhere there is nothing
to acknowledge. -/
def acknowledge (s : State) : State :=
  match s.phase with
  | .done => { s with phase := .idle }
  | .fault => { s with phase := .idle }
  | .idle => s
  | .hdr => s
  | .ext16 => s
  | .ext64 => s
  | .keyrd => s
  | .payload => s
  | .unmask => s
  | .closemeta => s
  | .rxrun => s

/-- 10_state.md R22: a value above `2^SIZE_W - 1`, or a write while an operation runs, is refused: the register keeps its old
value. -/
def writeMaxLen (v : Len) (s : State) : State :=
  if s.phase.running then s
  else if v.toNat ≤ Config.maxLenLimit s.params.sizeW then { s with maxLen := v } else s

/-- A stream becomes live: its bytes, and `SPOS` = 0 (10_state.md R25; 70_reset_and_hazards.md R222); the host does so only
between operations (R231; log 17). -/
def connect (bytes : List Byte) (s : State) : Outcome :=
  if s.phase.running then .refused .streamInUse else .next { s with input := bytes, spos := 0 }

/-- The address lies in the window of the running operation. -/
def inRunningWindow (addr : Nat) (s : State) : Bool :=
  s.phase.running &&
    match s.win with
    | some w => decide (w.base ≤ addr) && decide (addr < w.base + w.cap)
    | none => false

/-- The host stores a byte of its own memory, at an address of `PBUF` (20_memory.md R44, R49), and never in the window of a
running operation (70_reset_and_hazards.md R232; log 17). -/
def hostStore (addr : Nat) (b : Byte) (s : State) : Outcome :=
  if Config.sizeRange s.params.sizeW ≤ addr then .refused .noSuchAddress
  else if inRunningWindow addr s then .refused .windowInUse
  else .next { s with pbuf := Memory.write s.pbuf addr b }

end Sys2Proof.Machine
end

