-- ==== Sys2Proof/Machine/Sequencer.lean ====
section
/-! DEFINITION. One step of the machine: a move of the host if its script lists one, else a step of the block (log 10). -/

namespace Sys2Proof.Machine

/-- Run a fetched word: the decoded instruction's meaning. A command code that names no operation has no effect at all
(30_encoding.md R81). -/
def runWord (f : FetchWord) (s : State) : Outcome :=
  match decode f with
  | .ok i => exec i s
  | .error (.noOperation _) => .next s

/-- One step of the block (00_scope.md R6; 30_encoding.md R80): the next move of the sequencer. -/
def blockStep (s : State) : Outcome :=
  match fetch s with
  | .wait => .next s
  | .read n c => readStep n c s
  | .endRead => finish Results.empty s
  | .word f => runWord f s
  | .missing r => noValueStop r

/-- One step of the machine. -/
def advance (s : State) : Outcome :=
  match s.host with
  | [] => blockStep s
  | .yield :: hs => blockStep { s with host := hs }
  | .await :: hs => if s.phase.running then blockStep s else .next { s with host := hs }
  | .command code a :: hs => runWord (.command code a) { s with host := hs }
  | .ack :: hs => .next (acknowledge { s with host := hs })
  | .writeMaxLen v :: hs => .next (writeMaxLen v { s with host := hs })
  | .setCancel level :: hs => .next { s with host := hs, cancel := level }
  | .reset :: hs => .next (State.resetBlock { s with host := hs })
  | .connect bytes :: hs => connect bytes { s with host := hs }
  | .store addr b :: hs => hostStore addr b { s with host := hs }

end Sys2Proof.Machine
end

