-- ==== Sys2Proof/Machine/Step.lean ====
section
/-! DEFINITION. The step function, and the placing of an instruction where the next step fetches it. -/

namespace Sys2Proof.Machine

/-- One step: next state, fault or refusal. -/
def step : State → Host.Outcome State Fault Refusal := advance

/-- `s` with the opcode table's word `w` of `nbits` bits placed so that the very next step runs it (log 6, 16). -/
def State.withFetchWord (s : State) (nbits w : Nat) : State :=
  match tableWord nbits w with
  | some f => placeWord f s
  | none => s

end Sys2Proof.Machine
end

