-- ==== Sys2Proof/Safety.lean ====
section
/-! DEFINITION. What a sound state of WSFP is: the invariant `Sound` that every step keeps, and what the contracts ask of the
host's next move. -/

namespace Sys2Proof.Machine

/-- The first `k` bytes of a byte file hold a value (44_exact_read.md R151). -/
def FileHolds {n : Nat} (f : Vector (Option Byte) n) (k : Nat) : Prop :=
  ∀ i : Fin n, i.val < k → (f[i]).isSome = true

/-- Between operations no working register, no key byte and no sampled argument holds a value (10_state.md R12, R25). -/
def Quiet (s : State) : Prop := s.work = Working.empty ∧ s.key = KeyFile.empty ∧ s.win = none

/-- While an operation runs: `ERR` is NONE, no result register holds a value (30_encoding.md R80; 10_state.md R27), and the
sampled window is a window (20_memory.md R44). -/
def Underway (s : State) (w : Window) : Prop :=
  s.err = .none ∧ s.res = Results.empty ∧ s.win = some w ∧ w.valid s.params.sizeW = true

/-- The exact read of `n` bytes is at `CNT <= NEED` (10_state.md R15), and a byte file it fills holds its first `CNT` bytes. -/
def ReadAt {k : Nat} (s : State) (n : Nat) (f : Vector (Option Byte) k) : Prop :=
  s.work.need = some n ∧ ∃ c, s.work.cnt = some c ∧ c ≤ n ∧ FileHolds f c

/-- The header word `hw` is in `HB` and its fields are extracted (41_frame_decoder.md R92). -/
def Latched (s : State) (hw : HeaderWord) : Prop :=
  headerBytes s.work.hb = some hw ∧ s.work.fin = some (hwFin hw) ∧ s.work.opc = some (hwOpc hw)
    ∧ s.work.mask = some (hwMask hw) ∧ s.work.ind = some (hwInd hw)

/-- `LEN` is known and has passed the cap check (41_frame_decoder.md R95). -/
def LengthAccepted (s : State) (l : Len) : Prop := s.work.len = some l ∧ l.toNat ≤ s.maxLen.toNat

/-- What the result registers of an instance with the parameter `SIZE_W` keep: the frame invariants (a) and (b) of 10_state.md
R20, the extent of the reason (R19), and the width of `F_PLEN` (R19). -/
def FrameSound (sizeW : Nat) (r : Results) : Prop :=
  (∀ o, r.fOpc = some o → o ≠ 8#4 → r.fCsV = some false ∧ r.fCrV = some false)
    ∧ (∀ o, r.fOpc = some o → o = 8#4 → r.fCsV = some true)
    ∧ (r.fCrV = some true → r.fCsV = some true ∧ ∃ p, r.fPlen = some p ∧ 3 ≤ p
        ∧ r.fCrOff = some 2 ∧ r.fCrLen = some (p - 2))
    ∧ (r.fCrV ≠ some true → r.fCrOff = none ∧ r.fCrLen = none)
    ∧ (∀ p, r.fPlen = some p → p < Config.sizeRange sizeW)

/-- The read of the payload of `LEN = l` (41_frame_decoder.md R99, R101): an exact read of `l` bytes, or for `l = 0` none, with
`NEED` and `CNT` as the last read of the header left them (44_exact_read.md R151). -/
def PayloadReadAt (s : State) (l : Len) : Prop :=
  if l.toNat = 0 then ∃ n, n ≤ 8 ∧ s.work.need = some n ∧ s.work.cnt = some n
  else ReadAt s l.toNat (#v[] : Vector (Option Byte) 0)

/-- What holds in each phase (10_state.md R14; 41_frame_decoder.md R90, R106). In IDLE the result registers hold what
the last operation left them, which is nothing after a fault (R27). -/
def PhaseSound (s : State) : Prop :=
  match s.phase with
  | .idle => Quiet s ∧ FrameSound s.params.sizeW s.res ∧ (s.err ≠ .none → s.res = Results.empty)
  | .done => Quiet s ∧ s.err = .none ∧ FrameSound s.params.sizeW s.res
  | .fault => Quiet s ∧ s.err ≠ .none ∧ s.res = Results.empty
  | .hdr => ∃ w, Underway s w ∧ ReadAt s 2 s.work.hb
  | .ext16 => ∃ w hw, Underway s w ∧ Latched s hw ∧ hwInd hw = 126#7 ∧ ReadAt s 2 s.work.xb
  | .ext64 => ∃ w hw, Underway s w ∧ Latched s hw ∧ hwInd hw = 127#7 ∧ ReadAt s 8 s.work.xb
  | .keyrd => ∃ w hw l, Underway s w ∧ Latched s hw ∧ hwMask hw = true ∧ LengthAccepted s l ∧ ReadAt s 4 s.key
  | .payload => ∃ w hw l, Underway s w ∧ Latched s hw ∧ LengthAccepted s l ∧ l.toNat ≤ w.cap
      ∧ PayloadReadAt s l ∧ (hwMask hw = true → FileHolds s.key 4)
  | .unmask => ∃ w hw l, Underway s w ∧ Latched s hw ∧ LengthAccepted s l ∧ l.toNat ≤ w.cap
      ∧ PayloadReadAt s l ∧ hwMask hw = true ∧ FileHolds s.key 4
  | .closemeta => ∃ w hw l, Underway s w ∧ Latched s hw ∧ LengthAccepted s l ∧ l.toNat ≤ w.cap
      ∧ PayloadReadAt s l ∧ hwOpc hw = 8#4
  | .rxrun => ∃ w n, Underway s w ∧ n ≤ w.cap ∧ ReadAt s n (#v[] : Vector (Option Byte) 0)

/-- The invariant: `PBUF` is in canonical form and within its address space, `SIZE_W` and `MAX_LEN` are legal values (00_scope.md
R4; 10_state.md R22; log 1), `RECOGNISED_CODES` contains 1000 (00_scope.md R4), and what the phase says holds. -/
structure Sound (s : State) : Prop where
  memory : s.pbuf.wf = true
  space : s.pbuf.inSpace s.params.sizeW = true
  sizeW : Config.legalSizeW s.params.sizeW = true
  maxLen : s.maxLen.toNat ≤ Config.maxLenLimit s.params.sizeW
  recognised : Config.normalClosure ∈ s.params.recognised
  phase : PhaseSound s

/-- The command of this code samples a window (30_encoding.md R79). -/
def codeHasWindow (code : BitVec 4) : Bool :=
  decide (code = 0x1#4) || decide (code = 0x2#4) || decide (code = 0x3#4) || decide (code = 0x4#4)

/-- The host keeps its contracts with its next move: a command that would be accepted is given a window (20_memory.md R44), a
stream is connected only between operations (70_reset_and_hazards.md R231), a store is to an address of `PBUF`, and the
window of a running operation is left alone (R232). -/
def hostKeepsContracts (s : State) : Bool :=
  match s.host with
  | .command code a :: _ => s.phase.running || !codeHasWindow code || a.win.valid s.params.sizeW
  | .connect _ :: _ => !s.phase.running
  | .store addr _ :: _ => decide (addr < Config.sizeRange s.params.sizeW) && !inRunningWindow addr s
  | _ => true

/-- The block takes this step, from `t`: the host is silent, lets it take one step, or waits for the end of a running operation
(log 10). -/
def BlockMoves (s t : State) : Prop :=
  (s.host = [] ∧ t = s) ∨ (∃ hs, s.host = .yield :: hs ∧ t = { s with host := hs })
    ∨ (∃ hs, s.host = .await :: hs ∧ s.phase.running = true ∧ t = s)

/-- `k` steps, stopping at the first fault or refusal: `Host.Core.run` of this machine, over its own types. -/
def runSteps : Nat → State → Outcome
  | 0, s => .next s
  | k + 1, s =>
      match step s with
      | .next t => runSteps k t
      | .fault r => .fault r
      | .refused r => .refused r

/-- The fifteen opcode rows other than CLOSE, of one word's other fields (30_encoding.md R68). -/
def genericRows (f : Bool) (r : BitVec 3) (m : Bool) (i : BitVec 7) : List Instr :=
  [.cont f r m i, .text f r m i, .bin f r m i, .op3 f r m i, .op4 f r m i, .op5 f r m i, .op6 f r m i, .op7 f r m i,
   .ping f r m i, .pong f r m i, .op11 f r m i, .op12 f r m i, .op13 f r m i, .op14 f r m i, .op15 f r m i]

/-- The sixteen opcode rows. -/
def opcodeRows (f : Bool) (r : BitVec 3) (m : Bool) (i : BitVec 7) : List Instr := .close f r m i :: genericRows f r m i

/-- The six length-form rows (30_encoding.md R72). -/
def lengthRows (f : Bool) (r : BitVec 3) (o : BitVec 4) (i : BitVec 7) : List Instr :=
  [.len7U f r o i, .len7M f r o i, .len16U f r o, .len16M f r o, .len64U f r o, .len64M f r o]

/-- The ten byte-order commands (45_byte_order.md). -/
def byteOrderCommands (b2 : Vector Byte 2) (b8 : Vector Byte 8) (v16 : BitVec 16) (v64 : BitVec 64) (little : Bool) :
    List Instr :=
  [.swap16 b2, .swap64 b8, .rdu16 b2 little, .rdi16 b2 little, .rdu64 b8 little, .rdi64 b8 little, .wru16 v16 little,
   .wri16 v16 little, .wru64 v64 little, .wri64 v64 little]

/-- The phase follows the other in the table of 10_state.md R14 (a running phase; the end of an operation). -/
def phaseFollows : Phase → Phase → Bool
  | .hdr, .ext16 => true
  | .hdr, .ext64 => true
  | .hdr, .keyrd => true
  | .hdr, .payload => true
  | .hdr, .fault => true
  | .ext16, .keyrd => true
  | .ext16, .payload => true
  | .ext16, .fault => true
  | .ext64, .keyrd => true
  | .ext64, .payload => true
  | .ext64, .fault => true
  | .keyrd, .payload => true
  | .keyrd, .fault => true
  | .payload, .unmask => true
  | .payload, .closemeta => true
  | .payload, .done => true
  | .payload, .fault => true
  | .unmask, .closemeta => true
  | .unmask, .done => true
  | .closemeta, .done => true
  | .rxrun, .done => true
  | .rxrun, .fault => true
  | _, _ => false

end Sys2Proof.Machine
end

