-- ==== Sys2Proof/Certificates/Slice0/Obligations.lean ====
section
/-! DEFINITION. The statements for the provers, from the numbered rules of spec/. A statement that names a free value
(`Config.freeKey`) or a parameter holds for every value of it. -/

open Sys2Proof Sys2Proof.Machine

/-! ### Encoding -/

/-- Decoding the word of a well-formed instruction gives it back, with every operand (30_encoding.md R61, R62, R67, R68, R72,
R78, R79; the argument lines of a command are the model's own, log 8). -/
def Obligations.DecodeOfEncodeIsTheInstruction : Prop :=
  ∀ (sizeW : Nat) (i : Instr), i.wellFormed sizeW = true → decode (encode i) = .ok i

/-- Every one of the 65536 header words is, without loss, the word of one opcode row and of one length-form row
(30_encoding.md R67, R73). -/
def Obligations.EveryHeaderWordIsOneRowOfEachClass : Prop :=
  ∀ (sizeW : Nat) (hw : HeaderWord),
    (∃ f r m i row, decode (.opcode hw) = .ok row ∧ row ∈ opcodeRows f r m i ∧ row.wellFormed sizeW = true ∧
      encode row = .opcode hw) ∧
    (∃ f r o i row, decode (.lengthForm hw) = .ok row ∧ row ∈ lengthRows f r o i ∧ row.wellFormed sizeW = true ∧
      encode row = .lengthForm hw)

/-- A few words written out from the tables of 30_encoding.md R61, R62, R68, R72 and R78, and what they stand for. -/
def Obligations.WrittenOutWordsDecode : Prop :=
  decode (.opcode 0b1000000110000101#16) = .ok (.text true 0#3 true 5#7) ∧
  decode (.lengthForm 0b1000000110000101#16) = .ok (.len7M true 0#3 1#4 5#7) ∧
  decode (.opcode 0b0000001001111110#16) = .ok (.bin false 0#3 false 126#7) ∧
  decode (.lengthForm 0b0000001001111110#16) = .ok (.len16U false 0#3 2#4) ∧
  decode (.opcode 0b1111001110000010#16) = .ok (.op3 true 7#3 true 2#7) ∧
  decode (.opcode 0b1000100001111101#16) = .ok (.close true 0#3 false 125#7) ∧
  decode (.lengthForm 0b1000100001111101#16) = .ok (.len7U true 0#3 8#4 125#7) ∧
  decode (.lengthForm 0b1111111111111111#16) = .ok (.len64M true 7#3 15#4) ∧
  decode (.command 0b0101#4 { Args.zero with b := #v[0x03#8, 0xE8#8, 0#8, 0#8, 0#8, 0#8, 0#8, 0#8] })
    = .ok (.swap16 #v[0x03#8, 0xE8#8])

/-- A command that is not accepted has no effect at all: any code while an operation runs (30_encoding.md R80), and the codes
0x0 and 0xF, and ENCODE without the encoder, at any time (R81). -/
def Obligations.CommandsNotAcceptedHaveNoEffect : Prop :=
  ∀ (s : State) (code : BitVec 4) (a : Args) (hs : List HostMove), s.host = .command code a :: hs →
    (s.phase.running = true ∨ code = 0x0#4 ∨ code = 0xF#4 ∨ (code = 0x3#4 ∧ s.params.hasEncoder = false)) →
    step s = .next { s with host := hs }

/-! ### Reset, the step, the invariant -/

/-- 10_state.md R25, 70_reset_and_hazards.md R220: what reset leaves of the block. -/
def Obligations.ResetLeavesTheBlockIdle : Prop :=
  State.reset.phase = .idle ∧ errCode State.reset.err = 0#3 ∧ State.reset.maxLen.toNat = 2147483648 ∧
  State.reset.work = Working.empty ∧ State.reset.key = KeyFile.empty ∧ State.reset.res = Results.empty ∧
  State.reset.spos = 0

/-- A reset of a machine in any state (70_reset_and_hazards.md R220, R221): the block is as after reset, and stream, payload
memory, sink, random source and CANCEL are untouched; no outcome is reported for the abandoned operation. -/
def Obligations.ResetAbandonsTheOperation : Prop :=
  ∀ (s : State) (hs : List HostMove), s.host = .reset :: hs →
    step s = .next { s with host := hs, phase := .idle, err := .none, maxLen := 2147483648#64, work := Working.empty,
                            key := KeyFile.empty, res := Results.empty, win := none }

/-- The invariant holds at reset (whatever the free parameters are, log 2). -/
def Obligations.ResetMeetsTheInvariant : Prop := Sound State.reset

/-- Every step keeps the invariant: canonical memory, a legal SIZE_W and MAX_LEN, the phase's registers written and consistent,
the frame invariants of the results (00_scope.md R4; 10_state.md R11, R12, R14, R15, R20, R22, R27; 41_frame_decoder.md
R95, R98). That they hold in IDLE what the last operation left them is the model's reading of an acknowledge (log 31). -/
def Obligations.EveryStepKeepsTheInvariant : Prop :=
  ∀ s t : State, Sound s → step s = .next t → Sound t

/-- From every state that meets the invariant no register without a value is read (10_state.md R12, R13: the step never
faults), and where the host keeps its contracts the machine takes a next state. -/
def Obligations.SoundStatesAlwaysGoOn : Prop :=
  ∀ s : State, Sound s → (∀ f, step s ≠ .fault f) ∧ (hostKeepsContracts s = true → ∃ t, step s = .next t)

/-- A presented command that decodes is run: the step is the meaning of the decoded instruction, at the state in which the
move is off the host's script. -/
def Obligations.StepRunsThePresentedCommand : Prop :=
  ∀ (s : State) (code : BitVec 4) (a : Args) (hs : List HostMove) (i : Instr), s.host = .command code a :: hs →
    decode (.command code a) = .ok i → step s = exec i { s with host := hs }

/-- The header in HB is run: as its length-form row at the end of a phase that reads the header, as its opcode row at the end
of the payload read and in UNMASK and CLOSEMETA (41_frame_decoder.md R106; log 5). -/
def Obligations.StepRunsTheRowOfTheHeader : Prop :=
  ∀ (s t : State) (hw : HeaderWord) (i : Instr), BlockMoves s t → headerBytes s.work.hb = some hw →
    ((s.phase = .hdr ∨ s.phase = .ext16 ∨ s.phase = .ext64 ∨ s.phase = .keyrd) →
      (∃ n, s.work.need = some n ∧ s.work.cnt = some n) → decode (.lengthForm hw) = .ok i → step s = exec i t) ∧
    (s.phase = .payload → (∃ n, s.work.need = some n ∧ s.work.cnt = some n) → decode (.opcode hw) = .ok i →
      step s = exec i t) ∧
    ((s.phase = .unmask ∨ s.phase = .closemeta) → decode (.opcode hw) = .ok i → step s = exec i t)

/-- The block waits in two cases, and its step then changes nothing: no operation runs (70_reset_and_hazards.md R220), or the
stream has not answered the read that is issued (44_exact_read.md R157, 70 R236: there is no timeout; an answer that has
not come is an empty script, log 11). -/
def Obligations.BlockWaitsForACommandOrAnAnswer : Prop :=
  (∀ s t : State, BlockMoves s t → s.phase.running = false → step s = .next t) ∧
  (∀ (s t : State) (n c : Nat), BlockMoves s t → s.phase.reading = true → s.work.need = some n → s.work.cnt = some c →
    c < n → s.cancel = false → s.answers = [] → step s = .next t)

/-- 10_state.md R14: the phases of an operation follow one another as the table says, none is visited twice, and there is no
backward transfer; a block in which no operation runs stays in its phase. -/
def Obligations.PhasesOnlyGoForward : Prop :=
  ∀ s u t : State, BlockMoves s u → step s = .next t → t.phase = s.phase ∨ phaseFollows s.phase t.phase = true

/-! ### The stream -/

/-- One answer of data to a read into the window (20_memory.md R41; 44_exact_read.md R151, R152): the next bytes of the
stream, at least one and at most the missing part, are stored from index CNT on; SPOS and CNT advance by their number;
every other byte of PBUF reads as before. -/
def Obligations.DeliveredBytesGoIntoTheWindow : Prop :=
  ∀ (s u : State) (w : Window) (n c : Nat) (size : Nat) (ds : List ReadDraw), BlockMoves s u → Sound s →
    (s.phase = .payload ∨ s.phase = .rxrun) → s.win = some w → s.work.need = some n → s.work.cnt = some c →
    c < n → s.cancel = false → s.answers = .data size :: ds → s.input ≠ [] →
    ∃ (k : Nat) (t : State), 1 ≤ k ∧ k ≤ n - c ∧ k ≤ s.input.length ∧ step s = .next t ∧
      t = { u with answers := ds, input := s.input.drop k, spos := s.spos + k, pbuf := t.pbuf,
                   work := { s.work with cnt := some (c + k) } } ∧
      (∀ j, j < k → some (Memory.read t.pbuf (w.base + c + j)) = s.input[j]?) ∧
      (∀ a, (a < w.base + c ∨ w.base + c + k ≤ a) →
        Memory.read t.pbuf a = Memory.read s.pbuf a)

/-- The header's bytes go into the block's own registers and never into PBUF (20_memory.md R46; 41_frame_decoder.md R91, R94,
R97): in HDR into HB, in EXT16 and EXT64 into XB, in KEYRD into KEY, from index CNT on. -/
def Obligations.HeaderBytesGoIntoRegisters : Prop :=
  ∀ (s u : State) (n c : Nat) (size : Nat) (ds : List ReadDraw), BlockMoves s u →
    (s.phase = .hdr ∨ s.phase = .ext16 ∨ s.phase = .ext64 ∨ s.phase = .keyrd) → s.work.need = some n →
    s.work.cnt = some c → c < n → s.cancel = false → s.answers = .data size :: ds → s.input ≠ [] →
    ∃ (k : Nat) (t : State), 1 ≤ k ∧ k ≤ n - c ∧ k ≤ s.input.length ∧ step s = .next t ∧
      t = { u with answers := ds, input := s.input.drop k, spos := s.spos + k, key := t.key,
                   work := { s.work with cnt := some (c + k), hb := t.work.hb, xb := t.work.xb } } ∧
      (s.phase = .hdr → t.work.xb = s.work.xb ∧ t.key = s.key ∧
        ∀ j : Fin 2, t.work.hb[j] = if c ≤ j.val ∧ j.val < c + k then s.input[j.val - c]? else s.work.hb[j]) ∧
      (s.phase = .ext16 ∨ s.phase = .ext64 → t.work.hb = s.work.hb ∧ t.key = s.key ∧
        ∀ j : Fin 8, t.work.xb[j] = if c ≤ j.val ∧ j.val < c + k then s.input[j.val - c]? else s.work.xb[j]) ∧
      (s.phase = .keyrd → t.work.hb = s.work.hb ∧ t.work.xb = s.work.xb ∧
        ∀ j : Fin 4, t.key[j] = if c ≤ j.val ∧ j.val < c + k then s.input[j.val - c]? else s.key[j])

/-- 44_exact_read.md R154: an answer of zero bytes ends the operation with UnexpectedEndOfStream; the bytes stored by earlier
answers stay, and SPOS keeps their count (60_exceptions.md R200 to R202). -/
def Obligations.EndOfStreamEndsTheOperation : Prop :=
  ∀ (s u : State) (n c : Nat) (size : Nat) (ds : List ReadDraw) (rises : Bool), BlockMoves s u →
    s.phase.reading = true → s.work.need = some n → s.work.cnt = some c → c < n → s.cancel = false →
    s.answers = (if rises then .dataAsCancelRises size else .data size) :: ds → s.input = [] →
    step s = .next { u with answers := ds, cancel := rises, err := .unexpectedEndOfStream, phase := .fault,
                            res := Results.empty, work := Working.empty, key := KeyFile.empty, win := none }

/-- 60_exceptions.md R196: (a) a read issued while CANCEL = 1 ends the operation with Cancelled, delivers nothing, and leaves
what earlier answers stored (44_exact_read.md R155); (b) a read issued while CANCEL = 0 never ends with Cancelled unless
CANCEL rises during it; (c) a read during which CANCEL rises may deliver its data or end with Cancelled. -/
def Obligations.CancelledOnlyUnderCancel : Prop :=
  (∀ (s u : State) (n c : Nat), BlockMoves s u → s.phase.reading = true → s.work.need = some n → s.work.cnt = some c →
    c < n → s.cancel = true →
    step s = .next { u with err := .cancelled, phase := .fault, res := Results.empty, work := Working.empty,
                            key := KeyFile.empty, win := none }) ∧
  (∀ s u t : State, BlockMoves s u → step s = .next t → s.err ≠ .cancelled → t.err = .cancelled →
    s.phase.reading = true ∧ t.cancel = true ∧ (s.cancel = true ∨ ∃ ds, s.answers = .cancelled :: ds) ∧
    t.input = s.input ∧ t.spos = s.spos ∧ t.pbuf = s.pbuf) ∧
  (∀ (s u : State) (n c : Nat) (size : Nat) (ds : List ReadDraw), BlockMoves s u → Sound s → s.phase.reading = true →
    s.work.need = some n → s.work.cnt = some c → c < n → s.cancel = false → s.input ≠ [] →
    (s.answers = .dataAsCancelRises size :: ds →
      ∃ t, step s = .next t ∧ t.phase = s.phase ∧ t.cancel = true ∧ s.spos < t.spos) ∧
    (s.answers = .cancelled :: ds →
      ∃ t, step s = .next t ∧ t.phase = .fault ∧ t.err = .cancelled ∧ t.cancel = true ∧ t.spos = s.spos))

/-- 10_state.md R16: SPOS advances by exactly the bytes taken from the front of the stream, nothing decreases it, and nothing
else changes the stream, but for a host that connects another one. -/
def Obligations.StreamIsConsumedInOrder : Prop :=
  ∀ s t : State, step s = .next t → (∀ bytes hs, s.host ≠ .connect bytes :: hs) →
    ∃ taken : List Byte, s.input = taken ++ t.input ∧ t.spos = s.spos + taken.length

/-- 44_exact_read.md R151, R156: a READ_EXACT of a stream that holds enough bytes, none of whose reads is cancelled, ends in
DONE whatever the sizes of the answers, after at most one step per byte and one for its end; the window holds the next
bytes of the stream in order, SPOS has advanced by exactly their number, and every other byte of PBUF reads as before. -/
def Obligations.ReadExactIsIndependentOfChunking : Prop :=
  ∀ (s : State) (n : Nat) (w : Window), Sound s → s.phase.running = false → s.host = [] → w.valid s.params.sizeW = true →
    n ≤ w.cap → s.cancel = false → (∀ d ∈ s.answers, ∃ size, d = .data size) →
    n ≤ s.answers.length → n ≤ s.input.length →
    ∃ (s0 : State) (k : Nat) (t : State), exec (.readExact n w) s = .next s0 ∧ k ≤ n + 1 ∧
      runSteps k s0 = .next t ∧ t.phase = .done ∧ t.err = .none ∧ t.spos = s.spos + n ∧
      t.input = s.input.drop n ∧
      (∀ j, j < n → some (Memory.read t.pbuf (w.base + j)) = s.input[j]?) ∧
      (∀ a, (a < w.base ∨ w.base + n ≤ a) → Memory.read t.pbuf a = Memory.read s.pbuf a)

/-! ### Length-form rows -/

/-- The 7-bit rows at the end of HDR (41_frame_decoder.md R92, R93, R95, R97 to R99, R101): the fields are extracted and LEN is
the indicator; LEN7.U begins the payload read where the window is large enough, LEN7.M the key read of exactly four bytes. A
payload read of no byte writes neither NEED nor CNT (44_exact_read.md R151). -/
def Obligations.ShortHeadersGiveTheLength : Prop :=
  ∀ (s : State) (f : Bool) (r : BitVec 3) (o : BitVec 4) (i : BitVec 7), s.phase = .hdr → i.toNat ≤ s.maxLen.toNat →
    (∀ w, s.win = some w → i.toNat ≤ w.cap → exec (.len7U f r o i) s = .next { s with
      phase := .payload,
      work := { s.work with fin := some f, opc := some o, mask := some false, ind := some i,
                            len := some (BitVec.ofNat 64 i.toNat),
                            need := if i.toNat = 0 then s.work.need else some i.toNat,
                            cnt := if i.toNat = 0 then s.work.cnt else some 0 } }) ∧
    exec (.len7M f r o i) s = .next { s with
      phase := .keyrd,
      work := { s.work with fin := some f, opc := some o, mask := some true, ind := some i,
                            len := some (BitVec.ofNat 64 i.toNat), need := some 4, cnt := some 0 } }

/-- LEN16 and LEN64 rows at the end of HDR (41_frame_decoder.md R92, R94): the fields are extracted and the read of exactly two
or exactly eight length bytes begins. -/
def Obligations.LongHeadersStartTheExtendedLength : Prop :=
  ∀ (s : State) (f : Bool) (r : BitVec 3) (o : BitVec 4) (masked : Bool), s.phase = .hdr →
    exec (if masked then .len16M f r o else .len16U f r o) s = .next { s with
      phase := .ext16,
      work := { s.work with fin := some f, opc := some o, mask := some masked, ind := some 126#7, need := some 2,
                            cnt := some 0 } } ∧
    exec (if masked then .len64M f r o else .len64U f r o) s = .next { s with
      phase := .ext64,
      work := { s.work with fin := some f, opc := some o, mask := some masked, ind := some 127#7, need := some 8,
                            cnt := some 0 } }

/-- LEN16 rows at the end of EXT16 (30_encoding.md R65; 41_frame_decoder.md R95 to R99): LEN is `256*XB[0] + XB[1]`, and the
key read or the payload read begins (one of no byte writes neither NEED nor CNT, 44_exact_read.md R151). -/
def Obligations.SixteenBitLengthIsAssembled : Prop :=
  ∀ (s : State) (f : Bool) (r : BitVec 3) (o : BitVec 4) (w : Window) (b0 b1 : Byte), s.phase = .ext16 →
    s.win = some w → s.work.xb[0] = some b0 → s.work.xb[1] = some b1 → 256 * b0.toNat + b1.toNat ≤ s.maxLen.toNat →
    (exec (.len16M f r o) s = .next { s with
      phase := .keyrd,
      work := { s.work with len := some (BitVec.ofNat 64 (256 * b0.toNat + b1.toNat)), need := some 4,
                            cnt := some 0 } }) ∧
    (256 * b0.toNat + b1.toNat ≤ w.cap → exec (.len16U f r o) s = .next { s with
      phase := .payload,
      work := { s.work with
        len := some (BitVec.ofNat 64 (256 * b0.toNat + b1.toNat)),
        need := if 256 * b0.toNat + b1.toNat = 0 then s.work.need else some (256 * b0.toNat + b1.toNat),
        cnt := if 256 * b0.toNat + b1.toNat = 0 then s.work.cnt else some 0 } })

/-- LEN64 rows at the end of EXT64 (30_encoding.md R65; 41_frame_decoder.md R95 to R99): LEN is the sum of
`XB[j] * 256^(7-j)`, and the key read or the payload read begins (one of no byte writes neither NEED nor CNT,
44_exact_read.md R151). -/
def Obligations.SixtyFourBitLengthIsAssembled : Prop :=
  ∀ (s : State) (f : Bool) (r : BitVec 3) (o : BitVec 4) (w : Window) (b : Vector Byte 8), s.phase = .ext64 →
    s.win = some w → s.work.xb = b.map some →
    let l := ∑ j : Fin 8, (b[j]).toNat * 256 ^ (7 - j.val)
    l ≤ s.maxLen.toNat →
    (exec (.len64M f r o) s = .next { s with
      phase := .keyrd,
      work := { s.work with len := some (BitVec.ofNat 64 l), need := some 4, cnt := some 0 } }) ∧
    (l ≤ w.cap → exec (.len64U f r o) s = .next { s with
      phase := .payload,
      work := { s.work with len := some (BitVec.ofNat 64 l), need := if l = 0 then s.work.need else some l,
                            cnt := if l = 0 then s.work.cnt else some 0 } })

/-- The masked rows at the end of KEYRD (41_frame_decoder.md R98, R99, R101): the window is large enough and the payload read
begins (one of no byte writes neither NEED nor CNT, 44_exact_read.md R151). -/
def Obligations.KeyKnownStartsThePayload : Prop :=
  ∀ (s : State) (f : Bool) (r : BitVec 3) (o : BitVec 4) (i : BitVec 7) (w : Window) (l : Len) (row : Instr),
    row ∈ [Instr.len7M f r o i, .len16M f r o, .len64M f r o] → s.phase = .keyrd → s.win = some w →
    s.work.len = some l → l.toNat ≤ w.cap →
    exec row s = .next { s with
      phase := .payload,
      work := { s.work with need := if l.toNat = 0 then s.work.need else some l.toNat,
                            cnt := if l.toNat = 0 then s.work.cnt else some 0 } }

/-- 41_frame_decoder.md R95, 60_exceptions.md R191: every row that assembles a LEN strictly greater than MAX_LEN ends the
operation with LengthOutOfRange, and reads nothing more: stream, memory and window are as they were. -/
def Obligations.LengthAboveTheCapFaults : Prop :=
  ∀ (s : State) (f : Bool) (r : BitVec 3) (o : BitVec 4) (i : BitVec 7) (row : Instr) (l : Nat),
    ((s.phase = .hdr ∧ row ∈ [Instr.len7U f r o i, .len7M f r o i] ∧ l = i.toNat) ∨
     (s.phase = .ext16 ∧ row ∈ [Instr.len16U f r o, .len16M f r o] ∧
        ∃ v, ext16Value s.work.xb = some v ∧ l = v.toNat) ∨
     (s.phase = .ext64 ∧ row ∈ [Instr.len64U f r o, .len64M f r o] ∧
        ∃ v, ext64Value s.work.xb = some v ∧ l = v.toNat)) →
    s.maxLen.toNat < l →
    exec row s = .next { s with phase := .fault, err := .lengthOutOfRange, res := Results.empty, work := Working.empty,
                                key := KeyFile.empty, win := none }

/-- 41_frame_decoder.md R98, 60_exceptions.md R192: a window smaller than LEN ends the operation with BufferTooSmall after the
key, if any, and before any payload byte: at the end of the length for the unmasked rows, at the end of KEYRD for the
masked rows; no byte of the window is written. -/
def Obligations.WindowTooSmallFaults : Prop :=
  ∀ (s : State) (f : Bool) (r : BitVec 3) (o : BitVec 4) (i : BitVec 7) (w : Window) (row : Instr) (l : Nat),
    ((s.phase = .hdr ∧ row = .len7U f r o i ∧ l = i.toNat ∧ l ≤ s.maxLen.toNat) ∨
     (s.phase = .ext16 ∧ row = .len16U f r o ∧ l ≤ s.maxLen.toNat ∧
        ∃ v, ext16Value s.work.xb = some v ∧ l = v.toNat) ∨
     (s.phase = .ext64 ∧ row = .len64U f r o ∧ l ≤ s.maxLen.toNat ∧
        ∃ v, ext64Value s.work.xb = some v ∧ l = v.toNat) ∨
     (s.phase = .keyrd ∧ row ∈ [Instr.len7M f r o i, .len16M f r o, .len64M f r o] ∧
        ∃ v, s.work.len = some v ∧ l = v.toNat)) →
    s.win = some w → w.cap < l →
    exec row s = .next { s with phase := .fault, err := .bufferTooSmall, res := Results.empty, work := Working.empty,
                                key := KeyFile.empty, win := none }

/-- The frame of the six length-form rows: no byte of PBUF, nothing of the stream, the sink, the random source, MAX_LEN, the
parameters or the host's script changes; ERR and the results change only when the row ends the operation; HB and XB are
kept while the operation runs (41_frame_decoder.md R90 to R99; 20_memory.md R46). -/
def Obligations.LengthRowsFrame : Prop :=
  ∀ (s t : State) (f : Bool) (r : BitVec 3) (o : BitVec 4) (i : BitVec 7) (row : Instr), row ∈ lengthRows f r o i →
    exec row s = .next t →
    (∀ a, Memory.read t.pbuf a = Memory.read s.pbuf a) ∧ t.input = s.input ∧ t.spos = s.spos ∧ t.answers = s.answers ∧
    t.cancel = s.cancel ∧ t.out = s.out ∧ t.rng = s.rng ∧ t.draws = s.draws ∧ t.maxLen = s.maxLen ∧
    t.params = s.params ∧ t.host = s.host ∧
    (t.phase ≠ .fault → t.err = s.err ∧ t.res = s.res ∧ t.key = s.key ∧ t.win = s.win ∧ t.work.hb = s.work.hb ∧
      t.work.xb = s.work.xb)

/-- 30_encoding.md R66: the reserved bits of the header change nothing: two machines that differ only in those bits of HB take
the same step, and differ afterwards at most in those bits. -/
def Obligations.ReservedBitsChangeNothing : Prop :=
  ∀ (s u t : State) (hw hw' : HeaderWord), BlockMoves s u →
    fetch s = .word (.lengthForm hw) ∨ fetch s = .word (.opcode hw) →
    hwFin hw' = hwFin hw → hwOpc hw' = hwOpc hw → hwMask hw' = hwMask hw → hwInd hw' = hwInd hw → step s = .next t →
    ∃ t', step (withHeader hw' s) = .next t' ∧ (t' = t ∨ t' = withHeader hw' t)

/-! ### Opcode rows -/

/-- The fifteen generic rows end an unmasked frame at the end of PAYLOAD (41_frame_decoder.md R104, R105; 60_exceptions.md
R206): F_FIN, F_OPC and F_PLEN are reported, F_CS_V = F_CR_V = 0, and nothing of the payload is read. -/
def Obligations.GenericRowsReportTheUnmaskedFrame : Prop :=
  ∀ (s : State) (f : Bool) (r : BitVec 3) (m : Bool) (i : BitVec 7) (row : Instr) (fin : Bool) (opc : BitVec 4) (l : Len),
    row ∈ genericRows f r m i → s.phase = .payload → s.work.mask = some false → s.work.fin = some fin →
    s.work.opc = some opc → s.work.len = some l →
    exec row s = .next { s with
      phase := .done, err := .none, work := Working.empty, key := KeyFile.empty, win := none,
      res := { Results.empty with fFin := some fin, fOpc := some opc, fPlen := some l.toNat,
                                  fCsV := some false, fCrV := some false } }

/-- The rows at the end of PAYLOAD whose frame goes on (41_frame_decoder.md R100, R106): with MASK = 1 all sixteen rows go to
UNMASK, with MASK = 0 CLOSE goes to CLOSEMETA; nothing else changes. -/
def Obligations.PayloadGoesOnToUnmaskOrCloseMeta : Prop :=
  ∀ (s : State) (f : Bool) (r : BitVec 3) (m : Bool) (i : BitVec 7), s.phase = .payload →
    (∀ row ∈ opcodeRows f r m i, s.work.mask = some true → exec row s = .next { s with phase := .unmask }) ∧
    (s.work.mask = some false → exec (.close f r m i) s = .next { s with phase := .closemeta })

/-- The rows in UNMASK (41_frame_decoder.md R100, R104, R105, R106): window byte `i` becomes `WinRead(W,i) ^ KEY[i mod 4]` for
every `i < LEN` and every other byte reads as before; the generic rows report the frame, CLOSE goes on to CLOSEMETA. -/
def Obligations.UnmaskAppliesTheKeyToThePayload : Prop :=
  ∀ (s : State) (f : Bool) (r : BitVec 3) (m : Bool) (i : BitVec 7) (row : Instr) (fin : Bool) (opc : BitVec 4) (l : Len)
    (w : Window) (k : Key),
    row ∈ opcodeRows f r m i → s.phase = .unmask → s.win = some w → s.work.fin = some fin → s.work.opc = some opc →
    s.work.len = some l → l.toNat ≤ w.cap → s.key = k.map some → s.pbuf.wf = true →
    ∃ t, exec row s = .next t ∧
      (∀ j, j < l.toNat → Memory.read t.pbuf (w.base + j)
        = Memory.read s.pbuf (w.base + j) ^^^ k[j % 4]'(Nat.mod_lt j (by decide))) ∧
      (∀ a, (a < w.base ∨ w.base + l.toNat ≤ a) → Memory.read t.pbuf a = Memory.read s.pbuf a) ∧
      (row = .close f r m i → t = { s with phase := .closemeta, pbuf := t.pbuf }) ∧
      (row ≠ .close f r m i → t = { s with
        phase := .done, err := .none, work := Working.empty, key := KeyFile.empty, win := none, pbuf := t.pbuf,
        res := { Results.empty with fFin := some fin, fOpc := some opc, fPlen := some l.toNat,
                                    fCsV := some false, fCrV := some false } })

/-- CLOSE in CLOSEMETA (41_frame_decoder.md R102, R103, R105): with two or more payload bytes the status is `256*W[0] + W[1]`
where recognised and NO_STATUS otherwise; with fewer it is NO_STATUS; a reason is reported exactly when LEN > 2, at offset
2 with length LEN - 2; the payload bytes stay in the window. -/
def Obligations.CloseReportsStatusAndReason : Prop :=
  ∀ (s : State) (f : Bool) (r : BitVec 3) (m : Bool) (i : BitVec 7) (fin : Bool) (opc : BitVec 4) (l : Len) (w : Window),
    s.phase = .closemeta → s.win = some w → s.work.fin = some fin → s.work.opc = some opc → s.work.len = some l →
    ∃ cs : StatusCode,
      (l.toNat < 2 → cs = s.params.noStatus) ∧
      (2 ≤ l.toNat → ∀ code : StatusCode,
        code.toNat = 256 * (Memory.read s.pbuf w.base).toNat + (Memory.read s.pbuf (w.base + 1)).toNat →
        cs = if code ∈ s.params.recognised then code else s.params.noStatus) ∧
      exec (.close f r m i) s = .next { s with
        phase := .done, err := .none, work := Working.empty, key := KeyFile.empty, win := none,
        res := { Results.empty with
          fFin := some fin, fOpc := some opc, fPlen := some l.toNat, fCsV := some true, fCs := some cs,
          fCrV := some (decide (2 < l.toNat)), fCrOff := if 2 < l.toNat then some 2 else none,
          fCrLen := if 2 < l.toNat then some (l.toNat - 2) else none } }

/-- The frame of the sixteen opcode rows: a byte of PBUF changes only in phase UNMASK and only among the first LEN bytes of the
window; nothing of the stream, the sink, the random source, MAX_LEN, the parameters or the host's script changes
(41_frame_decoder.md R100 to R105; 20_memory.md R45, R58). -/
def Obligations.OpcodeRowsFrame : Prop :=
  ∀ (s t : State) (f : Bool) (r : BitVec 3) (m : Bool) (i : BitVec 7) (row : Instr), row ∈ opcodeRows f r m i →
    exec row s = .next t →
    (∀ a, (∀ w l, s.phase = .unmask → s.win = some w → s.work.len = some l →
        a < w.base ∨ w.base + l.toNat ≤ a) → Memory.read t.pbuf a = Memory.read s.pbuf a) ∧
    t.input = s.input ∧ t.spos = s.spos ∧ t.answers = s.answers ∧ t.cancel = s.cancel ∧ t.out = s.out ∧ t.rng = s.rng ∧
    t.draws = s.draws ∧ t.maxLen = s.maxLen ∧ t.params = s.params ∧ t.host = s.host ∧
    (t.phase ≠ .done → t.err = s.err ∧ t.res = s.res ∧ t.key = s.key ∧ t.win = s.win ∧ t.work = s.work)

/-- 10_state.md R20 (c): a DECODE that ends successfully reports an F_PLEN that is at most MAX_LEN and at most the capacity of
its window. -/
def Obligations.ReportedLengthIsWithinItsLimits : Prop :=
  ∀ (s t : State) (w : Window) (p : Nat), Sound s → s.phase.running = true → s.win = some w → step s = .next t →
    t.phase = .done → t.res.fPlen = some p → p ≤ s.maxLen.toNat ∧ p ≤ w.cap

/-! ### The mask procedure and the payload memory -/

/-- 42_toggle_mask.md R122: applying the mask twice with the same key gives the memory back. -/
def Obligations.MaskIsAnInvolution : Prop :=
  ∀ (k : Key) (w : Window) (m : Memory) (n : Nat), m.wf = true → n ≤ w.cap →
    toggleMask k w (toggleMask k w m n) n = m

/-- 42_toggle_mask.md R123: the result does not depend on `base`: two windows with the same bytes get the same bytes. -/
def Obligations.MaskIsIndependentOfTheAddress : Prop :=
  ∀ (k : Key) (w w' : Window) (m m' : Memory) (n : Nat), m.wf = true → m'.wf = true → n ≤ w.cap →
    n ≤ w'.cap → winBytes w m n = winBytes w' m' n →
    winBytes w (toggleMask k w m n) n = winBytes w' (toggleMask k w' m' n) n

/-- 42_toggle_mask.md R125: masking a payload in two pieces, the second with the key rotated left by the length of the first,
is masking the whole. -/
def Obligations.MaskInPiecesRotatesTheKey : Prop :=
  ∀ (k : Key) (base a b : Nat) (m : Memory),
    toggleMask (Vector.ofFn fun j : Fin 4 => k[(j.val + a) % 4]'(Nat.mod_lt _ (by decide))) ⟨base + a, b⟩
      (toggleMask k ⟨base, a⟩ m a) b = toggleMask k ⟨base, a + b⟩ m (a + b)

/-- A store gives the byte it stored, leaves every other byte, and keeps the canonical form; memories in canonical form that
read the same are equal (the model's form of PBUF, log 14; 20_memory.md R44, R53). -/
def Obligations.MemoryIsCanonical : Prop :=
  (∀ (m : Memory) (a a' : Nat) (b : Byte), m.wf = true →
    (Memory.write m a b).wf = true ∧ Memory.read (Memory.write m a b) a = b ∧
    (a' ≠ a → Memory.read (Memory.write m a b) a' = Memory.read m a')) ∧
  (∀ m m' : Memory, m.wf = true → m'.wf = true → (∀ a, Memory.read m a = Memory.read m' a) → m = m')

/-- 20_memory.md R45: a step changes a byte of PBUF only in the window of the running operation, in the window given with the
command presented in this step, or where the host stores one itself. -/
def Obligations.StoresStayInTheWindow : Prop :=
  ∀ (s t : State) (a : Nat), step s = .next t → Memory.read t.pbuf a ≠ Memory.read s.pbuf a →
    (∃ w, s.phase.running = true ∧ s.win = some w ∧ w.base ≤ a ∧ a < w.base + w.cap) ∨
    (∃ code args hs, s.host = .command code args :: hs ∧ s.phase.running = false ∧ (code = 0x2#4 ∨ code = 0x3#4) ∧
      args.win.base ≤ a ∧ a < args.win.base + args.win.cap) ∨
    (∃ addr b hs, s.host = .store addr b :: hs ∧ a = addr)

/-! ### Commands -/

/-- DECODE (41_frame_decoder.md R90, R91; 30_encoding.md R80): from IDLE, DONE and FAULT alike it is accepted, ERR is cleared,
no register holds a value of an earlier operation, and the read of exactly two header bytes begins. -/
def Obligations.DecodeStartsWithTheHeader : Prop :=
  ∀ (s : State) (w : Window), s.phase.running = false → w.valid s.params.sizeW = true →
    exec (.decode w) s = .next { s with
      phase := .hdr, err := .none, res := Results.empty, key := KeyFile.empty, win := some w,
      work := { Working.empty with need := some 2, cnt := some 0 } }

/-- TOGGLE_MASK with a key of four bytes (42_toggle_mask.md R120, R121): one step to DONE in which every byte of the window is
masked and nothing else changes. -/
def Obligations.ToggleMaskMasksTheWholeWindow : Prop :=
  ∀ (s : State) (klen : Nat) (k : Key) (w : Window), s.phase.running = false → w.valid s.params.sizeW = true → klen = 4 →
    s.pbuf.wf = true →
    ∃ t, exec (.toggleMask klen k w) s = .next t ∧
      t = { s with phase := .done, err := .none, res := Results.empty, work := Working.empty, key := KeyFile.empty,
                   win := none, pbuf := t.pbuf } ∧
      (∀ i, i < w.cap → Memory.read t.pbuf (w.base + i)
        = Memory.read s.pbuf (w.base + i) ^^^ k[i % 4]'(Nat.mod_lt i (by decide))) ∧
      (∀ a, (a < w.base ∨ w.base + w.cap ≤ a) → Memory.read t.pbuf a = Memory.read s.pbuf a)

/-- 42_toggle_mask.md R124, 60_exceptions.md R193: with any other key length the command ends with InvalidMaskKeyLength and no
byte of the window is written, for an empty window too. -/
def Obligations.WrongKeyLengthTouchesNothing : Prop :=
  ∀ (s : State) (klen : Nat) (k : Key) (w : Window), s.phase.running = false → w.valid s.params.sizeW = true → klen ≠ 4 →
    exec (.toggleMask klen k w) s = .next { s with
      phase := .fault, err := .invalidMaskKeyLength, res := Results.empty, work := Working.empty, key := KeyFile.empty,
      win := none }

/-- 43_frame_encoder.md R131, R132, R133: the header bytes that ENCODE emits for a payload of `n` bytes: FIN and opcode with the
reserved bits zero, the mask bit, and the minimal length form, most significant byte first. -/
def Obligations.EncoderEmitsTheMinimalHeader : Prop :=
  ∀ (opc : BitVec 4) (fin client : Bool) (n : Nat), n < 2 ^ 64 →
    (headerBytesOf opc fin client n).map BitVec.toNat =
      ((if fin then 128 else 0) + opc.toNat) ::
      (if n < 126 then [(if client then 128 else 0) + n]
       else if n ≤ 65535 then [(if client then 128 else 0) + 126, n / 256, n % 256]
       else ((if client then 128 else 0) + 127) :: (List.range 8).map fun j => n / 256 ^ (7 - j) % 256)

/-- ENCODE for a server (43_frame_encoder.md R130, R136, R137): OUT gains the header and the payload verbatim, E_WRITTEN is HL
+ n (free where that does not fit its 64 bits, log 30), and neither the window nor the random source nor anything else
changes; that KEY is not written is shown by KEY holding no value between operations (log 4). -/
def Obligations.ServerEncodeEmitsThePayload : Prop :=
  ∀ (s : State) (opc : BitVec 4) (fin : Bool) (w : Window), s.phase.running = false → w.valid s.params.sizeW = true →
    s.params.hasEncoder = true →
    let total := (if w.cap < 126 then 2 else if w.cap ≤ 65535 then 4 else 10) + w.cap
    ∃ written : Len, (total < 2 ^ 64 → written.toNat = total) ∧
      exec (.encode opc fin false w) s = .next { s with
        phase := .done, err := .none, work := Working.empty, key := KeyFile.empty, win := none,
        out := s.out ++ headerBytesOf opc fin false w.cap
          ++ (List.range w.cap).map fun i => Memory.read s.pbuf (w.base + i),
        res := { Results.empty with eWritten := some written } }

/-- ENCODE for a client (43_frame_encoder.md R130, R135, R137): one draw of four bytes, whatever they are; OUT gains the header,
the key and the masked payload, the window is masked in place, E_WRITTEN is HL + n (free where that does not fit its 64
bits, log 30), and nothing else changes. -/
def Obligations.ClientEncodeEmitsTheMaskedPayload : Prop :=
  ∀ (s : State) (opc : BitVec 4) (fin : Bool) (w : Window), s.phase.running = false → w.valid s.params.sizeW = true →
    s.params.hasEncoder = true → s.pbuf.wf = true →
    let total := (if w.cap < 126 then 6 else if w.cap ≤ 65535 then 8 else 14) + w.cap
    ∃ (k : Key) (t : State) (written : Len), exec (.encode opc fin true w) s = .next t ∧
      (total < 2 ^ 64 → written.toNat = total) ∧
      (∀ k' ks, s.rng = k' :: ks → k = k' ∧ t.rng = ks ∧ t.draws = s.draws) ∧
      (s.rng = [] → t.rng = [] ∧ t.draws = s.draws + 1) ∧
      t = { s with
        phase := .done, err := .none, work := Working.empty, key := KeyFile.empty, win := none, pbuf := t.pbuf,
        rng := t.rng, draws := t.draws,
        out := s.out ++ headerBytesOf opc fin true w.cap ++ k.toList
          ++ (List.range w.cap).map fun i =>
            Memory.read s.pbuf (w.base + i) ^^^ k[i % 4]'(Nat.mod_lt i (by decide)),
        res := { Results.empty with eWritten := some written } } ∧
      (∀ i, i < w.cap → Memory.read t.pbuf (w.base + i)
        = Memory.read s.pbuf (w.base + i) ^^^ k[i % 4]'(Nat.mod_lt i (by decide))) ∧
      (∀ a, (a < w.base ∨ w.base + w.cap ≤ a) → Memory.read t.pbuf a = Memory.read s.pbuf a)

/-- READ_EXACT at issue (44_exact_read.md R150, R151, R153; 60_exceptions.md R206): a length of 0 is done at once, with any
window, without a read and without a look at CANCEL (in the step of the issue, log 19); a window smaller than the length
ends the command with BufferTooSmall before any stream I/O; otherwise the read begins. -/
def Obligations.ReadExactChecksTheWindowFirst : Prop :=
  ∀ (s : State) (n : Nat) (w : Window), s.phase.running = false → w.valid s.params.sizeW = true →
    (n = 0 → exec (.readExact n w) s = .next { s with
      phase := .done, err := .none, res := Results.empty, work := Working.empty, key := KeyFile.empty,
      win := none }) ∧
    (n ≠ 0 → n ≤ w.cap → exec (.readExact n w) s = .next { s with
      phase := .rxrun, err := .none, res := Results.empty, key := KeyFile.empty, win := some w,
      work := { Working.empty with need := some n, cnt := some 0 } }) ∧
    (n ≠ 0 → w.cap < n → exec (.readExact n w) s = .next { s with
      phase := .fault, err := .bufferTooSmall, res := Results.empty, work := Working.empty, key := KeyFile.empty,
      win := none })

/-- The end of a READ_EXACT (44_exact_read.md R150, R151; 60_exceptions.md R206): when CNT = NEED the operation is done, without
a read and without a look at CANCEL. -/
def Obligations.ReadExactEndsWhenFilled : Prop :=
  ∀ (s u : State) (n : Nat), BlockMoves s u → s.phase = .rxrun → s.work.need = some n → s.work.cnt = some n →
    step s = .next { u with phase := .done, err := .none, res := Results.empty, work := Working.empty,
                            key := KeyFile.empty, win := none }

/-- Where the model stops by name. A command that would be accepted and whose window is none (20_memory.md R44, 93 U22 `refuse`;
log 9); a header row in a phase in which the sequencer never runs it (10_state.md R14; log 7); a host that connects a
stream, or stores into the window, while an operation runs (93 U14, U15; log 17). A register of 10_state.md R11, R17 or R18
that the running operation would read and that holds no value (R12: "A model gives such a register no value (an option
type or a fault on read), never zero"; 93 U11 `fault`): noValue, with its name; no sound state is such a state (the
statement SoundStatesAlwaysGoOn). -/
def Obligations.StopsAreNamed : Prop :=
  (∀ (s : State) (w : Window) (klen n : Nat) (k : Key) (opc : BitVec 4) (fin client : Bool), s.phase.running = false →
    w.valid s.params.sizeW = false →
    exec (.decode w) s = .refused .notAWindow ∧ exec (.toggleMask klen k w) s = .refused .notAWindow ∧
    (s.params.hasEncoder = true → exec (.encode opc fin client w) s = .refused .notAWindow) ∧
    exec (.readExact n w) s = .refused .notAWindow) ∧
  (∀ (s : State) (f : Bool) (r : BitVec 3) (o : BitVec 4) (m : Bool) (i : BitVec 7),
    (s.phase ∈ [Phase.idle, .payload, .unmask, .closemeta, .rxrun, .done, .fault] →
      ∀ row ∈ lengthRows f r o i, exec row s = .refused .notItsPhase) ∧
    (s.phase = .keyrd → ∀ row ∈ [Instr.len7U f r o i, .len16U f r o, .len64U f r o],
      exec row s = .refused .notItsPhase) ∧
    (s.phase = .ext16 → ∀ row ∈ [Instr.len7U f r o i, .len7M f r o i, .len64U f r o, .len64M f r o],
      exec row s = .refused .notItsPhase) ∧
    (s.phase = .ext64 → ∀ row ∈ [Instr.len7U f r o i, .len7M f r o i, .len16U f r o, .len16M f r o],
      exec row s = .refused .notItsPhase) ∧
    (s.phase ∈ [Phase.idle, .hdr, .ext16, .ext64, .keyrd, .rxrun, .done, .fault] →
      ∀ row ∈ opcodeRows f r m i, exec row s = .refused .notItsPhase) ∧
    (s.phase = .closemeta → ∀ row ∈ genericRows f r m i, exec row s = .refused .notItsPhase)) ∧
  (∀ (s : State) (bytes : List Byte) (hs : List HostMove), s.host = .connect bytes :: hs → s.phase.running = true →
    step s = .refused .streamInUse) ∧
  (∀ (s : State) (addr : Nat) (b : Byte) (hs : List HostMove), s.host = .store addr b :: hs →
    2 ^ s.params.sizeW ≤ addr → step s = .refused .noSuchAddress) ∧
  (∀ (s : State) (w : Window) (addr : Nat) (b : Byte) (hs : List HostMove), s.host = .store addr b :: hs →
    addr < 2 ^ s.params.sizeW → s.phase.running = true → s.win = some w → w.base ≤ addr → addr < w.base + w.cap →
    step s = .refused .windowInUse) ∧
  (∀ s t : State, BlockMoves s t →
    (s.phase.reading = true → s.work.need = none → step s = .fault (.noValue .need)) ∧
    (s.phase.reading = true → s.work.need ≠ none → s.work.cnt = none → step s = .fault (.noValue .cnt)) ∧
    (s.phase.reading = true → s.phase ≠ .rxrun → (∃ n, s.work.need = some n ∧ s.work.cnt = some n) →
      headerBytes s.work.hb = none → step s = .fault (.noValue .hb)) ∧
    (s.phase = .unmask ∨ s.phase = .closemeta → headerBytes s.work.hb = none → step s = .fault (.noValue .hb))) ∧
  (∀ (s : State) (f : Bool) (r : BitVec 3) (o : BitVec 4) (m : Bool) (i : BitVec 7) (row : Instr),
    (s.phase = .ext16 → ext16Value s.work.xb = none → row ∈ [Instr.len16U f r o, .len16M f r o] →
      exec row s = .fault (.noValue .xb)) ∧
    (s.phase = .ext64 → ext64Value s.work.xb = none → row ∈ [Instr.len64U f r o, .len64M f r o] →
      exec row s = .fault (.noValue .xb)) ∧
    (s.phase = .keyrd → s.work.len = none → row ∈ [Instr.len7M f r o i, .len16M f r o, .len64M f r o] →
      exec row s = .fault (.noValue .len)) ∧
    (s.phase = .payload → s.work.mask = none → row ∈ opcodeRows f r m i → exec row s = .fault (.noValue .mask)) ∧
    (s.phase = .unmask → keyBytes s.key = none → row ∈ opcodeRows f r m i → exec row s = .fault (.noValue .key)) ∧
    (s.phase = .unmask → keyBytes s.key ≠ none → s.work.len = none → row ∈ opcodeRows f r m i →
      exec row s = .fault (.noValue .len)) ∧
    (s.phase = .closemeta → s.work.len = none → row = .close f r m i → exec row s = .fault (.noValue .len)) ∧
    ((s.phase = .payload ∧ s.work.mask = some false ∧ row ∈ genericRows f r m i) ∨
      (s.phase = .unmask ∧ keyBytes s.key ≠ none ∧ s.work.len ≠ none ∧ row ∈ genericRows f r m i) ∨
      (s.phase = .closemeta ∧ s.work.len ≠ none ∧ row = .close f r m i) →
      (s.work.fin = none → exec row s = .fault (.noValue .fin)) ∧
      (s.work.fin ≠ none → s.work.opc = none → exec row s = .fault (.noValue .opc)) ∧
      (s.work.fin ≠ none → s.work.opc ≠ none → s.work.len = none → exec row s = .fault (.noValue .len))))

/-- 60_exceptions.md R197: the commands that issue no read ignore CANCEL entirely: their effect is the same whatever its
level. -/
def Obligations.CommandsWithoutReadsIgnoreCancel : Prop :=
  ∀ (s t : State) (level : Bool) (klen : Nat) (k : Key) (w : Window) (opc : BitVec 4) (fin client : Bool)
    (b2 : Vector Byte 2) (b8 : Vector Byte 8) (v16 : BitVec 16) (v64 : BitVec 64) (little : Bool) (i : Instr),
    i ∈ [Instr.toggleMask klen k w, .encode opc fin client w, .readExact 0 w]
      ++ byteOrderCommands b2 b8 v16 v64 little →
    exec i s = .next t → exec i { s with cancel := level } = .next { t with cancel := level }

/-! ### Byte order -/

/-- SWAP16 and SWAP64 (45_byte_order.md R168, R169): the bytes in the other order, in B_OUT; nothing else changes. -/
def Obligations.SwapsReverseTheBytes : Prop :=
  ∀ (s : State) (b2 : Vector Byte 2) (b8 : Vector Byte 8), s.phase.running = false →
    exec (.swap16 b2) s = .next { s with
      phase := .done, err := .none, work := Working.empty, key := KeyFile.empty, win := none,
      res := { Results.empty with bOut := some (.bytes2 b2.reverse) } } ∧
    exec (.swap64 b8) s = .next { s with
      phase := .done, err := .none, work := Working.empty, key := KeyFile.empty, win := none,
      res := { Results.empty with bOut := some (.bytes8 b8.reverse) } }

/-- RDU16 and RDI16 (45_byte_order.md R166, R170, R172, R173, R180; the signed form
rests on 93 G2, log 21): the unsigned value in the given order, and the signed value
of the same bits, in B_OUT; nothing else changes. -/
def Obligations.SixteenBitReadsGiveTheValue : Prop :=
  ∀ (s : State) (b : Vector Byte 2) (little : Bool), s.phase.running = false →
    ∃ v i : BitVec 16,
      v.toNat = (if little then (b[0]).toNat + 256 * (b[1]).toNat else 256 * (b[0]).toNat + (b[1]).toNat) ∧
      i.toInt = (if v.toNat ≥ 32768 then (v.toNat : Int) - 65536 else (v.toNat : Int)) ∧
      exec (.rdu16 b little) s = .next { s with
        phase := .done, err := .none, work := Working.empty, key := KeyFile.empty, win := none,
        res := { Results.empty with bOut := some (.value16 v) } } ∧
      exec (.rdi16 b little) s = .next { s with
        phase := .done, err := .none, work := Working.empty, key := KeyFile.empty, win := none,
        res := { Results.empty with bOut := some (.value16 i) } }

/-- RDU64 and RDI64 (45_byte_order.md R166, R171, R174, R175, R181; the signed form rests on 93 G2, log 21). -/
def Obligations.SixtyFourBitReadsGiveTheValue : Prop :=
  ∀ (s : State) (b : Vector Byte 8) (little : Bool), s.phase.running = false →
    ∃ v i : BitVec 64,
      v.toNat = (if little then ∑ j : Fin 8, (b[j]).toNat * 256 ^ j.val
                 else ∑ j : Fin 8, (b[j]).toNat * 256 ^ (7 - j.val)) ∧
      i.toInt = (if v.toNat ≥ 2 ^ 63 then (v.toNat : Int) - 2 ^ 64 else (v.toNat : Int)) ∧
      exec (.rdu64 b little) s = .next { s with
        phase := .done, err := .none, work := Working.empty, key := KeyFile.empty, win := none,
        res := { Results.empty with bOut := some (.value64 v) } } ∧
      exec (.rdi64 b little) s = .next { s with
        phase := .done, err := .none, work := Working.empty, key := KeyFile.empty, win := none,
        res := { Results.empty with bOut := some (.value64 i) } }

/-- WRU16 and WRI16 (45_byte_order.md R166, R176, R177; the signed form rests
on 93 G2, log 21): the two bytes of the value in the given order; the signed form writes
the bytes of the value in two's complement, which are those of the same 16 bits. -/
def Obligations.SixteenBitWritesGiveTheBytes : Prop :=
  ∀ (s : State) (v : BitVec 16) (little : Bool) (i : Instr), s.phase.running = false →
    i ∈ [Instr.wru16 v little, .wri16 v little] →
    ∃ b : Vector Byte 2,
      (b[0]).toNat = (if little then v.toNat % 256 else v.toNat / 256) ∧
      (b[1]).toNat = (if little then v.toNat / 256 else v.toNat % 256) ∧
      exec i s = .next { s with
        phase := .done, err := .none, work := Working.empty, key := KeyFile.empty, win := none,
        res := { Results.empty with bOut := some (.bytes2 b) } }

/-- WRU64 and WRI64 (45_byte_order.md R166, R178, R179; the signed form rests
on 93 G2, log 21): byte `j` of the value, counted from the least significant, stands at
place `j` in little-endian order and at place `7 - j` in big-endian order. -/
def Obligations.SixtyFourBitWritesGiveTheBytes : Prop :=
  ∀ (s : State) (v : BitVec 64) (little : Bool) (i : Instr), s.phase.running = false →
    i ∈ [Instr.wru64 v little, .wri64 v little] →
    ∃ b : Vector Byte 8,
      (∀ j : Fin 8, (b[j]).toNat = v.toNat / 256 ^ (if little then j.val else 7 - j.val) % 256) ∧
      exec i s = .next { s with
        phase := .done, err := .none, work := Working.empty, key := KeyFile.empty, win := none,
        res := { Results.empty with bOut := some (.bytes8 b) } }

/-- 45_byte_order.md R182, (a) to (d), for both widths and both orders; what (b) and (d) say of signed values rests on two's
complement (93 G2, log 21). -/
def Obligations.ConvertersObeyTheirLaws : Prop :=
  (∀ (v : BitVec 16) (b : Vector Byte 2) (e : Bool),
    readU16 (writeU16 v e) e = v ∧ writeU16 (readU16 b e) e = b ∧
    readI16 (writeI16 v.toInt e) e = v.toInt ∧ writeI16 (readI16 b e) e = b ∧
    writeU16 v false = swapBytes2 (writeU16 v true) ∧ readU16 b false = readU16 (swapBytes2 b) true ∧
    BitVec.ofInt 16 (readI16 b e) = readU16 b e) ∧
  (∀ (v : BitVec 64) (b : Vector Byte 8) (e : Bool),
    readU64 (writeU64 v e) e = v ∧ writeU64 (readU64 b e) e = b ∧
    readI64 (writeI64 v.toInt e) e = v.toInt ∧ writeI64 (readI64 b e) e = b ∧
    writeU64 v false = swapBytes8 (writeU64 v true) ∧ readU64 b false = readU64 (swapBytes8 b) true ∧
    BitVec.ofInt 64 (readI64 b e) = readU64 b e)

/-! ### The host's other moves -/

/-- 10_state.md R22: a write of MAX_LEN takes effect between operations and for a legal value, and is refused, the register
keeping its old value, for a larger one and while an operation runs. -/
def Obligations.MaxLenWriteIsChecked : Prop :=
  ∀ (s : State) (v : Len) (hs : List HostMove), s.host = .writeMaxLen v :: hs →
    step s = .next { s with host := hs,
                            maxLen := if s.phase.running = false ∧ v.toNat ≤ 2 ^ s.params.sizeW - 1 then v else s.maxLen }

/-- Only a write of MAX_LEN between operations and a reset change MAX_LEN; no step changes the parameters (10_state.md R13, R22;
00_scope.md R4). -/
def Obligations.ConfigurationChangesOnlyByTheHost : Prop :=
  ∀ s t : State, step s = .next t → t.params = s.params ∧
    (t.maxLen = s.maxLen ∨ (∃ v hs, s.host = .writeMaxLen v :: hs ∧ s.phase.running = false ∧ t.maxLen = v) ∨
      (∃ hs, s.host = .reset :: hs ∧ t.maxLen = 2147483648#64))

/-- 60_exceptions.md R205, 10_state.md R14: an acknowledge takes DONE and FAULT to IDLE, the results lose their value with that
(they are valid in DONE only, and none in IDLE), and nothing is restored; the result registers themselves keep what they
hold (R13, R27, R28). That R205 speaks of the results' validity and R13, R27 and R28 of the registers, and that ERR keeps
its code, are the model's readings (log 31, 24). The result registers are written where an operation ends successfully, and
then change only when the next command is issued, or in a reset (R25); while an operation runs, and where ERR holds the code
of a fault, none holds a value. -/
def Obligations.AcknowledgeAndWhenTheResultsChange : Prop :=
  (∀ (s : State) (hs : List HostMove), s.host = .ack :: hs → (s.phase = .done ∨ s.phase = .fault) →
    ∃ t, step s = .next t ∧ t = { s with host := hs, phase := .idle } ∧ t.results = none ∧
      (s.phase = .done → s.results = some t.res)) ∧
  (∀ s t : State, Sound s → step s = .next t → t.res ≠ s.res →
    (s.phase.running = true ∧ t.phase = .done ∧ t.err = .none) ∨
    (s.phase.running = false ∧ ∃ code a hs, s.host = .command code a :: hs) ∨ (∃ hs, s.host = .reset :: hs)) ∧
  (∀ s : State, Sound s → (s.phase.running = true ∨ s.phase = .fault ∨ s.err ≠ .none) → s.res = Results.empty)

/-! ### The whole block -/

/-- 43_frame_encoder.md R139: for every opcode, final flag, client flag, key draw and payload within the decoder's cap, the bytes
that ENCODE appended, fed to a DECODE whose window is large enough, in answers of any size, give back opcode, final flag,
length and the payload as it was before ENCODE masked it, and exactly those bytes are consumed, whose number E_WRITTEN holds
where it fits its 64 bits (log 30). -/
def Obligations.EncodedFrameDecodesToItsPayload : Prop :=
  ∀ (e t : State) (opc : BitVec 4) (fin client : Bool) (src : Window), Sound e → e.phase.running = false →
    e.params.hasEncoder = true → src.valid e.params.sizeW = true → exec (.encode opc fin client src) e = .next t →
    ∀ (s : State) (dst : Window) (rest : List Byte), Sound s → s.phase.running = false → s.host = [] → s.cancel = false →
      dst.valid s.params.sizeW = true → src.cap ≤ dst.cap → src.cap ≤ s.maxLen.toNat →
      (∀ d ∈ s.answers, ∃ size, d = .data size) → t.out.length ≤ e.out.length + s.answers.length →
      s.input = t.out.drop e.out.length ++ rest →
      ∃ (s0 : State) (n : Nat) (u : State) (written : Len), exec (.decode dst) s = .next s0 ∧
        runSteps n s0 = .next u ∧ u.phase = .done ∧ u.err = .none ∧ u.res.fOpc = some opc ∧
        u.res.fFin = some fin ∧ u.res.fPlen = some src.cap ∧
        (∀ i, i < src.cap →
          Memory.read u.pbuf (dst.base + i) = Memory.read e.pbuf (src.base + i)) ∧
        u.input = rest ∧ u.spos = s.spos + (t.out.length - e.out.length) ∧ t.res.eWritten = some written ∧
        (t.out.length - e.out.length < 2 ^ 64 → written.toNat = t.out.length - e.out.length)

/-- In a state that meets the invariant every size has `SIZE_W` bits, for every value of that parameter (00_scope.md R4; 10_state.md
R11, R15, R19; 20_memory.md R44): NEED, CNT, F_PLEN, F_CR_OFF, F_CR_LEN, and the base and the capacity of the sampled window. -/
def Obligations.SizesHaveTheWidthOfTheParameter : Prop :=
  ∀ (s : State) (n : Nat), Sound s →
    (s.work.need = some n ∨ s.work.cnt = some n ∨ s.res.fPlen = some n ∨ s.res.fCrOff = some n ∨ s.res.fCrLen = some n ∨
      ∃ w, s.win = some w ∧ (n = w.base ∨ n = w.cap)) →
    n < 2 ^ s.params.sizeW
end

