-- ==== Sys2Proof/Laws/Decode.lean ====
section
/-! SUPPORT. The bits of a header word (30_encoding.md R61, R62, R67). -/

namespace Sys2Proof

/-- Each bit of a header word is the bit of one field. -/
theorem makeHeader_bit (fin : Bool) (rsv : BitVec 3) (opc : BitVec 4) (mask : Bool) (ind : BitVec 7) (k : Nat) :
    (makeHeader fin rsv opc mask ind).getLsbD k =
      if k < 7 then ind.getLsbD k else if k = 7 then mask else if k < 12 then opc.getLsbD (k - 8)
      else if k < 15 then rsv.getLsbD (k - 12) else (decide (k = 15) && fin) := by
  show (BitVec.ofBool fin ++ rsv ++ opc ++ BitVec.ofBool mask ++ ind : BitVec (1 + 3 + 4 + 1 + 7)).getLsbD k = _
  simp only [BitVec.getLsbD_append, BitVec.getLsbD_ofBool]
  by_cases h : k = 15
  · subst h; simp
  · by_cases h' : k = 7
    · subst h'; simp
    · have h15 : k < 15 ∨ ¬ (k - 15 = 0) := by omega
      grind

theorem headerWordOf_bit (b0 b1 : Byte) (k : Nat) :
    (headerWordOf b0 b1).getLsbD k = if k < 8 then b1.getLsbD k else b0.getLsbD (k - 8) := by
  show (b0 ++ b1 : BitVec (8 + 8)).getLsbD k = _
  exact BitVec.getLsbD_append

@[simp] theorem headerWordOf_bytes (hw : HeaderWord) : headerWordOf (hwByte0 hw) (hwByte1 hw) = hw := by
  apply BitVec.eq_of_getLsbD_eq
  intro k hk
  simp only [headerWordOf_bit, hwByte0, hwByte1, BitVec.getLsbD_extractLsb']
  grind

end Sys2Proof
end

