-- ==== Sys2Proof/Laws/Memory.lean ====
section
/-! SUPPORT. Laws of the payload memory, its windows and the mask procedure. -/

namespace Sys2Proof.Machine

/-! ### One byte -/

theorem Memory.read_write_ne (m : Memory) {a a' : Nat} (b : Byte) (h : a' ≠ a) :
    Memory.read (Memory.write m a b) a' = Memory.read m a' := by
  induction m with
  | nil => unfold Memory.write; split <;> simp [Memory.read, h]
  | cons c m ih =>
    obtain ⟨x, v⟩ := c
    unfold Memory.write
    split
    · split <;> simp [Memory.read, h]
    · split
      · subst_vars
        split <;> simp [Memory.read, h]
      · simp only [Memory.read, ih]

theorem Memory.read_below (m : Memory) {lo a : Nat} (h : Memory.wfAbove lo m = true) (ha : a < lo) :
    Memory.read m a = unlisted := by
  induction m generalizing lo with
  | nil => rfl
  | cons c m ih =>
    obtain ⟨x, v⟩ := c
    simp only [Memory.wfAbove, Bool.and_eq_true, decide_eq_true_eq] at h
    have hne : a ≠ x := by omega
    simp only [Memory.read, hne, if_false]
    exact ih h.2 (by omega)

theorem Memory.wfAbove_mono (m : Memory) {lo lo' : Nat} (h : Memory.wfAbove lo m = true) (hl : lo' ≤ lo) :
    Memory.wfAbove lo' m = true := by
  cases m with
  | nil => rfl
  | cons c m =>
    obtain ⟨x, v⟩ := c
    simp only [Memory.wfAbove, Bool.and_eq_true, decide_eq_true_eq] at h ⊢
    exact ⟨⟨by omega, h.1.2⟩, h.2⟩

theorem Memory.read_write_self (m : Memory) {lo : Nat} (a : Nat) (b : Byte) (h : Memory.wfAbove lo m = true) :
    Memory.read (Memory.write m a b) a = b := by
  induction m generalizing lo with
  | nil => unfold Memory.write; split <;> simp_all [Memory.read]
  | cons c m ih =>
    obtain ⟨x, v⟩ := c
    have hw := h
    simp only [Memory.wfAbove, Bool.and_eq_true, decide_eq_true_eq] at h
    unfold Memory.write
    split
    · next hlt =>
      split
      · next hb =>
        have hne : a ≠ x := by omega
        simp only [Memory.read, hne, if_false, hb]
        exact Memory.read_below m h.2 (by omega)
      · simp [Memory.read]
    · split
      · next hx =>
        split
        · next hb => rw [hb]; exact Memory.read_below m h.2 (by omega)
        · simp [Memory.read]
      · next hx =>
        simp only [Memory.read, hx, if_false]
        exact ih h.2

theorem Memory.write_wfAbove (m : Memory) {lo a : Nat} (b : Byte) (h : Memory.wfAbove lo m = true) (ha : lo ≤ a) :
    Memory.wfAbove lo (Memory.write m a b) = true := by
  induction m generalizing lo with
  | nil => unfold Memory.write; split <;> simp_all [Memory.wfAbove]
  | cons c m ih =>
    obtain ⟨x, v⟩ := c
    have hw := h
    simp only [Memory.wfAbove, Bool.and_eq_true, decide_eq_true_eq] at h
    unfold Memory.write
    split
    · next hlt =>
      split
      · exact hw
      · next hb =>
        simp only [Memory.wfAbove, Bool.and_eq_true, decide_eq_true_eq]
        exact ⟨⟨ha, hb⟩, ⟨by omega, h.1.2⟩, h.2⟩
    · split
      · next hx =>
        split
        · exact Memory.wfAbove_mono m h.2 (by omega)
        · next hb =>
          simp only [Memory.wfAbove, Bool.and_eq_true, decide_eq_true_eq]
          exact ⟨⟨ha, hb⟩, by rw [hx]; exact h.2⟩
      · next hx =>
        simp only [Memory.wfAbove, Bool.and_eq_true, decide_eq_true_eq]
        exact ⟨h.1, ih h.2 (by omega)⟩

/-- A store keeps the canonical form. -/
theorem Memory.write_wf (m : Memory) (a : Nat) (b : Byte) (h : m.wf = true) : (Memory.write m a b).wf = true :=
  Memory.write_wfAbove m b h (Nat.zero_le a)

/-- A store to an address of `PBUF` keeps every listed address within it. -/
theorem Memory.write_inSpace {sw : Nat} (m : Memory) {a : Nat} (b : Byte) (h : m.inSpace sw = true) (ha : a < Config.sizeRange sw) :
    (Memory.write m a b).inSpace sw = true := by
  induction m with
  | nil => unfold Memory.write; split <;> simp_all [Memory.inSpace]
  | cons c m ih =>
    obtain ⟨x, v⟩ := c
    have hc : x < Config.sizeRange sw ∧ Memory.inSpace sw m = true := by
      simpa only [Memory.inSpace, List.all_cons, Bool.and_eq_true, decide_eq_true_eq] using h
    have hcons : ∀ (y : Nat) (u : Byte) (l : Memory), y < Config.sizeRange sw → Memory.inSpace sw l = true →
        Memory.inSpace sw ((y, u) :: l) = true := by
      intro y u l hy hl
      simpa only [Memory.inSpace, List.all_cons, Bool.and_eq_true, decide_eq_true_eq] using And.intro hy hl
    unfold Memory.write
    split
    · split
      · exact h
      · exact hcons _ _ _ ha h
    · split
      · split
        · exact hc.2
        · exact hcons _ _ _ ha hc.2
      · exact hcons _ _ _ hc.1 (ih hc.2)

/-! ### Windows -/

/-- The sizes of a window, and its end, are within the size type. -/
theorem Window.valid_bounds {sw : Nat} {w : Window} (h : w.valid sw = true) :
    w.base < Config.sizeRange sw ∧ w.cap < Config.sizeRange sw ∧ w.base + w.cap ≤ Config.sizeRange sw := by
  simpa [Window.valid, fitsSize, and_assoc] using h

/-- The address is none of the window's. -/
def outside (w : Window) (a : Nat) : Prop := a < w.base ∨ w.base + w.cap ≤ a

theorem winWrite_read_ne (w : Window) (m : Memory) (i : Nat) (b : Byte) {a : Nat} (h : a ≠ w.base + i) :
    Memory.read (winWrite w m i b) a = Memory.read m a := by
  unfold winWrite
  split
  · exact Memory.read_write_ne m b h
  · rfl

theorem winWrite_read_outside (w : Window) (m : Memory) (i : Nat) (b : Byte) {a : Nat} (h : outside w a) :
    Memory.read (winWrite w m i b) a = Memory.read m a := by
  unfold winWrite outside at *
  split
  · exact Memory.read_write_ne m b (by omega)
  · rfl

theorem winWrite_wf (w : Window) (m : Memory) (i : Nat) (b : Byte) (h : m.wf = true) : (winWrite w m i b).wf = true := by
  unfold winWrite
  split
  · exact Memory.write_wf m _ b h
  · exact h

theorem winWrite_inSpace {sw : Nat} (w : Window) (m : Memory) (i : Nat) (b : Byte) (hw : w.valid sw = true) (h : m.inSpace sw = true) :
    (winWrite w m i b).inSpace sw = true := by
  unfold winWrite
  have hb := Window.valid_bounds hw
  split
  · exact Memory.write_inSpace m b h (by omega)
  · exact h

theorem winRead_winWrite_self (w : Window) (m : Memory) (i : Nat) (b : Byte) (h : m.wf = true) (hi : i < w.cap) :
    winRead w (winWrite w m i b) i = b := by
  simp only [winRead, winWrite, hi, if_true]
  exact Memory.read_write_self m _ b h

theorem winRead_winWrite_ne (w : Window) (m : Memory) {i j : Nat} (b : Byte) (h : j ≠ i) :
    winRead w (winWrite w m i b) j = winRead w m j :=
  winWrite_read_ne w m i b (by omega)

/-! ### A run of bytes -/

theorem winWriteAll_wf (w : Window) (m : Memory) (i : Nat) (bs : List Byte) (h : m.wf = true) :
    (winWriteAll w m i bs).wf = true := by
  induction bs generalizing m i with
  | nil => exact h
  | cons b bs ih => exact ih _ _ (winWrite_wf w m i b h)

theorem winWriteAll_inSpace {sw : Nat} (w : Window) (m : Memory) (i : Nat) (bs : List Byte) (hw : w.valid sw = true)
    (h : m.inSpace sw = true) : (winWriteAll w m i bs).inSpace sw = true := by
  induction bs generalizing m i with
  | nil => exact h
  | cons b bs ih => exact ih _ _ (winWrite_inSpace w m i b hw h)

theorem winWriteAll_read_outside (w : Window) (m : Memory) (i : Nat) (bs : List Byte) {a : Nat} (h : outside w a) :
    Memory.read (winWriteAll w m i bs) a = Memory.read m a := by
  induction bs generalizing m i with
  | nil => rfl
  | cons b bs ih => exact (ih _ _).trans (winWrite_read_outside w m i b h)

/-- A byte outside the run `i .. i+|bs|-1` of the window reads as before. -/
theorem winWriteAll_read_frame (w : Window) (m : Memory) (i : Nat) (bs : List Byte) {a : Nat}
    (h : a < w.base + i ∨ w.base + i + bs.length ≤ a) :
    Memory.read (winWriteAll w m i bs) a = Memory.read m a := by
  induction bs generalizing m i with
  | nil => rfl
  | cons b bs ih =>
    simp only [List.length_cons] at h
    exact (ih _ _ (by omega)).trans (winWrite_read_ne w m i b (by omega))

/-- The byte at index `i + j` is `bs[j]`. -/
theorem winWriteAll_read_run (w : Window) (m : Memory) (i : Nat) (bs : List Byte) (hm : m.wf = true)
    (hfit : i + bs.length ≤ w.cap) {j : Nat} (hj : j < bs.length) :
    winRead w (winWriteAll w m i bs) (i + j) = bs[j] := by
  induction bs generalizing m i j with
  | nil => simp at hj
  | cons b bs ih =>
    simp only [List.length_cons] at hj hfit
    cases j with
    | zero =>
      have hf := winWriteAll_read_frame w (winWrite w m i b) (i + 1) bs (a := w.base + (i + 0)) (by omega)
      simp only [winWriteAll, winRead, hf, List.getElem_cons_zero]
      exact winRead_winWrite_self w m i b hm (by omega)
    | succ j =>
      have := ih (winWrite w m i b) (i + 1) (winWrite_wf w m i b hm) (by omega) (j := j) (by omega)
      simp only [winWriteAll, List.getElem_cons_succ]
      rw [← this]
      congr 1
      omega

/-- Two runs written one after the other are one run. -/
theorem winWriteAll_append (w : Window) (m : Memory) (i : Nat) (bs cs : List Byte) :
    winWriteAll w m i (bs ++ cs) = winWriteAll w (winWriteAll w m i bs) (i + bs.length) cs := by
  induction bs generalizing m i with
  | nil => rfl
  | cons b bs ih =>
    simp only [List.cons_append, winWriteAll, List.length_cons, ih]
    congr 1
    omega

/-! ### The mask procedure -/

theorem toggleMask_wf (k : Key) (w : Window) (m : Memory) (n : Nat) (h : m.wf = true) : (toggleMask k w m n).wf = true := by
  induction n with
  | zero => exact h
  | succ n ih => exact winWrite_wf w _ n _ ih

theorem toggleMask_inSpace {sw : Nat} (k : Key) (w : Window) (m : Memory) (n : Nat) (hw : w.valid sw = true) (h : m.inSpace sw = true) :
    (toggleMask k w m n).inSpace sw = true := by
  induction n with
  | zero => exact h
  | succ n ih => exact winWrite_inSpace w _ n _ hw ih

/-- A byte that is none of the first `n` of the window reads as before. -/
theorem toggleMask_read_frame (k : Key) (w : Window) (m : Memory) (n : Nat) {a : Nat}
    (h : a < w.base ∨ w.base + n ≤ a) : Memory.read (toggleMask k w m n) a = Memory.read m a := by
  induction n with
  | zero => rfl
  | succ n ih => exact (winWrite_read_ne w _ n _ (by omega)).trans (ih (by omega))

theorem toggleMask_read_outside (k : Key) (w : Window) (m : Memory) (n : Nat) {a : Nat} (h : outside w a) :
    Memory.read (toggleMask k w m n) a = Memory.read m a := by
  induction n with
  | zero => rfl
  | succ n ih => exact (winWrite_read_outside w _ n _ h).trans ih

end Sys2Proof.Machine
end

