-- ==== Sys2Proof/Laws/Operands.lean ====
section
/-! SUPPORT. Laws of the byte files. -/

namespace Sys2Proof.Machine

/-- Index `j` of a file after a run of bytes was stored from `i` on: a byte of the run, or what was there. -/
theorem storeFile_getElem {n : Nat} (f : Vector (Option Byte) n) (i : Nat) (bs : List Byte) (j : Nat) (hj : j < n) :
    (storeFile f i bs)[j] = if h : i ≤ j ∧ j < i + bs.length then some (bs[j - i]'(by omega)) else f[j] := by
  induction bs generalizing f i with
  | nil => simp [storeFile]
  | cons b bs ih =>
    simp only [storeFile, ih, List.length_cons]
    by_cases h : i + 1 ≤ j ∧ j < i + 1 + bs.length
    · have h' : i ≤ j ∧ j < i + (bs.length + 1) := by omega
      rw [dif_pos h, dif_pos h', List.getElem_cons, dif_neg (by omega)]
      congr 2
    · rw [dif_neg h]
      by_cases he : i = j
      · subst he
        simp
      · have h' : ¬ (i ≤ j ∧ j < i + (bs.length + 1)) := by omega
        rw [dif_neg h', Vector.getElem_setIfInBounds_ne hj he]

/-- A file that holds its first `c` bytes holds `|bs|` more after a run is stored from `c` on. -/
theorem storeFile_holds {n : Nat} (f : Vector (Option Byte) n) (c : Nat) (bs : List Byte) (h : FileHolds f c) :
    FileHolds (storeFile f c bs) (c + bs.length) := by
  intro i hi
  have hg := storeFile_getElem f c bs i.val i.isLt
  show ((storeFile f c bs)[i.val]).isSome = true
  rw [hg]
  split
  · rfl
  · exact h i (by omega)

/-- Two runs stored one after the other are one run. -/
theorem storeFile_append {n : Nat} (f : Vector (Option Byte) n) (i : Nat) (bs cs : List Byte) :
    storeFile f i (bs ++ cs) = storeFile (storeFile f i bs) (i + bs.length) cs := by
  induction bs generalizing f i with
  | nil => rfl
  | cons b bs ih =>
    simp only [List.cons_append, storeFile, List.length_cons, ih]
    congr 1
    omega

theorem FileHolds.at {n : Nat} {f : Vector (Option Byte) n} {k : Nat} (h : FileHolds f k) (i : Nat) (hn : i < n)
    (hk : i < k) : ∃ b, f[i] = some b :=
  Option.isSome_iff_exists.mp (h ⟨i, hn⟩ hk)

theorem headerBytes_of_holds {f : Vector (Option Byte) 2} (h : FileHolds f 2) : ∃ hw, headerBytes f = some hw := by
  obtain ⟨b0, h0⟩ := h.at 0 (by omega) (by omega)
  obtain ⟨b1, h1⟩ := h.at 1 (by omega) (by omega)
  exact ⟨_, by simp [headerBytes, h0, h1]; rfl⟩

theorem ext16Value_of_holds {f : Vector (Option Byte) 8} (h : FileHolds f 2) : ∃ v, ext16Value f = some v := by
  obtain ⟨b0, h0⟩ := h.at 0 (by omega) (by omega)
  obtain ⟨b1, h1⟩ := h.at 1 (by omega) (by omega)
  exact ⟨_, by simp [ext16Value, h0, h1]; rfl⟩

theorem ext64Value_of_holds {f : Vector (Option Byte) 8} (h : FileHolds f 8) : ∃ v, ext64Value f = some v := by
  obtain ⟨b0, h0⟩ := h.at 0 (by omega) (by omega)
  obtain ⟨b1, h1⟩ := h.at 1 (by omega) (by omega)
  obtain ⟨b2, h2⟩ := h.at 2 (by omega) (by omega)
  obtain ⟨b3, h3⟩ := h.at 3 (by omega) (by omega)
  obtain ⟨b4, h4⟩ := h.at 4 (by omega) (by omega)
  obtain ⟨b5, h5⟩ := h.at 5 (by omega) (by omega)
  obtain ⟨b6, h6⟩ := h.at 6 (by omega) (by omega)
  obtain ⟨b7, h7⟩ := h.at 7 (by omega) (by omega)
  exact ⟨_, by simp [ext64Value, h0, h1, h2, h3, h4, h5, h6, h7]; rfl⟩

theorem keyBytes_of_holds {f : KeyFile} (h : FileHolds f 4) : ∃ k, keyBytes f = some k := by
  obtain ⟨b0, h0⟩ := h.at 0 (by omega) (by omega)
  obtain ⟨b1, h1⟩ := h.at 1 (by omega) (by omega)
  obtain ⟨b2, h2⟩ := h.at 2 (by omega) (by omega)
  obtain ⟨b3, h3⟩ := h.at 3 (by omega) (by omega)
  exact ⟨#v[b0, b1, b2, b3], by simp only [keyBytes, h0, h1, h2, h3]⟩

theorem keyBytes_keyFileOf (k : Key) : keyBytes (keyFileOf k) = some k := by
  show some (#v[k[0], k[1], k[2], k[3]] : Key) = some k
  congr 1
  apply Vector.ext
  intro i hi
  match i, hi with
  | 0, _ => rfl
  | 1, _ => rfl
  | 2, _ => rfl
  | 3, _ => rfl

/-- The key file that holds a key holds each of its bytes. -/
theorem keyFileOf_eq_map (k : Key) : keyFileOf k = k.map some := by
  apply Vector.ext
  intro i hi
  rw [Vector.getElem_map]
  match i, hi with
  | 0, _ => rfl
  | 1, _ => rfl
  | 2, _ => rfl
  | 3, _ => rfl

/-- The header word placed in `HB` is read back. -/
theorem headerBytes_placed (hw : HeaderWord) : headerBytes #v[some (hwByte0 hw), some (hwByte1 hw)] = some hw := by
  show some (headerWordOf (hwByte0 hw) (hwByte1 hw)) = some hw
  rw [headerWordOf_bytes]

end Sys2Proof.Machine
end

