-- ==== Sys2Proof/Laws/State.lean ====
section
/-! SUPPORT. One lemma per field per update of the state, each true by `rfl`, so that no later proof unfolds an update. -/

namespace Sys2Proof.Machine

@[simp] theorem resetBlock_phase (s : State) : (State.resetBlock s).phase = .idle := rfl
@[simp] theorem resetBlock_work (s : State) : (State.resetBlock s).work = Working.empty := rfl
@[simp] theorem resetBlock_key (s : State) : (State.resetBlock s).key = KeyFile.empty := rfl
@[simp] theorem resetBlock_res (s : State) : (State.resetBlock s).res = Results.empty := rfl
@[simp] theorem resetBlock_err (s : State) : (State.resetBlock s).err = .none := rfl
@[simp] theorem resetBlock_maxLen (s : State) : (State.resetBlock s).maxLen = Config.maxLenReset := rfl
@[simp] theorem resetBlock_win (s : State) : (State.resetBlock s).win = none := rfl
@[simp] theorem resetBlock_pbuf (s : State) : (State.resetBlock s).pbuf = s.pbuf := rfl
@[simp] theorem resetBlock_input (s : State) : (State.resetBlock s).input = s.input := rfl
@[simp] theorem resetBlock_spos (s : State) : (State.resetBlock s).spos = s.spos := rfl
@[simp] theorem resetBlock_answers (s : State) : (State.resetBlock s).answers = s.answers := rfl
@[simp] theorem resetBlock_cancel (s : State) : (State.resetBlock s).cancel = s.cancel := rfl
@[simp] theorem resetBlock_out (s : State) : (State.resetBlock s).out = s.out := rfl
@[simp] theorem resetBlock_rng (s : State) : (State.resetBlock s).rng = s.rng := rfl
@[simp] theorem resetBlock_draws (s : State) : (State.resetBlock s).draws = s.draws := rfl
@[simp] theorem resetBlock_host (s : State) : (State.resetBlock s).host = s.host := rfl
@[simp] theorem resetBlock_params (s : State) : (State.resetBlock s).params = s.params := rfl

@[simp] theorem clearOperation_phase (s : State) : (clearOperation s).phase = s.phase := rfl
@[simp] theorem clearOperation_work (s : State) : (clearOperation s).work = Working.empty := rfl
@[simp] theorem clearOperation_key (s : State) : (clearOperation s).key = KeyFile.empty := rfl
@[simp] theorem clearOperation_res (s : State) : (clearOperation s).res = s.res := rfl
@[simp] theorem clearOperation_err (s : State) : (clearOperation s).err = s.err := rfl
@[simp] theorem clearOperation_maxLen (s : State) : (clearOperation s).maxLen = s.maxLen := rfl
@[simp] theorem clearOperation_win (s : State) : (clearOperation s).win = none := rfl
@[simp] theorem clearOperation_pbuf (s : State) : (clearOperation s).pbuf = s.pbuf := rfl
@[simp] theorem clearOperation_input (s : State) : (clearOperation s).input = s.input := rfl
@[simp] theorem clearOperation_spos (s : State) : (clearOperation s).spos = s.spos := rfl
@[simp] theorem clearOperation_answers (s : State) : (clearOperation s).answers = s.answers := rfl
@[simp] theorem clearOperation_cancel (s : State) : (clearOperation s).cancel = s.cancel := rfl
@[simp] theorem clearOperation_out (s : State) : (clearOperation s).out = s.out := rfl
@[simp] theorem clearOperation_rng (s : State) : (clearOperation s).rng = s.rng := rfl
@[simp] theorem clearOperation_draws (s : State) : (clearOperation s).draws = s.draws := rfl
@[simp] theorem clearOperation_host (s : State) : (clearOperation s).host = s.host := rfl
@[simp] theorem clearOperation_params (s : State) : (clearOperation s).params = s.params := rfl

@[simp] theorem accept_phase (s : State) : (accept s).phase = s.phase := rfl
@[simp] theorem accept_work (s : State) : (accept s).work = Working.empty := rfl
@[simp] theorem accept_key (s : State) : (accept s).key = KeyFile.empty := rfl
@[simp] theorem accept_res (s : State) : (accept s).res = Results.empty := rfl
@[simp] theorem accept_err (s : State) : (accept s).err = .none := rfl
@[simp] theorem accept_maxLen (s : State) : (accept s).maxLen = s.maxLen := rfl
@[simp] theorem accept_win (s : State) : (accept s).win = none := rfl
@[simp] theorem accept_pbuf (s : State) : (accept s).pbuf = s.pbuf := rfl
@[simp] theorem accept_input (s : State) : (accept s).input = s.input := rfl
@[simp] theorem accept_spos (s : State) : (accept s).spos = s.spos := rfl
@[simp] theorem accept_answers (s : State) : (accept s).answers = s.answers := rfl
@[simp] theorem accept_cancel (s : State) : (accept s).cancel = s.cancel := rfl
@[simp] theorem accept_out (s : State) : (accept s).out = s.out := rfl
@[simp] theorem accept_rng (s : State) : (accept s).rng = s.rng := rfl
@[simp] theorem accept_draws (s : State) : (accept s).draws = s.draws := rfl
@[simp] theorem accept_host (s : State) : (accept s).host = s.host := rfl
@[simp] theorem accept_params (s : State) : (accept s).params = s.params := rfl

@[simp] theorem raised_phase (e : Err) (s : State) : (raised e s).phase = .fault := rfl
@[simp] theorem raised_work (e : Err) (s : State) : (raised e s).work = Working.empty := rfl
@[simp] theorem raised_key (e : Err) (s : State) : (raised e s).key = KeyFile.empty := rfl
@[simp] theorem raised_res (e : Err) (s : State) : (raised e s).res = Results.empty := rfl
@[simp] theorem raised_err (e : Err) (s : State) : (raised e s).err = e := rfl
@[simp] theorem raised_maxLen (e : Err) (s : State) : (raised e s).maxLen = s.maxLen := rfl
@[simp] theorem raised_win (e : Err) (s : State) : (raised e s).win = none := rfl
@[simp] theorem raised_pbuf (e : Err) (s : State) : (raised e s).pbuf = s.pbuf := rfl
@[simp] theorem raised_input (e : Err) (s : State) : (raised e s).input = s.input := rfl
@[simp] theorem raised_spos (e : Err) (s : State) : (raised e s).spos = s.spos := rfl
@[simp] theorem raised_answers (e : Err) (s : State) : (raised e s).answers = s.answers := rfl
@[simp] theorem raised_cancel (e : Err) (s : State) : (raised e s).cancel = s.cancel := rfl
@[simp] theorem raised_out (e : Err) (s : State) : (raised e s).out = s.out := rfl
@[simp] theorem raised_rng (e : Err) (s : State) : (raised e s).rng = s.rng := rfl
@[simp] theorem raised_draws (e : Err) (s : State) : (raised e s).draws = s.draws := rfl
@[simp] theorem raised_host (e : Err) (s : State) : (raised e s).host = s.host := rfl
@[simp] theorem raised_params (e : Err) (s : State) : (raised e s).params = s.params := rfl

@[simp] theorem finished_phase (r : Results) (s : State) : (finished r s).phase = .done := rfl
@[simp] theorem finished_work (r : Results) (s : State) : (finished r s).work = Working.empty := rfl
@[simp] theorem finished_key (r : Results) (s : State) : (finished r s).key = KeyFile.empty := rfl
@[simp] theorem finished_res (r : Results) (s : State) : (finished r s).res = r := rfl
@[simp] theorem finished_err (r : Results) (s : State) : (finished r s).err = .none := rfl
@[simp] theorem finished_maxLen (r : Results) (s : State) : (finished r s).maxLen = s.maxLen := rfl
@[simp] theorem finished_win (r : Results) (s : State) : (finished r s).win = none := rfl
@[simp] theorem finished_pbuf (r : Results) (s : State) : (finished r s).pbuf = s.pbuf := rfl
@[simp] theorem finished_input (r : Results) (s : State) : (finished r s).input = s.input := rfl
@[simp] theorem finished_spos (r : Results) (s : State) : (finished r s).spos = s.spos := rfl
@[simp] theorem finished_answers (r : Results) (s : State) : (finished r s).answers = s.answers := rfl
@[simp] theorem finished_cancel (r : Results) (s : State) : (finished r s).cancel = s.cancel := rfl
@[simp] theorem finished_out (r : Results) (s : State) : (finished r s).out = s.out := rfl
@[simp] theorem finished_rng (r : Results) (s : State) : (finished r s).rng = s.rng := rfl
@[simp] theorem finished_draws (r : Results) (s : State) : (finished r s).draws = s.draws := rfl
@[simp] theorem finished_host (r : Results) (s : State) : (finished r s).host = s.host := rfl
@[simp] theorem finished_params (r : Results) (s : State) : (finished r s).params = s.params := rfl

@[simp] theorem startRead_phase (p : Phase) (n : Nat) (s : State) : (startRead p n s).phase = p := rfl
@[simp] theorem startRead_work (p : Phase) (n : Nat) (s : State) : (startRead p n s).work =
    { s.work with need := if n = 0 then s.work.need else some n, cnt := if n = 0 then s.work.cnt else some 0 } := rfl
@[simp] theorem startRead_key (p : Phase) (n : Nat) (s : State) : (startRead p n s).key = s.key := rfl
@[simp] theorem startRead_res (p : Phase) (n : Nat) (s : State) : (startRead p n s).res = s.res := rfl
@[simp] theorem startRead_err (p : Phase) (n : Nat) (s : State) : (startRead p n s).err = s.err := rfl
@[simp] theorem startRead_maxLen (p : Phase) (n : Nat) (s : State) : (startRead p n s).maxLen = s.maxLen := rfl
@[simp] theorem startRead_win (p : Phase) (n : Nat) (s : State) : (startRead p n s).win = s.win := rfl
@[simp] theorem startRead_pbuf (p : Phase) (n : Nat) (s : State) : (startRead p n s).pbuf = s.pbuf := rfl
@[simp] theorem startRead_input (p : Phase) (n : Nat) (s : State) : (startRead p n s).input = s.input := rfl
@[simp] theorem startRead_spos (p : Phase) (n : Nat) (s : State) : (startRead p n s).spos = s.spos := rfl
@[simp] theorem startRead_answers (p : Phase) (n : Nat) (s : State) : (startRead p n s).answers = s.answers := rfl
@[simp] theorem startRead_cancel (p : Phase) (n : Nat) (s : State) : (startRead p n s).cancel = s.cancel := rfl
@[simp] theorem startRead_out (p : Phase) (n : Nat) (s : State) : (startRead p n s).out = s.out := rfl
@[simp] theorem startRead_rng (p : Phase) (n : Nat) (s : State) : (startRead p n s).rng = s.rng := rfl
@[simp] theorem startRead_draws (p : Phase) (n : Nat) (s : State) : (startRead p n s).draws = s.draws := rfl
@[simp] theorem startRead_host (p : Phase) (n : Nat) (s : State) : (startRead p n s).host = s.host := rfl
@[simp] theorem startRead_params (p : Phase) (n : Nat) (s : State) : (startRead p n s).params = s.params := rfl

@[simp] theorem emit_phase (bs : List Byte) (s : State) : (emit bs s).phase = s.phase := rfl
@[simp] theorem emit_work (bs : List Byte) (s : State) : (emit bs s).work = s.work := rfl
@[simp] theorem emit_key (bs : List Byte) (s : State) : (emit bs s).key = s.key := rfl
@[simp] theorem emit_res (bs : List Byte) (s : State) : (emit bs s).res = s.res := rfl
@[simp] theorem emit_err (bs : List Byte) (s : State) : (emit bs s).err = s.err := rfl
@[simp] theorem emit_maxLen (bs : List Byte) (s : State) : (emit bs s).maxLen = s.maxLen := rfl
@[simp] theorem emit_win (bs : List Byte) (s : State) : (emit bs s).win = s.win := rfl
@[simp] theorem emit_pbuf (bs : List Byte) (s : State) : (emit bs s).pbuf = s.pbuf := rfl
@[simp] theorem emit_input (bs : List Byte) (s : State) : (emit bs s).input = s.input := rfl
@[simp] theorem emit_spos (bs : List Byte) (s : State) : (emit bs s).spos = s.spos := rfl
@[simp] theorem emit_answers (bs : List Byte) (s : State) : (emit bs s).answers = s.answers := rfl
@[simp] theorem emit_cancel (bs : List Byte) (s : State) : (emit bs s).cancel = s.cancel := rfl
@[simp] theorem emit_out (bs : List Byte) (s : State) : (emit bs s).out = s.out ++ bs := rfl
@[simp] theorem emit_rng (bs : List Byte) (s : State) : (emit bs s).rng = s.rng := rfl
@[simp] theorem emit_draws (bs : List Byte) (s : State) : (emit bs s).draws = s.draws := rfl
@[simp] theorem emit_host (bs : List Byte) (s : State) : (emit bs s).host = s.host := rfl
@[simp] theorem emit_params (bs : List Byte) (s : State) : (emit bs s).params = s.params := rfl

@[simp] theorem extractFields_phase (f : Bool) (o : BitVec 4) (m : Bool) (i : BitVec 7) (s : State) : (extractFields f o m i s).phase = s.phase := rfl
@[simp] theorem extractFields_work (f : Bool) (o : BitVec 4) (m : Bool) (i : BitVec 7) (s : State) : (extractFields f o m i s).work = { s.work with fin := some f, opc := some o, mask := some m, ind := some i } := rfl
@[simp] theorem extractFields_key (f : Bool) (o : BitVec 4) (m : Bool) (i : BitVec 7) (s : State) : (extractFields f o m i s).key = s.key := rfl
@[simp] theorem extractFields_res (f : Bool) (o : BitVec 4) (m : Bool) (i : BitVec 7) (s : State) : (extractFields f o m i s).res = s.res := rfl
@[simp] theorem extractFields_err (f : Bool) (o : BitVec 4) (m : Bool) (i : BitVec 7) (s : State) : (extractFields f o m i s).err = s.err := rfl
@[simp] theorem extractFields_maxLen (f : Bool) (o : BitVec 4) (m : Bool) (i : BitVec 7) (s : State) : (extractFields f o m i s).maxLen = s.maxLen := rfl
@[simp] theorem extractFields_win (f : Bool) (o : BitVec 4) (m : Bool) (i : BitVec 7) (s : State) : (extractFields f o m i s).win = s.win := rfl
@[simp] theorem extractFields_pbuf (f : Bool) (o : BitVec 4) (m : Bool) (i : BitVec 7) (s : State) : (extractFields f o m i s).pbuf = s.pbuf := rfl
@[simp] theorem extractFields_input (f : Bool) (o : BitVec 4) (m : Bool) (i : BitVec 7) (s : State) : (extractFields f o m i s).input = s.input := rfl
@[simp] theorem extractFields_spos (f : Bool) (o : BitVec 4) (m : Bool) (i : BitVec 7) (s : State) : (extractFields f o m i s).spos = s.spos := rfl
@[simp] theorem extractFields_answers (f : Bool) (o : BitVec 4) (m : Bool) (i : BitVec 7) (s : State) : (extractFields f o m i s).answers = s.answers := rfl
@[simp] theorem extractFields_cancel (f : Bool) (o : BitVec 4) (m : Bool) (i : BitVec 7) (s : State) : (extractFields f o m i s).cancel = s.cancel := rfl
@[simp] theorem extractFields_out (f : Bool) (o : BitVec 4) (m : Bool) (i : BitVec 7) (s : State) : (extractFields f o m i s).out = s.out := rfl
@[simp] theorem extractFields_rng (f : Bool) (o : BitVec 4) (m : Bool) (i : BitVec 7) (s : State) : (extractFields f o m i s).rng = s.rng := rfl
@[simp] theorem extractFields_draws (f : Bool) (o : BitVec 4) (m : Bool) (i : BitVec 7) (s : State) : (extractFields f o m i s).draws = s.draws := rfl
@[simp] theorem extractFields_host (f : Bool) (o : BitVec 4) (m : Bool) (i : BitVec 7) (s : State) : (extractFields f o m i s).host = s.host := rfl
@[simp] theorem extractFields_params (f : Bool) (o : BitVec 4) (m : Bool) (i : BitVec 7) (s : State) : (extractFields f o m i s).params = s.params := rfl

/-- An exact read of no byte writes no register but the phase. -/
theorem startRead_zero (p : Phase) (s : State) : startRead p 0 s = { s with phase := p } := rfl

/-- An exact read of some bytes begins at `CNT = 0`. -/
theorem startRead_pos (p : Phase) {n : Nat} (s : State) (h : n ≠ 0) :
    startRead p n s = { s with phase := p, work := { s.work with need := some n, cnt := some 0 } } := by
  simp [startRead, h]

/-- The window at hand is the one that is sampled. -/
theorem someWindow_of {s : State} {w : Window} (h : s.win = some w) : someWindow s = w := by
  simp [someWindow, h]

/-- A register that holds a value is read. -/
@[simp] theorem withValue_some {α : Type} (r : Reg) (x : α) (k : α → Outcome) : withValue r (some x) k = k x := rfl

/-- A register that holds none stops the machine. -/
@[simp] theorem withValue_none {α : Type} (r : Reg) (k : α → Outcome) :
    withValue r none k = .fault (.noValue r) := rfl

/-- What follows a read of a register goes on only from a value. -/
theorem withValue_next {α : Type} {r : Reg} {v : Option α} {k : α → Outcome} {t : State} (h : withValue r v k = .next t) :
    ∃ x, v = some x ∧ k x = .next t := by
  cases v with
  | none => cases h
  | some x => exact ⟨x, rfl, h⟩

/-- The results are valid in DONE (10_state.md R14). -/
theorem results_done {s : State} (h : s.phase = .done) : s.results = some s.res := by simp [State.results, h]

/-- The results have lost their value in every other phase (10_state.md R14; 60_exceptions.md R205). -/
theorem results_none {s : State} (h : s.phase ≠ .done) : s.results = none := by simp [State.results, h]

theorem raiseErr_eq (e : Err) (s : State) : raiseErr e s = .next (raised e s) := rfl

theorem finish_eq (r : Results) (s : State) : finish r s = .next (finished r s) := rfl

end Sys2Proof.Machine
end

