-- ==== Sys2Proof/Laws/Ops.lean ====
section
/-! SUPPORT. For each shared operation, one lemma that says once everything it can do: the proofs cite it instead of unfolding
the operation. -/

namespace Sys2Proof.Machine

/-! ### The stream -/

/-- `s` after the stream took an answer off its script, leaving `ds`, with `CANCEL` then at `c`. -/
def answered (s : State) (ds : List ReadDraw) (c : Bool) : State := { s with answers := ds, cancel := c }

/-- `s` after the stream delivered `bs`. -/
def delivered (s : State) (bs : List Byte) : State :=
  { s with input := s.input.drop bs.length, spos := s.spos + bs.length }

/-- A read answers at most what is asked (20_memory.md R41). -/
theorem deliveryOf_length_le (n size : Nat) (input : List Byte) : (deliveryOf n size input).length ≤ n := by
  simp only [deliveryOf, List.length_take]
  omega

/-- A read of a stream that has not ended answers at least one byte (20_memory.md R41). -/
theorem deliveryOf_pos {n : Nat} (size : Nat) {input : List Byte} (hn : 0 < n) (hi : input ≠ []) :
    0 < (deliveryOf n size input).length := by
  have := List.length_pos_iff.mpr hi
  simp only [deliveryOf, List.length_take]
  omega

/-- What a read delivers is a prefix of what the stream holds. -/
theorem deliveryOf_eq_take (n size : Nat) (input : List Byte) :
    deliveryOf n size input = input.take (deliveryOf n size input).length := by
  simp only [deliveryOf, List.length_take]
  rw [List.take_eq_take_iff]
  omega

/-- Everything a stream read can do. -/
theorem streamRead_cases (n : Nat) (s : State) :
    (s.cancel = true ∧ streamRead n s = (.cancelled, s)) ∨
    (s.cancel = false ∧ s.answers = [] ∧ streamRead n s = (.pending, s)) ∨
    (s.cancel = false ∧ ∃ ds, s.answers = .cancelled :: ds ∧ streamRead n s = (.cancelled, answered s ds true)) ∨
    (s.cancel = false ∧ ∃ size ds c, (s.answers = .data size :: ds ∧ c = false ∨
        s.answers = .dataAsCancelRises size :: ds ∧ c = true) ∧
      streamRead n s = (.data (deliveryOf n size s.input), delivered (answered s ds c) (deliveryOf n size s.input))) := by
  cases hc : s.cancel with
  | true => exact .inl ⟨rfl, by simp [streamRead, hc]⟩
  | false =>
    right
    cases ha : s.answers with
    | nil => exact .inl ⟨rfl, rfl, by simp [streamRead, hc, ha]⟩
    | cons d ds =>
      right
      cases d with
      | cancelled => exact .inl ⟨rfl, ds, rfl, by simp [streamRead, hc, ha, answered]⟩
      | data size =>
        refine .inr ⟨rfl, size, ds, false, .inl ⟨rfl, rfl⟩, ?_⟩
        simp [streamRead, hc, ha, answered, deliver, delivered]
      | dataAsCancelRises size =>
        refine .inr ⟨rfl, size, ds, true, .inr ⟨rfl, rfl⟩, ?_⟩
        simp [streamRead, hc, ha, answered, deliver, delivered]

/-- `s` with `CNT` at `c`. -/
def counted (s : State) (c : Nat) : State := { s with work := { s.work with cnt := some c } }

/-- Everything one turn of the exact read can do (44_exact_read.md R151 to R155): wait, end with `Cancelled`, end with
`UnexpectedEndOfStream` on a stream that holds nothing, or store what was delivered. -/
theorem readStep_cases (need cnt : Nat) (s : State) :
    (s.cancel = false ∧ s.answers = [] ∧ readStep need cnt s = .next s) ∨
    (s.cancel = true ∧ readStep need cnt s = .next (raised .cancelled s)) ∨
    (s.cancel = false ∧ ∃ ds, s.answers = .cancelled :: ds ∧
      readStep need cnt s = .next (raised .cancelled (answered s ds true))) ∨
    (s.cancel = false ∧ ∃ size ds c, (s.answers = .data size :: ds ∧ c = false ∨
        s.answers = .dataAsCancelRises size :: ds ∧ c = true) ∧
      ((deliveryOf (need - cnt) size s.input = [] ∧
        readStep need cnt s = .next (raised .unexpectedEndOfStream (answered s ds c))) ∨
       (deliveryOf (need - cnt) size s.input ≠ [] ∧
        readStep need cnt s =
          storeDelivered cnt (deliveryOf (need - cnt) size s.input)
            (counted (delivered (answered s ds c) (deliveryOf (need - cnt) size s.input))
              (cnt + (deliveryOf (need - cnt) size s.input).length))))) := by
  rcases streamRead_cases (need - cnt) s with ⟨hc, h⟩ | ⟨hc, ha, h⟩ | ⟨hc, ds, ha, h⟩ | ⟨hc, size, ds, c, ha, h⟩
  · exact .inr (.inl ⟨hc, by simp [readStep, h, raiseErr]⟩)
  · exact .inl ⟨hc, ha, by simp [readStep, h]⟩
  · exact .inr (.inr (.inl ⟨hc, ds, ha, by simp [readStep, h, raiseErr]⟩))
  · refine .inr (.inr (.inr ⟨hc, size, ds, c, ha, ?_⟩))
    by_cases he : deliveryOf (need - cnt) size s.input = []
    · refine .inl ⟨he, ?_⟩
      simp [readStep, h, he, raiseErr, delivered]
    · refine .inr ⟨he, ?_⟩
      simp [readStep, h, he, counted]

/-! ### Commands -/

/-- Everything a command with a window can do. -/
theorem issueWindow_cases (w : Window) (s : State) (start : State → Outcome) :
    (s.phase.running = true ∧ issueWindow w s start = .next s) ∨
    (s.phase.running = false ∧ w.valid s.params.sizeW = false ∧ issueWindow w s start = .refused .notAWindow) ∨
    (s.phase.running = false ∧ w.valid s.params.sizeW = true ∧ issueWindow w s start = start (accept s)) := by
  cases hr : s.phase.running <;> cases hv : w.valid s.params.sizeW <;> simp [issueWindow, issue, hr, hv]

/-- Everything a byte-order command can do. -/
theorem answer_cases (b : BOut) (s : State) :
    (s.phase.running = true ∧ answer b s = .next s) ∨
    (s.phase.running = false ∧ answer b s = .next (finished { Results.empty with bOut := some b } (accept s))) := by
  cases hr : s.phase.running <;> simp [answer, issue, hr, finish]

theorem accept_running (s : State) : (accept s).phase.running = s.phase.running := rfl

/-- A length that fits eight bytes is written as it is (43_frame_encoder.md R133). -/
theorem lengthField_toNat {n : Nat} (h : n < 2 ^ 64) : (lengthField n).toNat = n := by
  rw [lengthField, if_pos h, BitVec.toNat_ofNat, Nat.mod_eq_of_lt h]

/-- A count that fits 64 bits is reported as it is (43_frame_encoder.md R137). -/
theorem writtenCount_toNat {n : Nat} (h : n < 2 ^ 64) : (writtenCount n).toNat = n := by
  rw [writtenCount, if_pos h, BitVec.toNat_ofNat, Nat.mod_eq_of_lt h]

/-! ### The rows of a header -/

/-- `s` with `LEN` at `l`. -/
def withLen (s : State) (l : Len) : State := { s with work := { s.work with len := some l } }

/-- Everything the window check can do. -/
theorem startPayload_cases (s : State) :
    (s.work.len = none ∧ startPayload s = .fault (.noValue .len)) ∨
    (∃ l, s.work.len = some l ∧ (someWindow s).cap < l.toNat ∧
      startPayload s = .next (raised .bufferTooSmall s)) ∨
    (∃ l, s.work.len = some l ∧ l.toNat ≤ (someWindow s).cap ∧
      startPayload s = .next (startRead .payload l.toNat s)) := by
  cases hl : s.work.len with
  | none => exact .inl ⟨rfl, by simp [startPayload, hl]⟩
  | some l =>
    by_cases h : (someWindow s).cap < l.toNat
    · exact .inr (.inl ⟨l, rfl, h, by simp [startPayload, hl, h, raiseErr]⟩)
    · exact .inr (.inr ⟨l, rfl, by omega, by simp [startPayload, hl, h]⟩)

/-- Everything that can follow once `LEN` is assembled. -/
theorem lengthKnown_cases (masked : Bool) (l : Len) (s : State) :
    (s.maxLen.toNat < l.toNat ∧ lengthKnown masked l s = .next (raised .lengthOutOfRange (withLen s l))) ∨
    (l.toNat ≤ s.maxLen.toNat ∧ masked = true ∧
      lengthKnown masked l s = .next (startRead .keyrd 4 (withLen s l))) ∨
    (l.toNat ≤ s.maxLen.toNat ∧ masked = false ∧ lengthKnown masked l s = startPayload (withLen s l)) := by
  by_cases h : s.maxLen.toNat < l.toNat
  · exact .inl ⟨h, by simp [lengthKnown, h, withLen, raiseErr]⟩
  · cases masked with
    | true => exact .inr (.inl ⟨by omega, rfl, by simp [lengthKnown, h, withLen]⟩)
    | false => exact .inr (.inr ⟨by omega, rfl, by simp [lengthKnown, h, withLen]⟩)

/-- Everything the end of a frame can do. -/
theorem frameDone_cases (c : CloseMeta) (s : State) :
    (∃ r, frameDone c s = .fault (.noValue r)) ∨
    (∃ f o l, s.work.fin = some f ∧ s.work.opc = some o ∧ s.work.len = some l ∧
      frameDone c s = .next (finished { Results.empty with
        fFin := some f, fOpc := some o, fPlen := some l.toNat, fCsV := some c.csV, fCs := c.cs,
        fCrV := some c.crV, fCrOff := c.crOff, fCrLen := c.crLen } s)) := by
  cases hf : s.work.fin with
  | none => exact .inl ⟨.fin, by simp [frameDone, hf]⟩
  | some f =>
    cases ho : s.work.opc with
    | none => exact .inl ⟨.opc, by simp [frameDone, hf, ho]⟩
    | some o =>
      cases hl : s.work.len with
      | none => exact .inl ⟨.len, by simp [frameDone, hf, ho, hl]⟩
      | some l => exact .inr ⟨f, o, l, rfl, rfl, rfl, by simp [frameDone, hf, ho, hl, finish]⟩

/-! ### Moves of the host -/

theorem connect_cases (bytes : List Byte) (s : State) :
    (s.phase.running = true ∧ connect bytes s = .refused .streamInUse) ∨
    (s.phase.running = false ∧ connect bytes s = .next { s with input := bytes, spos := 0 }) := by
  cases hr : s.phase.running <;> simp [connect, hr]

theorem hostStore_cases (addr : Nat) (b : Byte) (s : State) :
    (Config.sizeRange s.params.sizeW ≤ addr ∧ hostStore addr b s = .refused .noSuchAddress) ∨
    (addr < Config.sizeRange s.params.sizeW ∧ inRunningWindow addr s = true ∧ hostStore addr b s = .refused .windowInUse) ∨
    (addr < Config.sizeRange s.params.sizeW ∧ inRunningWindow addr s = false ∧
      hostStore addr b s = .next { s with pbuf := Memory.write s.pbuf addr b }) := by
  by_cases ha : Config.sizeRange s.params.sizeW ≤ addr
  · exact .inl ⟨ha, by simp [hostStore, ha]⟩
  · cases hr : inRunningWindow addr s <;> simp [hostStore, hr, ha] <;> omega

end Sys2Proof.Machine
end

