-- ==== Sys2Proof/Laws/PerInstr.lean ====
section
/-! SUPPORT. The family `TableRow`: the word of an instruction is a word of its own row of spec/opcode_table.json, said of each
constructor. -/

namespace Sys2Proof.Laws.TableRow

/-- A row of spec/opcode_table.json over the header word: read as an opcode row or as a length-form row, with its mask and its
match. -/
inductive Row where
  | opcode (mask : HeaderWord) (word : HeaderWord)
  | lengthForm (mask : HeaderWord) (word : HeaderWord)
  | command (code : BitVec 4)
  deriving DecidableEq, Repr

/-- The row of each instruction, its `mask` and `match` copied from spec/opcode_table.json. -/
def rowOf : Instr → Row
  | .cont _ _ _ _ => .opcode 0x0F00#16 0x0000#16
  | .text _ _ _ _ => .opcode 0x0F00#16 0x0100#16
  | .bin _ _ _ _ => .opcode 0x0F00#16 0x0200#16
  | .op3 _ _ _ _ => .opcode 0x0F00#16 0x0300#16
  | .op4 _ _ _ _ => .opcode 0x0F00#16 0x0400#16
  | .op5 _ _ _ _ => .opcode 0x0F00#16 0x0500#16
  | .op6 _ _ _ _ => .opcode 0x0F00#16 0x0600#16
  | .op7 _ _ _ _ => .opcode 0x0F00#16 0x0700#16
  | .close _ _ _ _ => .opcode 0x0F00#16 0x0800#16
  | .ping _ _ _ _ => .opcode 0x0F00#16 0x0900#16
  | .pong _ _ _ _ => .opcode 0x0F00#16 0x0A00#16
  | .op11 _ _ _ _ => .opcode 0x0F00#16 0x0B00#16
  | .op12 _ _ _ _ => .opcode 0x0F00#16 0x0C00#16
  | .op13 _ _ _ _ => .opcode 0x0F00#16 0x0D00#16
  | .op14 _ _ _ _ => .opcode 0x0F00#16 0x0E00#16
  | .op15 _ _ _ _ => .opcode 0x0F00#16 0x0F00#16
  | .len7U _ _ _ _ => .lengthForm 0x0080#16 0x0000#16
  | .len7M _ _ _ _ => .lengthForm 0x0080#16 0x0080#16
  | .len16U _ _ _ => .lengthForm 0x00FF#16 0x007E#16
  | .len16M _ _ _ => .lengthForm 0x00FF#16 0x00FE#16
  | .len64U _ _ _ => .lengthForm 0x00FF#16 0x007F#16
  | .len64M _ _ _ => .lengthForm 0x00FF#16 0x00FF#16
  | .decode _ => .command 0x1#4
  | .toggleMask _ _ _ => .command 0x2#4
  | .encode _ _ _ _ => .command 0x3#4
  | .readExact _ _ => .command 0x4#4
  | .swap16 _ => .command 0x5#4
  | .swap64 _ => .command 0x6#4
  | .rdu16 _ _ => .command 0x7#4
  | .rdi16 _ _ => .command 0x8#4
  | .rdu64 _ _ => .command 0x9#4
  | .rdi64 _ _ => .command 0xA#4
  | .wru16 _ _ => .command 0xB#4
  | .wri16 _ _ => .command 0xC#4
  | .wru64 _ _ => .command 0xD#4
  | .wri64 _ _ => .command 0xE#4

/-- The word that is fetched is a word of the row. -/
def Matches : Row → FetchWord → Prop
  | .opcode mask word, .opcode hw => hw &&& mask = word
  | .lengthForm mask word, .lengthForm hw => hw &&& mask = word
  | .command code, .command c _ => c = code
  | _, _ => False

/-- The instruction's word is one of its row. -/
def Statement (i : Instr) : Prop := ∀ sizeW : Nat, i.wellFormed sizeW = true → Matches (rowOf i) (encode i)

/-- The opcode nibble of a header word is the OPC field, in place. -/
theorem header_opcode (f : Bool) (r : BitVec 3) (o : BitVec 4) (m : Bool) (i : BitVec 7) :
    makeHeader f r o m i &&& 0x0F00#16 = o.setWidth 16 <<< 8 := by
  apply BitVec.eq_of_getLsbD_eq
  intro k hk
  have hmask : (0x0F00#16 : BitVec 16).getLsbD k = (decide (8 ≤ k) && decide (k < 12)) := by
    revert k; decide
  rw [BitVec.getLsbD_and, makeHeader_bit, hmask, BitVec.getLsbD_shiftLeft, BitVec.getLsbD_setWidth]
  grind

/-- The second byte of a header word is the mask bit and the indicator, in place. -/
theorem header_second (f : Bool) (r : BitVec 3) (o : BitVec 4) (m : Bool) (i : BitVec 7) :
    makeHeader f r o m i &&& 0x00FF#16 = (BitVec.ofBool m).setWidth 16 <<< 7 ||| i.setWidth 16 := by
  apply BitVec.eq_of_getLsbD_eq
  intro k hk
  have hmask : (0x00FF#16 : BitVec 16).getLsbD k = decide (k < 8) := by
    revert k; decide
  rw [BitVec.getLsbD_and, makeHeader_bit, hmask, BitVec.getLsbD_or, BitVec.getLsbD_shiftLeft, BitVec.getLsbD_setWidth,
    BitVec.getLsbD_setWidth, BitVec.getLsbD_ofBool]
  grind

/-- The mask bit of a header word, in place. -/
theorem header_mask (f : Bool) (r : BitVec 3) (o : BitVec 4) (m : Bool) (i : BitVec 7) :
    makeHeader f r o m i &&& 0x0080#16 = (BitVec.ofBool m).setWidth 16 <<< 7 := by
  apply BitVec.eq_of_getLsbD_eq
  intro k hk
  have hmask : (0x0080#16 : BitVec 16).getLsbD k = decide (k = 7) := by
    revert k; decide
  rw [BitVec.getLsbD_and, makeHeader_bit, hmask, BitVec.getLsbD_shiftLeft, BitVec.getLsbD_setWidth, BitVec.getLsbD_ofBool]
  grind

theorem cont (f : Bool) (r : BitVec 3) (m : Bool) (i : BitVec 7) : Statement (.cont f r m i) := fun _ _ => header_opcode f r _ m i
theorem text (f : Bool) (r : BitVec 3) (m : Bool) (i : BitVec 7) : Statement (.text f r m i) := fun _ _ => header_opcode f r _ m i
theorem bin (f : Bool) (r : BitVec 3) (m : Bool) (i : BitVec 7) : Statement (.bin f r m i) := fun _ _ => header_opcode f r _ m i
theorem op3 (f : Bool) (r : BitVec 3) (m : Bool) (i : BitVec 7) : Statement (.op3 f r m i) := fun _ _ => header_opcode f r _ m i
theorem op4 (f : Bool) (r : BitVec 3) (m : Bool) (i : BitVec 7) : Statement (.op4 f r m i) := fun _ _ => header_opcode f r _ m i
theorem op5 (f : Bool) (r : BitVec 3) (m : Bool) (i : BitVec 7) : Statement (.op5 f r m i) := fun _ _ => header_opcode f r _ m i
theorem op6 (f : Bool) (r : BitVec 3) (m : Bool) (i : BitVec 7) : Statement (.op6 f r m i) := fun _ _ => header_opcode f r _ m i
theorem op7 (f : Bool) (r : BitVec 3) (m : Bool) (i : BitVec 7) : Statement (.op7 f r m i) := fun _ _ => header_opcode f r _ m i
theorem close (f : Bool) (r : BitVec 3) (m : Bool) (i : BitVec 7) : Statement (.close f r m i) := fun _ _ => header_opcode f r _ m i
theorem ping (f : Bool) (r : BitVec 3) (m : Bool) (i : BitVec 7) : Statement (.ping f r m i) := fun _ _ => header_opcode f r _ m i
theorem pong (f : Bool) (r : BitVec 3) (m : Bool) (i : BitVec 7) : Statement (.pong f r m i) := fun _ _ => header_opcode f r _ m i
theorem op11 (f : Bool) (r : BitVec 3) (m : Bool) (i : BitVec 7) : Statement (.op11 f r m i) := fun _ _ => header_opcode f r _ m i
theorem op12 (f : Bool) (r : BitVec 3) (m : Bool) (i : BitVec 7) : Statement (.op12 f r m i) := fun _ _ => header_opcode f r _ m i
theorem op13 (f : Bool) (r : BitVec 3) (m : Bool) (i : BitVec 7) : Statement (.op13 f r m i) := fun _ _ => header_opcode f r _ m i
theorem op14 (f : Bool) (r : BitVec 3) (m : Bool) (i : BitVec 7) : Statement (.op14 f r m i) := fun _ _ => header_opcode f r _ m i
theorem op15 (f : Bool) (r : BitVec 3) (m : Bool) (i : BitVec 7) : Statement (.op15 f r m i) := fun _ _ => header_opcode f r _ m i
theorem len7U (f : Bool) (r : BitVec 3) (o : BitVec 4) (i : BitVec 7) : Statement (.len7U f r o i) := fun _ _ => header_mask f r o false i
theorem len7M (f : Bool) (r : BitVec 3) (o : BitVec 4) (i : BitVec 7) : Statement (.len7M f r o i) := fun _ _ => header_mask f r o true i
theorem len16U (f : Bool) (r : BitVec 3) (o : BitVec 4) : Statement (.len16U f r o) := fun _ _ => header_second f r o false 126#7
theorem len16M (f : Bool) (r : BitVec 3) (o : BitVec 4) : Statement (.len16M f r o) := fun _ _ => header_second f r o true 126#7
theorem len64U (f : Bool) (r : BitVec 3) (o : BitVec 4) : Statement (.len64U f r o) := fun _ _ => header_second f r o false 127#7
theorem len64M (f : Bool) (r : BitVec 3) (o : BitVec 4) : Statement (.len64M f r o) := fun _ _ => header_second f r o true 127#7
theorem decode (win : Window) : Statement (.decode win) := fun _ _ => rfl
theorem toggleMask (klen : Nat) (key : Key) (win : Window) : Statement (.toggleMask klen key win) := fun _ _ => rfl
theorem encode (opcode : BitVec 4) (isFinal isClient : Bool) (win : Window) : Statement (.encode opcode isFinal isClient win) := fun _ _ => rfl
theorem readExact (length : Nat) (win : Window) : Statement (.readExact length win) := fun _ _ => rfl
theorem swap16 (b : Vector Byte 2) : Statement (.swap16 b) := fun _ _ => rfl
theorem swap64 (b : Vector Byte 8) : Statement (.swap64 b) := fun _ _ => rfl
theorem rdu16 (b : Vector Byte 2) (little : Bool) : Statement (.rdu16 b little) := fun _ _ => rfl
theorem rdi16 (b : Vector Byte 2) (little : Bool) : Statement (.rdi16 b little) := fun _ _ => rfl
theorem rdu64 (b : Vector Byte 8) (little : Bool) : Statement (.rdu64 b little) := fun _ _ => rfl
theorem rdi64 (b : Vector Byte 8) (little : Bool) : Statement (.rdi64 b little) := fun _ _ => rfl
theorem wru16 (v : BitVec 16) (little : Bool) : Statement (.wru16 v little) := fun _ _ => rfl
theorem wri16 (v : BitVec 16) (little : Bool) : Statement (.wri16 v little) := fun _ _ => rfl
theorem wru64 (v : BitVec 64) (little : Bool) : Statement (.wru64 v little) := fun _ _ => rfl
theorem wri64 (v : BitVec 64) (little : Bool) : Statement (.wri64 v little) := fun _ _ => rfl

end Sys2Proof.Laws.TableRow
end

