-- ==== Sys2Proof/Laws/Step.lean ====
section
/-! SUPPORT. What a step can do, said once: the rows behind `exec`, what the sequencer fetches, and the moves of the block. -/

namespace Sys2Proof.Machine

/-- Registers that hold no result keep the frame invariants. -/
theorem frameSound_none {sizeW : Nat} {r : Results} (ho : r.fOpc = none) (hv : r.fCrV = none) (hf : r.fCrOff = none)
    (hl : r.fCrLen = none) (hp : r.fPlen = none) : FrameSound sizeW r := by
  refine ⟨?_, ?_, ?_, ?_, ?_⟩ <;> simp [ho, hv, hf, hl, hp]

theorem frameSound_empty {sizeW : Nat} : FrameSound sizeW Results.empty := frameSound_none rfl rfl rfl rfl rfl

/-! ### The rows behind `exec` -/

/-- The generic opcode rows have one course. -/
theorem genericRows_exec {f : Bool} {r : BitVec 3} {m : Bool} {i : BitVec 7} {row : Instr} (h : row ∈ genericRows f r m i)
    (s : State) : exec row s = opcodeRow false s := by
  simp only [genericRows, List.mem_cons, List.not_mem_nil, or_false] at h
  rcases h with h | h | h | h | h | h | h | h | h | h | h | h | h | h | h <;> subst h <;> rfl

/-- CLOSE is no generic row. -/
theorem close_not_generic (f : Bool) (r : BitVec 3) (m : Bool) (i : BitVec 7) : Instr.close f r m i ∉ genericRows f r m i := by
  simp [genericRows]

/-- The sixteen opcode rows have one course, in which CLOSE is told apart. -/
theorem opcodeRows_exec {f : Bool} {r : BitVec 3} {m : Bool} {i : BitVec 7} {row : Instr} (h : row ∈ opcodeRows f r m i)
    (s : State) : exec row s = opcodeRow (decide (row = .close f r m i)) s := by
  rcases List.mem_cons.mp h with rfl | h
  · rw [decide_eq_true rfl]; rfl
  · have hne : row ≠ .close f r m i := fun he => close_not_generic f r m i (he ▸ h)
    rw [genericRows_exec h, decide_eq_false hne]

/-- What a header word decodes to as an opcode row is run as the course of its OPC. -/
theorem exec_decodeOpcode (hw : HeaderWord) (s : State) :
    exec (decodeOpcode hw) s = opcodeRow (decide (hwOpc hw = 8#4)) s := by
  unfold decodeOpcode
  split
  case h_16 h0 h1 h2 h3 h4 h5 h6 h7 h8 h9 h10 h11 h12 h13 h14 =>
    rw [decide_eq_false h8]; rfl
  all_goals (rename_i h; rw [h]; rfl)

/-- What a header word decodes to as a length-form row is run as the course of its indicator. -/
theorem exec_decodeLengthForm (hw : HeaderWord) (s : State) :
    exec (decodeLengthForm hw) s =
      if hwInd hw = 126#7 then length16Row (hwMask hw) (hwFin hw) (hwOpc hw) s
      else if hwInd hw = 127#7 then length64Row (hwMask hw) (hwFin hw) (hwOpc hw) s
      else length7Row (hwMask hw) (hwFin hw) (hwOpc hw) (hwInd hw) s := by
  simp only [decodeLengthForm]
  by_cases h6 : hwInd hw = 126#7
  · simp only [if_pos h6]
    cases hwMask hw <;> rfl
  · by_cases h7 : hwInd hw = 127#7
    · simp only [if_neg h6, if_pos h7]
      cases hwMask hw <;> rfl
    · simp only [if_neg h6, if_neg h7]
      cases hwMask hw <;> rfl

/-! ### What is fetched -/

/-- The host's script plays no part in what the sequencer fetches. -/
@[simp] theorem fetch_host (s : State) (hs : List HostMove) : fetch { s with host := hs } = fetch s := rfl

theorem fetch_not_running {s : State} (h : s.phase.running = false) : fetch s = .wait := by
  cases hp : s.phase <;> simp_all [fetch, Phase.running]

theorem fetch_read {s : State} {n c : Nat} (hr : s.phase.reading = true) (hn : s.work.need = some n)
    (hc : s.work.cnt = some c) (hlt : c < n) : fetch s = .read n c := by
  cases hp : s.phase <;> simp_all [fetch, fetchReading, Phase.reading]

/-- The phase reads the header: at the end of its read the sequencer runs the length-form row. -/
def Phase.heading : Phase → Bool
  | .hdr => true
  | .ext16 => true
  | .ext64 => true
  | .keyrd => true
  | .idle => false
  | .payload => false
  | .unmask => false
  | .closemeta => false
  | .rxrun => false
  | .done => false
  | .fault => false

theorem fetch_lengthForm {s : State} {n : Nat} {hw : HeaderWord} (hr : s.phase.heading = true)
    (hn : s.work.need = some n) (hc : s.work.cnt = some n) (hb : headerBytes s.work.hb = some hw) :
    fetch s = .word (.lengthForm hw) := by
  cases hp : s.phase <;> simp_all [fetch, fetchReading, Phase.heading, fetchLengthForm]

theorem fetch_payload {s : State} {n : Nat} {hw : HeaderWord} (hp : s.phase = .payload) (hn : s.work.need = some n)
    (hc : s.work.cnt = some n) (hb : headerBytes s.work.hb = some hw) : fetch s = .word (.opcode hw) := by
  simp [fetch, fetchReading, hp, hn, hc, fetchOpcode, hb]

theorem fetch_opcode {s : State} {hw : HeaderWord} (hp : s.phase = .unmask ∨ s.phase = .closemeta)
    (hb : headerBytes s.work.hb = some hw) : fetch s = .word (.opcode hw) := by
  rcases hp with hp | hp <;> simp [fetch, hp, fetchOpcode, hb]

theorem fetch_endRead {s : State} {n : Nat} (hp : s.phase = .rxrun) (hn : s.work.need = some n) (hc : s.work.cnt = some n) :
    fetch s = .endRead := by
  simp [fetch, fetchReading, hp, hn, hc]

/-- Everything the sequencer can fetch, with the registers it found. -/
theorem fetch_cases (s : State) :
    (s.phase.running = false ∧ fetch s = .wait) ∨ (∃ r, fetch s = .missing r) ∨
    (∃ n c, s.phase.reading = true ∧ s.work.need = some n ∧ s.work.cnt = some c ∧ c < n ∧ fetch s = .read n c) ∨
    (∃ n c, s.phase = .rxrun ∧ s.work.need = some n ∧ s.work.cnt = some c ∧ n ≤ c ∧ fetch s = .endRead) ∨
    (∃ n c hw, s.phase.heading = true ∧ s.work.need = some n ∧ s.work.cnt = some c ∧ n ≤ c ∧
      headerBytes s.work.hb = some hw ∧ fetch s = .word (.lengthForm hw)) ∨
    (∃ hw, (s.phase = .payload ∨ s.phase = .unmask ∨ s.phase = .closemeta) ∧ headerBytes s.work.hb = some hw ∧
      fetch s = .word (.opcode hw)) := by
  cases hp : s.phase <;> cases hn : s.work.need <;> cases hc : s.work.cnt <;> cases hb : headerBytes s.work.hb <;>
    simp [fetch, fetchReading, fetchLengthForm, fetchOpcode, hp, hn, hc, hb, Phase.running, Phase.reading, Phase.heading] <;>
    (try split) <;> simp_all

/-! ### A step of the block -/

/-- Where the block moves, the step is the block's, at a state that differs at most in the host's script. -/
theorem BlockMoves.step_eq {s t : State} (h : BlockMoves s t) : ∃ hs, t = { s with host := hs } ∧ step s = blockStep t := by
  rcases h with ⟨h, rfl⟩ | ⟨hs, h, rfl⟩ | ⟨hs, h, hr, rfl⟩
  · exact ⟨_, rfl, by simp [step, advance, h]⟩
  · exact ⟨hs, rfl, by simp [step, advance, h]⟩
  · exact ⟨_, rfl, by simp [step, advance, h, hr]⟩

theorem blockStep_wait {s : State} (h : fetch s = .wait) : blockStep s = .next s := by simp [blockStep, h]

theorem blockStep_read {s : State} {n c : Nat} (h : fetch s = .read n c) : blockStep s = readStep n c s := by
  simp [blockStep, h]

theorem blockStep_endRead {s : State} (h : fetch s = .endRead) : blockStep s = .next (finished Results.empty s) := by
  simp [blockStep, h, finish]

theorem blockStep_missing {s : State} {r : Reg} (h : fetch s = .missing r) : blockStep s = .fault (.noValue r) := by
  simp [blockStep, h, noValueStop]

theorem blockStep_lengthForm {s : State} {hw : HeaderWord} (h : fetch s = .word (.lengthForm hw)) :
    blockStep s = exec (decodeLengthForm hw) s := by
  simp [blockStep, h, runWord, decode]

theorem blockStep_opcode {s : State} {hw : HeaderWord} (h : fetch s = .word (.opcode hw)) :
    blockStep s = opcodeRow (decide (hwOpc hw = 8#4)) s := by
  simp [blockStep, h, runWord, decode, exec_decodeOpcode]

/-! ### The courses of the rows -/

/-- Everything the end of a payload can do. -/
theorem payloadDone_cases (isClose : Bool) (s : State) :
    (isClose = true ∧ payloadDone isClose s = .next { s with phase := .closemeta }) ∨
    (isClose = false ∧ payloadDone isClose s = frameDone noCloseMeta s) := by
  cases isClose <;> simp [payloadDone]

/-- Everything an opcode row can do in a phase in which the sequencer runs it. -/
theorem opcodeRow_cases (isClose : Bool) (s : State) :
    (∃ r, opcodeRow isClose s = .fault (.noValue r)) ∨ opcodeRow isClose s = .refused .notItsPhase ∨
    (s.phase = .payload ∧ s.work.mask = some true ∧ opcodeRow isClose s = .next { s with phase := .unmask }) ∨
    (s.phase = .payload ∧ s.work.mask = some false ∧ opcodeRow isClose s = payloadDone isClose s) ∨
    (∃ k l, s.phase = .unmask ∧ keyBytes s.key = some k ∧ s.work.len = some l ∧
      opcodeRow isClose s = payloadDone isClose { s with pbuf := toggleMask k (someWindow s) s.pbuf l.toNat }) ∨
    (∃ l, s.phase = .closemeta ∧ isClose = true ∧ s.work.len = some l ∧
      opcodeRow isClose s = frameDone (closeMetaOf s.params s.pbuf (someWindow s) l) s) := by
  cases hp : s.phase
  case payload =>
    cases hm : s.work.mask with
    | none => exact .inl ⟨.mask, by simp [opcodeRow, hp, hm]⟩
    | some m => cases m <;> simp [opcodeRow, hp, hm]
  case unmask =>
    cases hk : keyBytes s.key <;> cases hl : s.work.len <;> simp [opcodeRow, hp, unmaskPayload, hk, hl]
  case closemeta =>
    cases isClose <;> cases hl : s.work.len <;> simp [opcodeRow, hp, closeMetaStep, hl]
  all_goals simp [opcodeRow, hp]

/-- `s` with the fields of a header extracted and the read of the extended length begun. -/
def extending (p : Phase) (n : Nat) (f : Bool) (o : BitVec 4) (m : Bool) (i : BitVec 7) (s : State) : State :=
  startRead p n (extractFields f o m i s)

/-- Everything a length-form row can do: it extracts the fields, assembles the length, or goes on after the key. -/
theorem lengthForm_cases (hw : HeaderWord) (s : State) :
    (∃ r, exec (decodeLengthForm hw) s = .fault (.noValue r)) ∨ exec (decodeLengthForm hw) s = .refused .notItsPhase ∨
    (s.phase = .hdr ∧ hwInd hw = 126#7 ∧ exec (decodeLengthForm hw) s =
      .next (extending .ext16 2 (hwFin hw) (hwOpc hw) (hwMask hw) 126#7 s)) ∨
    (s.phase = .hdr ∧ hwInd hw = 127#7 ∧ exec (decodeLengthForm hw) s =
      .next (extending .ext64 8 (hwFin hw) (hwOpc hw) (hwMask hw) 127#7 s)) ∨
    (s.phase = .hdr ∧ hwInd hw ≠ 126#7 ∧ hwInd hw ≠ 127#7 ∧ exec (decodeLengthForm hw) s =
      lengthKnown (hwMask hw) ((hwInd hw).setWidth 64) (extractFields (hwFin hw) (hwOpc hw) (hwMask hw) (hwInd hw) s)) ∨
    (∃ v, s.phase = .ext16 ∧ hwInd hw = 126#7 ∧ ext16Value s.work.xb = some v ∧
      exec (decodeLengthForm hw) s = lengthKnown (hwMask hw) (v.setWidth 64) s) ∨
    (∃ v, s.phase = .ext64 ∧ hwInd hw = 127#7 ∧ ext64Value s.work.xb = some v ∧
      exec (decodeLengthForm hw) s = lengthKnown (hwMask hw) v s) ∨
    (s.phase = .keyrd ∧ hwMask hw = true ∧ exec (decodeLengthForm hw) s = startPayload s) := by
  rw [exec_decodeLengthForm]
  have hne : (126#7 : BitVec 7) ≠ 127#7 := by decide
  by_cases h6 : hwInd hw = 126#7
  · simp only [h6, if_true]
    cases hp : s.phase <;> cases hm : hwMask hw <;> cases hx : ext16Value s.work.xb <;>
      simp [length16Row, hp, hx, keyKnown, extending]
  · by_cases h7 : hwInd hw = 127#7
    · simp only [h7, if_true, if_neg hne.symm]
      cases hp : s.phase <;> cases hm : hwMask hw <;> cases hx : ext64Value s.work.xb <;>
        simp [length64Row, hp, hx, keyKnown, extending]
    · simp only [h6, h7, if_false]
      cases hp : s.phase <;> cases hm : hwMask hw <;> simp [length7Row, hp, keyKnown, h6, h7]

/-- Where delivered bytes can go. -/
theorem storeDelivered_cases (i : Nat) (bs : List Byte) (s : State) :
    (s.phase.reading = false ∧ storeDelivered i bs s = .refused .notItsPhase) ∨
    (s.phase = .hdr ∧ storeDelivered i bs s = .next { s with work := { s.work with hb := storeFile s.work.hb i bs } }) ∨
    ((s.phase = .ext16 ∨ s.phase = .ext64) ∧
      storeDelivered i bs s = .next { s with work := { s.work with xb := storeFile s.work.xb i bs } }) ∨
    (s.phase = .keyrd ∧ storeDelivered i bs s = .next { s with key := storeFile s.key i bs }) ∨
    ((s.phase = .payload ∨ s.phase = .rxrun) ∧
      storeDelivered i bs s = .next { s with pbuf := winWriteAll (someWindow s) s.pbuf i bs }) := by
  cases hp : s.phase <;> simp [storeDelivered, hp, Phase.reading]

/-! ### Commands -/

/-- The state a command that reads nothing leaves when it is done. -/
theorem finished_accept (r : Results) (s : State) : finished r (accept s) =
    { s with phase := .done, err := .none, work := Working.empty, key := KeyFile.empty, win := none, res := r } := rfl

/-- The state a command leaves that is turned into a fault at its issue. -/
theorem raised_accept (e : Err) (s : State) : raised e (accept s) =
    { s with phase := .fault, err := e, work := Working.empty, key := KeyFile.empty, win := none, res := Results.empty } :=
  rfl

/-- Everything TOGGLE_MASK can do. -/
theorem toggleMask_cases (klen : Nat) (k : Key) (w : Window) (s : State) :
    (s.phase.running = true ∧ exec (.toggleMask klen k w) s = .next s) ∨
    (s.phase.running = false ∧ w.valid s.params.sizeW = false ∧ exec (.toggleMask klen k w) s = .refused .notAWindow) ∨
    (s.phase.running = false ∧ w.valid s.params.sizeW = true ∧ klen ≠ 4 ∧
      exec (.toggleMask klen k w) s = .next (raised .invalidMaskKeyLength (accept s))) ∨
    (s.phase.running = false ∧ w.valid s.params.sizeW = true ∧ klen = 4 ∧ exec (.toggleMask klen k w) s =
      .next (finished Results.empty (accept { s with pbuf := toggleMask k w s.pbuf w.cap }))) := by
  rcases issueWindow_cases w s fun s' =>
      if klen ≠ 4 then raiseErr .invalidMaskKeyLength s'
      else finish Results.empty { { s' with key := keyFileOf k } with pbuf := toggleMask k w s'.pbuf w.cap }
    with ⟨h, e⟩ | ⟨h, hv, e⟩ | ⟨h, hv, e⟩
  · exact .inl ⟨h, e⟩
  · exact .inr (.inl ⟨h, hv, e⟩)
  · by_cases hk : klen = 4
    · refine .inr (.inr (.inr ⟨h, hv, hk, ?_⟩))
      refine Eq.trans e ?_
      simp only [hk, ne_eq, not_true_eq_false, if_false]
      rfl
    · refine .inr (.inr (.inl ⟨h, hv, hk, ?_⟩))
      refine Eq.trans e ?_
      simp only [ne_eq, hk, not_false_eq_true, if_true]
      rfl

/-- Everything READ_EXACT can do when it is issued. -/
theorem readExact_cases (n : Nat) (w : Window) (s : State) :
    (s.phase.running = true ∧ exec (.readExact n w) s = .next s) ∨
    (s.phase.running = false ∧ w.valid s.params.sizeW = false ∧ exec (.readExact n w) s = .refused .notAWindow) ∨
    (s.phase.running = false ∧ w.valid s.params.sizeW = true ∧ n ≠ 0 ∧ w.cap < n ∧
      exec (.readExact n w) s = .next (raised .bufferTooSmall (accept s))) ∨
    (s.phase.running = false ∧ w.valid s.params.sizeW = true ∧ n = 0 ∧
      exec (.readExact n w) s = .next (finished Results.empty (accept s))) ∨
    (s.phase.running = false ∧ w.valid s.params.sizeW = true ∧ n ≠ 0 ∧ n ≤ w.cap ∧
      exec (.readExact n w) s = .next (startRead .rxrun n { accept s with win := some w })) := by
  rcases issueWindow_cases w s fun s' => startReadExact n w { s' with win := some w }
    with ⟨h, e⟩ | ⟨h, hv, e⟩ | ⟨h, hv, e⟩
  · exact .inl ⟨h, e⟩
  · exact .inr (.inl ⟨h, hv, e⟩)
  · by_cases h0 : n = 0
    · refine .inr (.inr (.inr (.inl ⟨h, hv, h0, Eq.trans e ?_⟩)))
      simp only [startReadExact, if_pos h0]
      rfl
    · by_cases hk : w.cap < n
      · refine .inr (.inr (.inl ⟨h, hv, h0, hk, Eq.trans e ?_⟩))
        simp only [startReadExact, if_neg h0, if_pos hk]
        rfl
      · refine .inr (.inr (.inr (.inr ⟨h, hv, h0, by omega, Eq.trans e ?_⟩)))
        simp only [startReadExact, if_neg h0, if_neg hk]

/-- Everything DECODE can do when it is issued. -/
theorem decode_cases (w : Window) (s : State) :
    (s.phase.running = true ∧ exec (.decode w) s = .next s) ∨
    (s.phase.running = false ∧ w.valid s.params.sizeW = false ∧ exec (.decode w) s = .refused .notAWindow) ∨
    (s.phase.running = false ∧ w.valid s.params.sizeW = true ∧
      exec (.decode w) s = .next (startRead .hdr 2 { accept s with win := some w })) :=
  issueWindow_cases w s fun s' => .next (startRead .hdr 2 { s' with win := some w })

/-- The state a finished ENCODE of a server leaves, of an accepted command. -/
def encodedServer (o : BitVec 4) (f : Bool) (w : Window) (s : State) : State :=
  finished { Results.empty with eWritten := some (writtenCount (headerLength false w.cap + w.cap)) }
    (emit (winBytes w s.pbuf w.cap) (emit (headerBytesOf o f false w.cap) s))

/-- The state a finished ENCODE of a client leaves, of an accepted command, for the drawn key `k`. -/
def encodedClient (o : BitVec 4) (f : Bool) (w : Window) (k : Key) (s : State) : State :=
  finished { Results.empty with eWritten := some (writtenCount (headerLength true w.cap + w.cap)) }
    { s with
      pbuf := toggleMask k w s.pbuf w.cap
      out := s.out ++ headerBytesOf o f true w.cap ++ k.toList
        ++ winBytes w (toggleMask k w s.pbuf w.cap) w.cap }

/-- The random source answers the next scripted draw, or the free value of the counter. -/
theorem rand4_cases (s : State) :
    (∃ k ks, s.rng = k :: ks ∧ rand4 s = (k, { s with rng := ks })) ∨
    (s.rng = [] ∧ rand4 s = (Config.freeKey s.draws, { s with draws := s.draws + 1 })) := by
  cases h : s.rng with
  | nil => exact .inr ⟨rfl, by simp [rand4, h]⟩
  | cons k ks => exact .inl ⟨k, ks, rfl, by simp [rand4, h]⟩

/-- Everything ENCODE can do. -/
theorem encode_cases (o : BitVec 4) (f c : Bool) (w : Window) (s : State) :
    ((s.phase.running = true ∨ s.params.hasEncoder = false) ∧ exec (.encode o f c w) s = .next s) ∨
    (s.phase.running = false ∧ s.params.hasEncoder = true ∧ w.valid s.params.sizeW = false ∧
      exec (.encode o f c w) s = .refused .notAWindow) ∨
    (s.phase.running = false ∧ s.params.hasEncoder = true ∧ w.valid s.params.sizeW = true ∧
      ((c = false ∧ exec (.encode o f c w) s = .next (encodedServer o f w (accept s))) ∨
       (c = true ∧ ∃ k ks, s.rng = k :: ks ∧
          exec (.encode o f c w) s = .next (encodedClient o f w k (accept { s with rng := ks }))) ∨
       (c = true ∧ s.rng = [] ∧ exec (.encode o f c w) s =
          .next (encodedClient o f w (Config.freeKey s.draws) (accept { s with draws := s.draws + 1 }))))) := by
  have hx : exec (.encode o f c w) s =
      if s.params.hasEncoder then issueWindow w s (encodeBody o f c w) else .next s := rfl
  rw [hx]
  cases he : s.params.hasEncoder with
  | false => exact .inl ⟨.inr rfl, rfl⟩
  | true =>
    rw [if_pos rfl]
    rcases issueWindow_cases w s (encodeBody o f c w) with ⟨h, e⟩ | ⟨h, hv, e⟩ | ⟨h, hv, e⟩
    · exact .inl ⟨.inl h, e⟩
    · exact .inr (.inl ⟨h, rfl, hv, e⟩)
    · refine .inr (.inr ⟨h, rfl, hv, ?_⟩)
      rw [e]
      cases c with
      | false => exact .inl ⟨rfl, rfl⟩
      | true =>
        right
        rcases rand4_cases s with ⟨k, ks, hr, hd⟩ | ⟨hr, hd⟩
        · refine .inl ⟨rfl, k, ks, hr, ?_⟩
          simp [encodeBody, maskForClient, rand4, emit, accept, clearOperation, hr, finish, finished, encodedClient]
        · refine .inr ⟨rfl, hr, ?_⟩
          simp [encodeBody, maskForClient, rand4, emit, accept, clearOperation, hr, finish, finished, encodedClient]

end Sys2Proof.Machine
end

