-- ==== Sys2Proof/Laws/Read.lean ====
section
/-! SUPPORT. Runs of the block: composition, and the loop of the exact read (44_exact_read.md R151) from any point of it to its
end, whatever the sizes of the answers. -/

namespace Sys2Proof.Machine

/-! ### Runs -/

/-- The host's run of the machine is the model's own. -/
theorem core_run_eq (k : Nat) (s : State) : Host.Core.run Sys2Proof.core k s = runSteps k s := by
  induction k generalizing s with
  | zero => rfl
  | succ k ih =>
    have hc : Sys2Proof.core.step s = step s := rfl
    simp only [Host.Core.run, runSteps, hc]
    cases step s with
    | next t => exact ih t
    | fault r => rfl
    | refused r => rfl

/-- A run that begins with a step. -/
theorem run_step {s t : State} (k : Nat) (h : step s = .next t) : runSteps (k + 1) s = runSteps k t := by
  simp only [runSteps, h]

/-- One run after another. -/
theorem run_append {s t : State} (j k : Nat) (h : runSteps j s = .next t) : runSteps (j + k) s = runSteps k t := by
  induction j generalizing s with
  | zero =>
    cases h
    rw [Nat.zero_add]
  | succ j ih =>
    cases hs : step s with
    | next u =>
      rw [run_step j hs] at h
      rw [Nat.add_right_comm, run_step _ hs]
      exact ih h
    | fault r => simp [runSteps, hs] at h
    | refused r => simp [runSteps, hs] at h

/-! ### The loop of the exact read -/

/-- `s` with `bs` stored from index `i` on where its phase stores what the stream delivers. -/
def stored (i : Nat) (bs : List Byte) (s : State) : State :=
  match s.phase with
  | .hdr => { s with work := { s.work with hb := storeFile s.work.hb i bs } }
  | .ext16 => { s with work := { s.work with xb := storeFile s.work.xb i bs } }
  | .ext64 => { s with work := { s.work with xb := storeFile s.work.xb i bs } }
  | .keyrd => { s with key := storeFile s.key i bs }
  | .payload => { s with pbuf := winWriteAll (someWindow s) s.pbuf i bs }
  | .rxrun => { s with pbuf := winWriteAll (someWindow s) s.pbuf i bs }
  | .idle => s
  | .done => s
  | .fault => s
  | .unmask => s
  | .closemeta => s

theorem storeDelivered_eq_stored (i : Nat) (bs : List Byte) {s : State} (hr : s.phase.reading = true) :
    storeDelivered i bs s = .next (stored i bs s) := by
  cases hp : s.phase <;> simp_all [storeDelivered, stored, Phase.reading]

theorem stored_nil (i : Nat) (s : State) : stored i [] s = s := by
  unfold stored
  split <;> rfl

/-- The state in which the exact read goes on: `bs` taken off the stream and stored, the answers `ds` left. -/
def readOn (c : Nat) (bs : List Byte) (ds : List ReadDraw) (s : State) : State :=
  stored c bs (counted (delivered { s with answers := ds } bs) (c + bs.length))

/-- One answer of data, as a step. -/
theorem step_readOn {s : State} {n c : Nat} {size : Nat} {ds : List ReadDraw} (hh : s.host = [])
    (hr : s.phase.reading = true) (hn : s.work.need = some n) (hc : s.work.cnt = some c)
    (hlt : c < n) (hcan : s.cancel = false) (ha : s.answers = .data size :: ds) (hi : s.input ≠ []) :
    step s = .next (readOn c (deliveryOf (n - c) size s.input) ds s) := by
  have h1 : step s = blockStep s := by simp [step, advance, hh]
  have hpos := deliveryOf_pos (n := n - c) size (by omega) hi
  have hne : deliveryOf (n - c) size s.input ≠ [] := List.length_pos_iff.mp hpos
  rw [h1, blockStep_read (fetch_read hr hn hc hlt)]
  rcases readStep_cases n c s with ⟨_, h, _⟩ | ⟨h, _⟩ | ⟨_, ds', h, _⟩ | ⟨_, size', ds', c', h, h'⟩
  · rw [ha] at h; cases h
  · rw [hcan] at h; cases h
  · rw [ha] at h; cases h
  · rcases h with ⟨h, rfl⟩ | ⟨h, _⟩
    · rw [ha] at h
      cases h
      rcases h' with ⟨he, _⟩ | ⟨_, e⟩
      · exact absurd he hne
      · have hcan' : answered s ds false = { s with answers := ds } := by simp [answered, ← hcan]
        rw [e, hcan']
        exact storeDelivered_eq_stored _ _ hr
    · rw [ha] at h; cases h

/-- Reading twice in a row is reading once. -/
theorem readOn_readOn (s : State) (c : Nat) (bs cs : List Byte) (ds ds' : List ReadDraw) :
    readOn (c + bs.length) cs ds' (readOn c bs ds s) = readOn c (bs ++ cs) ds' s := by
  have hd : (s.input.drop bs.length).drop cs.length = s.input.drop (bs ++ cs).length := by
    rw [List.drop_drop, List.length_append]
  have hs : s.spos + bs.length + cs.length = s.spos + (bs ++ cs).length := by
    rw [List.length_append, Nat.add_assoc]
  have hl : c + bs.length + cs.length = c + (bs ++ cs).length := by
    rw [List.length_append, Nat.add_assoc]
  cases hp : s.phase <;>
    simp only [readOn, stored, counted, delivered, hp, someWindow, storeFile_append, winWriteAll_append, hd, hs, hl]

@[simp] theorem readOn_phase (c : Nat) (bs : List Byte) (ds : List ReadDraw) (s : State) :
    (readOn c bs ds s).phase = s.phase := by
  unfold readOn stored; split <;> rfl

@[simp] theorem readOn_win (c : Nat) (bs : List Byte) (ds : List ReadDraw) (s : State) :
    (readOn c bs ds s).win = s.win := by
  unfold readOn stored; split <;> rfl

@[simp] theorem readOn_host (c : Nat) (bs : List Byte) (ds : List ReadDraw) (s : State) :
    (readOn c bs ds s).host = s.host := by
  unfold readOn stored; split <;> rfl

@[simp] theorem readOn_cancel (c : Nat) (bs : List Byte) (ds : List ReadDraw) (s : State) :
    (readOn c bs ds s).cancel = s.cancel := by
  unfold readOn stored; split <;> rfl

@[simp] theorem readOn_answers (c : Nat) (bs : List Byte) (ds : List ReadDraw) (s : State) :
    (readOn c bs ds s).answers = ds := by
  unfold readOn stored; split <;> rfl

@[simp] theorem readOn_input (c : Nat) (bs : List Byte) (ds : List ReadDraw) (s : State) :
    (readOn c bs ds s).input = s.input.drop bs.length := by
  unfold readOn stored; split <;> rfl

@[simp] theorem readOn_need (c : Nat) (bs : List Byte) (ds : List ReadDraw) (s : State) :
    (readOn c bs ds s).work.need = s.work.need := by
  unfold readOn stored; split <;> rfl

@[simp] theorem readOn_cnt (c : Nat) (bs : List Byte) (ds : List ReadDraw) (s : State) :
    (readOn c bs ds s).work.cnt = some (c + bs.length) := by
  unfold readOn stored; split <;> rfl

/-- From any point of the loop, where every answer to come is data and there are enough of them and of bytes, a run of at most
one step per missing byte leads to its end: exactly the missing bytes are taken off the stream and stored. -/
theorem read_run (m : Nat) : ∀ (s : State) (n c : Nat), s.host = [] → s.phase.reading = true →
    s.work.need = some n → s.work.cnt = some c → c ≤ n → n - c ≤ m → s.cancel = false →
    (∀ d ∈ s.answers, ∃ size, d = .data size) → n - c ≤ s.answers.length → n - c ≤ s.input.length →
    ∃ (k : Nat) (ds : List ReadDraw), k ≤ n - c ∧ (∀ d ∈ ds, ∃ size, d = .data size) ∧
      s.answers.length ≤ ds.length + (n - c) ∧
      runSteps k s = .next (if c = n then s else readOn c (s.input.take (n - c)) ds s) := by
  induction m with
  | zero =>
    intro s n c _ _ _ _ hle hm _ hd _ _
    exact ⟨0, s.answers, by omega, hd, by omega, by rw [if_pos (by omega)]; rfl⟩
  | succ m ih =>
    intro s n c hh hr hn hc hle hm hcan hd hal hil
    by_cases he : c = n
    · exact ⟨0, s.answers, by omega, hd, by omega, by rw [if_pos he]; rfl⟩
    · obtain ⟨d, ds, ha⟩ : ∃ d ds, s.answers = d :: ds := by
        cases ha : s.answers with
        | nil => rw [ha] at hal; simp at hal; omega
        | cons d ds => exact ⟨d, ds, rfl⟩
      obtain ⟨size, rfl⟩ := hd d (by rw [ha]; exact List.mem_cons_self)
      have hi : s.input ≠ [] := by
        intro hi; rw [hi] at hil; simp at hil; omega
      have h1 := step_readOn hh hr hn hc (by omega) hcan ha hi
      have hpos := deliveryOf_pos (n := n - c) size (by omega) hi
      have hlen := deliveryOf_length_le (n - c) size s.input
      have htake := deliveryOf_eq_take (n - c) size s.input
      generalize deliveryOf (n - c) size s.input = bs at h1 hpos hlen htake
      obtain ⟨k, ds', hk, hd', hl', hrun⟩ := ih (readOn c bs ds s) n (c + bs.length)
        (by simpa using hh) (by simpa using hr) (by simpa using hn) (by simp) (by omega) (by omega)
        (by simpa using hcan) (by intro d hm; exact hd d (by rw [ha]; simp at hm; exact List.mem_cons_of_mem _ hm))
        (by rw [ha] at hal; simp at hal ⊢; omega) (by simp; omega)
      refine ⟨k + 1, if c + bs.length = n then ds else ds', by omega, ?_, ?_, ?_⟩
      · split
        · intro d hm; exact hd d (by rw [ha]; exact List.mem_cons_of_mem _ hm)
        · exact hd'
      · rw [ha]
        simp at hl' ⊢
        split <;> omega
      · rw [run_step k h1, hrun, if_neg he]
        split
        · next hend =>
          congr 2
          rw [show n - c = bs.length by omega]
          exact htake
        · next hmore =>
          rw [readOn_readOn]
          congr 2
          have hsplit : s.input.take (n - c) =
              s.input.take bs.length ++ (s.input.drop bs.length).take (n - (c + bs.length)) := by
            rw [show n - c = bs.length + (n - (c + bs.length)) by omega, List.take_add]
          rw [hsplit, ← htake, readOn_input]

end Sys2Proof.Machine
end

