-- ==== Sys2Proof/Tests/Slice0.lean ====
section
/-! SUPPORT. Small tests, each of one step or one word, with the expected value from spec/95_test_vectors.md (the vector is named)
or computed by hand from the rule named; and for each obligation with hypotheses a witness that meets them together. -/

namespace Sys2Proof.Tests

open Sys2Proof.Machine

/-! ### Helpers -/

/-- The state of an outcome that goes on. -/
def nextOf : Outcome → Option State
  | .next s => some s
  | .fault _ => none
  | .refused _ => none

/-- The parameters of 93_implementation_defined.md G1, cut to two codes. -/
def params : Params := { sizeW := 32, recognised := [1000#16, 1002#16], noStatus := 1005#16, hasEncoder := true }

/-- After reset, with the parameters above. -/
def idle : State := { State.reset with params := params }

/-- A window of eight bytes at address 16. -/
def win : Window := ⟨16, 8⟩

/-- A window at the top of the address space: `base + cap = 2^32`. -/
def topWin : Window := ⟨0xFFFFFFFF, 1⟩

/-- `base + cap = 2^32 + 1`: no window. -/
def noWin : Window := ⟨0xFFFFFFFF, 2⟩

/-- The key of vector T5-h. -/
def key : Key := #v[0xA1#8, 0xB2#8, 0xC3#8, 0xD4#8]

/-- A memory that holds `bs` from address 16 on (no byte of which is zero). -/
def memoryOf (bs : List Byte) : Memory := (List.range bs.length).zip bs |>.map fun p => (16 + p.1, p.2)

/-- A running operation in phase `p`, its header `hw` read and its fields extracted, `LEN`, `NEED` and `CNT` as given, the
extended length bytes 00 .. 00 and the key read. -/
def running (p : Phase) (hw : HeaderWord) (len : Len) (need cnt : Nat) : State :=
  { idle with
    phase := p
    win := some win
    key := keyFileOf key
    work := { hb := #v[some (hwByte0 hw), some (hwByte1 hw)], opc := some (hwOpc hw), ind := some (hwInd hw),
              xb := Vector.replicate 8 (some 0#8), len := some len, need := some need, cnt := some cnt,
              fin := some (hwFin hw), mask := some (hwMask hw) } }

/-- The argument lines of a command with the window `w`. -/
def withWin (w : Window) : Args := { Args.zero with win := w }

/-! ### WellFormed refuses ill-formed terms -/

theorem test_wf_window_top : (Instr.decode topWin).wellFormed 32 = true := by decide
theorem test_wf_decode_refuses : (Instr.decode noWin).wellFormed 32 = false := by decide
theorem test_wf_toggleMask_refuses : (Instr.toggleMask 4 key noWin).wellFormed 32 = false := by decide
theorem test_wf_encode_refuses : (Instr.encode 1#4 true true noWin).wellFormed 32 = false := by decide
theorem test_wf_readExact_refuses : (Instr.readExact 0 noWin).wellFormed 32 = false := by decide
theorem test_wf_klen_refuses : (Instr.toggleMask (2 ^ 32) key win).wellFormed 32 = false := by decide
theorem test_wf_length_refuses : (Instr.readExact (2 ^ 32) win).wellFormed 32 = false := by decide
theorem test_wf_len7U_refuses : (Instr.len7U true 0#3 1#4 126#7).wellFormed 32 = false := by decide
theorem test_wf_len7M_refuses : (Instr.len7M true 0#3 1#4 127#7).wellFormed 32 = false := by decide

/-! ### Words written out bit by bit: FIN, RSV, OPC | MASK, IND (30_encoding.md R61, R62, R68, R72) -/

/-- The sixteen opcode rows, the values of OPC from R68; `1 101 oooo 1 0000011`. -/
theorem test_decode_opcode_rows :
    [decode (.opcode 0b1101000010000011#16), decode (.opcode 0b1101000110000011#16), decode (.opcode 0b1101001010000011#16),
     decode (.opcode 0b1101001110000011#16), decode (.opcode 0b1101010010000011#16), decode (.opcode 0b1101010110000011#16),
     decode (.opcode 0b1101011010000011#16), decode (.opcode 0b1101011110000011#16), decode (.opcode 0b1101100010000011#16),
     decode (.opcode 0b1101100110000011#16), decode (.opcode 0b1101101010000011#16), decode (.opcode 0b1101101110000011#16),
     decode (.opcode 0b1101110010000011#16), decode (.opcode 0b1101110110000011#16), decode (.opcode 0b1101111010000011#16),
     decode (.opcode 0b1101111110000011#16)] =
    [.ok (.cont true 5#3 true 3#7), .ok (.text true 5#3 true 3#7), .ok (.bin true 5#3 true 3#7), .ok (.op3 true 5#3 true 3#7),
     .ok (.op4 true 5#3 true 3#7), .ok (.op5 true 5#3 true 3#7), .ok (.op6 true 5#3 true 3#7), .ok (.op7 true 5#3 true 3#7),
     .ok (.close true 5#3 true 3#7), .ok (.ping true 5#3 true 3#7), .ok (.pong true 5#3 true 3#7),
     .ok (.op11 true 5#3 true 3#7), .ok (.op12 true 5#3 true 3#7), .ok (.op13 true 5#3 true 3#7),
     .ok (.op14 true 5#3 true 3#7), .ok (.op15 true 5#3 true 3#7)] := by
  repeat' constructor

/-- The six length-form rows of R72, at both ends of the 7-bit form; vectors T1-a, T1-b, T1-d, T1-e, T1-f, T1-g. -/
theorem test_decode_length_rows :
    [decode (.lengthForm 0b0000000000000000#16), decode (.lengthForm 0b1000100001111101#16),
     decode (.lengthForm 0b0111000010000000#16), decode (.lengthForm 0b1000000110000101#16),
     decode (.lengthForm 0b0000001001111110#16), decode (.lengthForm 0b1000001011111110#16),
     decode (.lengthForm 0b1000001001111111#16), decode (.lengthForm 0b1111111111111111#16)] =
    [.ok (.len7U false 0#3 0#4 0#7), .ok (.len7U true 0#3 8#4 125#7), .ok (.len7M false 7#3 0#4 0#7),
     .ok (.len7M true 0#3 1#4 5#7), .ok (.len16U false 0#3 2#4), .ok (.len16M true 0#3 2#4), .ok (.len64U true 0#3 2#4),
     .ok (.len64M true 7#3 15#4)] := by
  repeat' constructor

/-- The fourteen codes of R78, with the arguments of R79; 0x0 and 0xF name nothing (R81). -/
theorem test_decode_commands :
    let a : Args := { win := win, klen := 4, key := key, opcode := 9#4, isFinal := true, isClient := false, length := 3,
                      b := #v[1#8, 2#8, 3#8, 4#8, 5#8, 6#8, 7#8, 8#8], little := true, v := 0x1122334455667788#64 }
    [decode (.command 0b0001#4 a), decode (.command 0b0010#4 a), decode (.command 0b0011#4 a), decode (.command 0b0100#4 a),
     decode (.command 0b0101#4 a), decode (.command 0b0110#4 a), decode (.command 0b0111#4 a), decode (.command 0b1000#4 a),
     decode (.command 0b1001#4 a), decode (.command 0b1010#4 a), decode (.command 0b1011#4 a), decode (.command 0b1100#4 a),
     decode (.command 0b1101#4 a), decode (.command 0b1110#4 a), decode (.command 0b0000#4 a), decode (.command 0b1111#4 a)] =
    [.ok (.decode win), .ok (.toggleMask 4 key win), .ok (.encode 9#4 true false win), .ok (.readExact 3 win),
     .ok (.swap16 #v[1#8, 2#8]), .ok (.swap64 #v[1#8, 2#8, 3#8, 4#8, 5#8, 6#8, 7#8, 8#8]),
     .ok (.rdu16 #v[1#8, 2#8] true), .ok (.rdi16 #v[1#8, 2#8] true),
     .ok (.rdu64 #v[1#8, 2#8, 3#8, 4#8, 5#8, 6#8, 7#8, 8#8] true),
     .ok (.rdi64 #v[1#8, 2#8, 3#8, 4#8, 5#8, 6#8, 7#8, 8#8] true), .ok (.wru16 0x7788#16 true), .ok (.wri16 0x7788#16 true),
     .ok (.wru64 0x1122334455667788#64 true), .ok (.wri64 0x1122334455667788#64 true), .error (.noOperation 0#4),
     .error (.noOperation 15#4)] := by
  repeat' constructor

/-- The table's number of TEXT, of LEN16.M and of SWAP16. -/
theorem test_table_words :
    decodeTableWord 16 0x0100 = some (.text false 0#3 false 0#7) ∧ decodeTableWord 16 0x00FE = some (.len16M false 0#3 0#4) ∧
      decodeTableWord 8 0x5 = some (.swap16 #v[0#8, 0#8]) ∧ decodeTableWord 8 0xF = none := by
  refine ⟨rfl, rfl, rfl, rfl⟩

/-! ### Length-form rows -/

/-- T2-b: `82 01` has LEN 1 and begins the payload read. R101, R151: `81 00` goes on without a read, NEED and CNT as they were. -/
theorem test_len7U_length :
    (nextOf (exec (.len7U true 0#3 2#4 1#7) (running .hdr 0x8201#16 0#64 2 2))).map
      (fun t => (t.phase, t.work.len, t.work.need, t.work.cnt)) = some (.payload, some 1#64, some 1, some 0) ∧
    (nextOf (exec (.len7U true 0#3 1#4 0#7) (running .hdr 0x8100#16 0#64 2 2))).map
      (fun t => (t.phase, t.work.need, t.work.cnt, fetch t)) = some (.payload, some 2, some 2, .word (.opcode 0x8100#16)) := by
  decide

/-- T3-g: LEN 101 above a MAX_LEN of 100 is out of range. -/
theorem test_len7U_cap :
    (nextOf (exec (.len7U true 0#3 1#4 101#7) { running .hdr 0x8165#16 0#64 2 2 with maxLen := 100#64 })).map
      (fun t => (t.phase, t.err)) = some (.fault, .lengthOutOfRange) := by
  decide

/-- T1-a: `81 85` has FIN 1, OPC 1, MASK 1, IND 5. -/
theorem test_len7M_fields :
    (nextOf (exec (.len7M true 0#3 1#4 5#7) (running .hdr 0x8185#16 0#64 2 2))).map
      (fun t => (t.work.fin, t.work.opc, t.work.mask, t.work.ind)) = some (some true, some 1#4, some true, some 5#7) := by
  decide

/-- T4-b: `82 E4` with a window of 50 faults only after the key. -/
theorem test_len7M_window :
    (nextOf (exec (.len7M true 0#3 2#4 100#7) (running .keyrd 0x82E4#16 100#64 4 4))).map
      (fun t => (t.phase, t.err)) = some (.fault, .bufferTooSmall) := by
  decide

/-- T2-k: `81 7E 00 03` has LEN 3 (not minimal, accepted). -/
theorem test_len16U_length :
    (nextOf (exec (.len16U true 0#3 1#4)
      (let s := running .ext16 0x817E#16 0#64 2 2
       { s with work := { s.work with xb := #v[some 0#8, some 3#8, none, none, none, none, none, none] } }))).map
      (fun t => (t.phase, t.work.len, t.work.need)) = some (.payload, some 3#64, some 3) := by
  decide

/-- T2-e's byte order, masked: `XB = 01 00` gives 256. -/
theorem test_len16M_order :
    (nextOf (exec (.len16M true 0#3 2#4)
      (let s := running .ext16 0x82FE#16 0#64 2 2
       { s with work := { s.work with xb := #v[some 1#8, some 0#8, none, none, none, none, none, none] } }))).map
      (fun t => (t.phase, t.work.len, t.work.need)) = some (.keyrd, some 256#64, some 4) := by
  decide

/-- T3-a: LEN 2^31 passes the cap check (equality) and fails the window check. -/
theorem test_len64U_equality :
    (nextOf (exec (.len64U true 0#3 2#4)
      (let s := running .ext64 0x827F#16 0#64 8 8
       { s with work := { s.work with
         xb := #v[some 0#8, some 0#8, some 0#8, some 0#8, some 0x80#8, some 0#8, some 0#8, some 0#8] } }))).map
      (fun t => (t.phase, t.err)) = some (.fault, .bufferTooSmall) := by
  decide

/-- T3-c: 2^63 is unsigned and out of range; T3-e: no key is read. -/
theorem test_len64M_unsigned :
    (nextOf (exec (.len64M true 0#3 2#4)
      (let s := running .ext64 0x82FF#16 0#64 8 8
       { s with work := { s.work with
         xb := #v[some 0x80#8, some 0#8, some 0#8, some 0#8, some 0#8, some 0#8, some 0#8, some 0#8] } }))).map
      (fun t => (t.phase, t.err)) = some (.fault, .lengthOutOfRange) := by
  decide

/-! ### Opcode rows -/

/-- T5-l: a text frame reports no close metadata. -/
theorem test_text_reports :
    (nextOf (exec (.text true 0#3 false 2#7) (running .payload 0x8102#16 2#64 2 2))).map
      (fun t => (t.phase, t.res.fOpc, t.res.fPlen, t.res.fCsV)) = some (.done, some 1#4, some 2, some false) := by
  decide

/-- T8-b: a reserved opcode 11, not final, passes through. -/
theorem test_op11_passes :
    (nextOf (exec (.op11 false 0#3 false 0#7) (running .payload 0x0B00#16 0#64 0 0))).map
      (fun t => (t.phase, t.res.fFin, t.res.fOpc, t.res.fPlen)) = some (.done, some false, some 11#4, some 0) := by
  decide

/-- T8-a: `F3 82`, key `0A 0B 0C 0D`, payload `41 42` unmasks to `4B 49`. -/
theorem test_op3_unmasks :
    (nextOf (exec (.op3 true 7#3 true 2#7)
      { running .unmask 0xF382#16 2#64 2 2 with
        key := keyFileOf #v[0x0A#8, 0x0B#8, 0x0C#8, 0x0D#8], pbuf := memoryOf [0x41#8, 0x42#8] })).map
      (fun t => (t.phase, t.pbuf)) = some (.done, memoryOf [0x4B#8, 0x49#8]) := by
  decide

/-- T5-c: `03 E8 68 69` has status 1000 and a reason of 2 bytes at offset 2. -/
theorem test_close_reason :
    (nextOf (exec (.close true 0#3 false 4#7)
      { running .closemeta 0x8804#16 4#64 4 4 with pbuf := memoryOf [0x03#8, 0xE8#8, 0x68#8, 0x69#8] })).map
      (fun t => (t.res.fCsV, t.res.fCs, t.res.fCrV, t.res.fCrOff, t.res.fCrLen)) =
      some (some true, some 1000#16, some true, some 2, some 2) := by
  decide

/-- T5-d: a payload of one byte has no status. -/
theorem test_close_one_byte :
    (nextOf (exec (.close true 0#3 false 1#7)
      { running .closemeta 0x8801#16 1#64 1 1 with pbuf := memoryOf [0x03#8] })).map
      (fun t => (t.res.fCsV, t.res.fCs, t.res.fCrV, t.res.fCrOff)) = some (some true, some 1005#16, some false, none) := by
  decide

/-- R104: each of the fifteen generic rows ends the unmasked frame, and CLOSE goes on to its metadata. -/
theorem test_rows_end :
    (genericRows true 0#3 false 0#7).all (fun row =>
      decide ((nextOf (exec row (running .payload 0x8200#16 0#64 0 0))).map (fun t => t.phase) = some .done)) = true ∧
    (nextOf (exec (.close true 0#3 false 0#7) (running .payload 0x8800#16 0#64 0 0))).map (fun t => t.phase) =
      some .closemeta := by
  decide

/-! ### Commands -/

/-- R90, R91: HDR, and the read of two bytes. -/
theorem test_decode_starts :
    (nextOf (exec (.decode win) { idle with phase := .fault, err := .cancelled })).map
      (fun t => (t.phase, t.err, t.work.need, t.work.cnt, t.win)) =
      some (.hdr, .none, some 2, some 0, some win) := by
  decide

/-- T10-a, its first five bytes. -/
theorem test_toggleMask_bytes :
    (nextOf (exec (.toggleMask 4 #v[0xFF#8, 0x00#8, 0xAA#8, 0x55#8] ⟨16, 5⟩)
      { idle with pbuf := memoryOf [0x10#8, 0x11#8, 0x12#8, 0x13#8, 0x14#8] })).map (fun t => (t.phase, t.pbuf)) =
      some (.done, memoryOf [0xEF#8, 0x11#8, 0xB8#8, 0x46#8, 0xEB#8]) := by
  decide

/-- T10-h: the key check comes first, for an empty window too. -/
theorem test_toggleMask_key_length :
    (nextOf (exec (.toggleMask 0 key ⟨0, 0⟩) idle)).map (fun t => (t.phase, t.err)) =
      some (.fault, .invalidMaskKeyLength) := by
  decide

/-- T11-k: a close frame of a server. -/
theorem test_encode_server :
    (nextOf (exec (.encode 8#4 true false ⟨16, 4⟩) { idle with pbuf := memoryOf [0x03#8, 0xE8#8, 0x68#8, 0x69#8] })).map
      (fun t => (t.out, t.res.eWritten)) =
      some ([0x88#8, 0x04#8, 0x03#8, 0xE8#8, 0x68#8, 0x69#8], some 6#64) := by
  decide

/-- T11-i cut to three bytes: header, key, masked payload; the window is masked in place. -/
theorem test_encode_client :
    (nextOf (exec (.encode 2#4 false true ⟨17, 2⟩)
      { idle with pbuf := [(17, 0x01#8), (18, 0x02#8)], rng := [#v[0xFF#8, 0x00#8, 0xAA#8, 0x55#8]] })).map
      (fun t => (t.out, t.res.eWritten, t.pbuf)) =
      some ([0x02#8, 0x82#8, 0xFF#8, 0x00#8, 0xAA#8, 0x55#8, 0xFE#8, 0x02#8], some 8#64, [(17, 0xFE#8), (18, 0x02#8)]) := by
  decide

/-- T12-c: too small a window; T12-b, T7-f: a length of 0 with CANCEL = 1 is done, with no read and no register written. -/
theorem test_readExact_window :
    (nextOf (exec (.readExact 5 ⟨0, 4⟩) idle)).map (fun t => (t.phase, t.err, t.spos)) =
      some (.fault, .bufferTooSmall, 0) ∧
    (nextOf (exec (.readExact 0 ⟨0, 0⟩) { idle with cancel := true })).map
      (fun t => (t.phase, t.err, t.spos, t.work.need, t.work.cnt)) = some (.done, .none, 0, none, none) := by
  decide

/-- T12-a, its second answer: 2 bytes into a window of 4 that holds one. -/
theorem test_readExact_turn :
    (nextOf (step { running .rxrun 0#16 0#64 4 1 with
      input := [0xAD#8, 0xBE#8, 0xEF#8, 0x00#8], answers := [.data 2], spos := 1, pbuf := memoryOf [0xDE#8] })).map
      (fun t => (t.spos, t.work.cnt, t.pbuf)) = some (3, some 3, memoryOf [0xDE#8, 0xAD#8, 0xBE#8]) := by
  decide

/-! ### Byte order -/

/-- What a byte-order command leaves in B_OUT. -/
def bOutOf (i : Instr) : Option BOut := (nextOf (exec i idle)).bind fun t => t.res.bOut

/-- T13-a. -/
theorem test_swap16 : bOutOf (.swap16 #v[0x03#8, 0xE8#8]) = some (.bytes2 #v[0xE8#8, 0x03#8]) := by decide

/-- T13-d. -/
theorem test_swap64 : bOutOf (.swap64 #v[0#8, 0#8, 0#8, 0#8, 0#8, 1#8, 0#8, 0#8]) =
    some (.bytes8 #v[0#8, 0#8, 1#8, 0#8, 0#8, 0#8, 0#8, 0#8]) := by decide

/-- T13-e, T13-f. -/
theorem test_rdu16 : bOutOf (.rdu16 #v[0x03#8, 0xE8#8] false) = some (.value16 1000#16) ∧
    bOutOf (.rdu16 #v[0x03#8, 0xE8#8] true) = some (.value16 59395#16) := by decide

/-- T13-g, T13-h, T13-i: -2, -257 and -32768. -/
theorem test_rdi16 : bOutOf (.rdi16 #v[0xFF#8, 0xFE#8] false) = some (.value16 (BitVec.ofInt 16 (-2))) ∧
    bOutOf (.rdi16 #v[0xFF#8, 0xFE#8] true) = some (.value16 (BitVec.ofInt 16 (-257))) ∧
    bOutOf (.rdi16 #v[0x80#8, 0x00#8] false) = some (.value16 (BitVec.ofInt 16 (-32768))) := by decide

/-- T13-m, T13-n. -/
theorem test_rdu64 :
    bOutOf (.rdu64 #v[1#8, 2#8, 3#8, 4#8, 5#8, 6#8, 7#8, 8#8] false) = some (.value64 72623859790382856#64) ∧
    bOutOf (.rdu64 #v[1#8, 2#8, 3#8, 4#8, 5#8, 6#8, 7#8, 8#8] true) = some (.value64 578437695752307201#64) := by decide

/-- T13-p: -9223372036854775808. -/
theorem test_rdi64 : bOutOf (.rdi64 #v[0x80#8, 0#8, 0#8, 0#8, 0#8, 0#8, 0#8, 0#8] false) =
    some (.value64 (BitVec.ofInt 64 (-9223372036854775808))) := by decide

/-- T13-s, T13-t. -/
theorem test_wru16 : bOutOf (.wru16 126#16 false) = some (.bytes2 #v[0x00#8, 0x7E#8]) ∧
    bOutOf (.wru16 126#16 true) = some (.bytes2 #v[0x7E#8, 0x00#8]) := by decide

/-- T13-v: -2. -/
theorem test_wri16 : bOutOf (.wri16 (BitVec.ofInt 16 (-2)) false) = some (.bytes2 #v[0xFF#8, 0xFE#8]) := by decide

/-- T13-w, T13-x. -/
theorem test_wru64 :
    bOutOf (.wru64 65536#64 false) = some (.bytes8 #v[0#8, 0#8, 0#8, 0#8, 0#8, 1#8, 0#8, 0#8]) ∧
    bOutOf (.wru64 65536#64 true) = some (.bytes8 #v[0#8, 0#8, 1#8, 0#8, 0#8, 0#8, 0#8, 0#8]) := by decide

/-- T13-y: -1. -/
theorem test_wri64 : bOutOf (.wri64 (BitVec.ofInt 64 (-1)) false) =
    some (.bytes8 #v[0xFF#8, 0xFF#8, 0xFF#8, 0xFF#8, 0xFF#8, 0xFF#8, 0xFF#8, 0xFF#8]) := by decide

/-! ### The acknowledge -/

/-- R205 and R27: PHASE is IDLE and the result is no longer valid, while the register that holds it keeps it. -/
theorem test_acknowledge :
    (let s : State := { idle with phase := .done, res := { Results.empty with eWritten := some 7#64 }, host := [.ack] }
     s.results.map (·.eWritten) = some (some 7#64) ∧
     (nextOf (step s)).map (fun t => (t.phase, t.results, t.res.eWritten)) = some (.idle, none, some 7#64)) := by
  decide

/-! ### Another instance: SIZE_W = 40 (00_scope.md R4: a parameter) -/

/-- An idle block whose size type has 40 bits. -/
def idle40 : State := { idle with params := { params with sizeW := 40 } }

/-- R44, R79: a window and a size argument beyond 32 bits, and a window one byte beyond 40 bits. -/
theorem test_size_windows :
    Window.valid 40 ⟨2 ^ 32, 8⟩ = true ∧ Window.valid 32 ⟨2 ^ 32, 8⟩ = false ∧ Window.valid 40 ⟨2 ^ 40 - 1, 1⟩ = true ∧
    Window.valid 40 ⟨2 ^ 40 - 1, 2⟩ = false ∧ (Instr.readExact (2 ^ 32) win).wellFormed 40 = true := by decide

/-- R22: 2^32 is a legal MAX_LEN of 40 bits and none of 32 bits (T14-e), 2^40 of neither. -/
theorem test_size_max_len :
    (nextOf (step { idle40 with host := [.writeMaxLen 0x100000000#64] })).map (fun t => t.maxLen) = some 0x100000000#64 ∧
    (nextOf (step { idle with host := [.writeMaxLen 0x100000000#64] })).map (fun t => t.maxLen) = some 0x80000000#64 ∧
    (nextOf (step { idle40 with host := [.writeMaxLen 0x10000000000#64] })).map (fun t => t.maxLen) = some 0x80000000#64 := by
  decide

/-- R120, R124: a key length of 2^32 + 4 is not 4. -/
theorem test_size_key_length :
    (nextOf (exec (.toggleMask (2 ^ 32 + 4) key win) idle40)).map (fun t => t.err) = some .invalidMaskKeyLength := by decide

/-- R95, R98, R96: with 64 bits the largest 64-bit length passes a MAX_LEN and a window of that size. -/
theorem test_size_64 :
    (nextOf (exec (.len64U true 0#3 2#4)
      (let s := running .ext64 0x827F#16 0#64 8 8
       { s with maxLen := 0xFFFFFFFFFFFFFFFF#64, win := some ⟨1, 2 ^ 64 - 1⟩, params := { params with sizeW := 64 },
                work := { s.work with xb := Vector.replicate 8 (some 0xFF#8) } }))).map
      (fun t => (t.phase, t.work.need)) = some (.payload, some (2 ^ 64 - 1)) := by
  decide

/-! ### The first step after reset runs the placed word -/

/-- The table's words of TEXT, LEN7.M and DECODE, as the first step after reset. -/
theorem test_placed_words :
    (nextOf (step (State.reset.withFetchWord 16 0x0100))).map (fun t => (t.phase, t.res.fOpc)) = some (.done, some 1#4) ∧
    (nextOf (step (State.reset.withFetchWord 16 0x0080))).map (fun t => t.phase) = some .keyrd ∧
    (nextOf (step (State.reset.withFetchWord 8 0x1))).map (fun t => t.phase) = some .hdr := by
  decide

/-! ### Sound states, one in each phase -/

/-- The first `k` bytes of a file hold a value, of a file in which all do. -/
theorem holds_all {n : Nat} (f : Vector (Option Byte) n) (k : Nat) (h : ∀ i : Fin n, (f[i]).isSome = true) : FileHolds f k :=
  fun i _ => h i

/-- A state with the memory, the MAX_LEN and the parameters of `idle` is sound if its phase is. -/
theorem sound_of_phase {s : State} (hm : s.pbuf = []) (hl : s.maxLen = Config.maxLenReset) (hp : s.params = params)
    (h : PhaseSound s) : Sound s :=
  ⟨by rw [hm]; rfl, by rw [hm]; rfl, by rw [hp]; decide, by rw [hl, hp]; decide, by rw [hp]; decide, h⟩

/-- Soundness does not look at the scripts, the stream or CANCEL. -/
theorem sound_script {s : State} (h : Sound s) (answers : List ReadDraw) (host : List HostMove) (cancel : Bool)
    (input : List Byte) (spos : Nat) :
    Sound { s with answers := answers, host := host, cancel := cancel, input := input, spos := spos } :=
  ⟨h.1, h.2, h.3, h.4, h.5, h.6⟩

theorem witness_sound_idle : Sound idle := sound_of_phase rfl rfl rfl ⟨⟨rfl, rfl, rfl⟩, frameSound_empty, fun _ => rfl⟩

/-- A decoded close frame whose reason is reported: R20 (b), and the reason's extent. -/
def doneState : State :=
  { idle with
    phase := .done
    res := { Results.empty with fFin := some true, fOpc := some 8#4, fPlen := some 4, fCsV := some true,
                                fCs := some 1000#16, fCrV := some true, fCrOff := some 2, fCrLen := some 2 } }

theorem witness_sound_done : Sound doneState :=
  sound_of_phase rfl rfl rfl ⟨⟨rfl, rfl, rfl⟩, rfl, fun o ho hne => absurd (Option.some.inj ho).symm hne, fun _ _ _ => rfl,
    fun _ => ⟨rfl, 4, rfl, by decide, rfl, rfl⟩, fun h => absurd rfl h, fun p hp => by cases hp; decide⟩

theorem witness_sound_fault : Sound { idle with phase := .fault, err := .cancelled } :=
  sound_of_phase rfl rfl rfl ⟨⟨rfl, rfl, rfl⟩, by decide, rfl⟩

/-- HDR with one of its two bytes read. -/
def hdrState : State := { running .hdr 0x8185#16 0#64 2 1 with input := [0x85#8, 0x01#8], answers := [.data 7] }

theorem witness_sound_hdr : Sound hdrState :=
  sound_of_phase rfl rfl rfl ⟨win, ⟨rfl, rfl, rfl, by decide⟩, rfl, 1, rfl, by decide, holds_all _ _ (by decide)⟩

theorem witness_sound_ext16 : Sound (running .ext16 0x827E#16 0#64 2 2) :=
  sound_of_phase rfl rfl rfl ⟨win, 0x827E#16, ⟨rfl, rfl, rfl, by decide⟩, ⟨rfl, rfl, rfl, rfl, rfl⟩, by decide, rfl, 2, rfl,
    by decide, holds_all _ _ (by decide)⟩

theorem witness_sound_ext64 : Sound (running .ext64 0x82FF#16 0#64 8 8) :=
  sound_of_phase rfl rfl rfl ⟨win, 0x82FF#16, ⟨rfl, rfl, rfl, by decide⟩, ⟨rfl, rfl, rfl, rfl, rfl⟩, by decide, rfl, 8, rfl,
    by decide, holds_all _ _ (by decide)⟩

theorem witness_sound_keyrd : Sound (running .keyrd 0x8185#16 5#64 4 4) :=
  sound_of_phase rfl rfl rfl ⟨win, 0x8185#16, 5#64, ⟨rfl, rfl, rfl, by decide⟩, ⟨rfl, rfl, rfl, rfl, rfl⟩, by decide,
    ⟨rfl, by decide⟩, rfl, 4, rfl, by decide, holds_all _ _ (by decide)⟩

/-- PAYLOAD of a masked text frame of five bytes, three of them read. -/
def payloadState : State := { running .payload 0x8185#16 5#64 5 3 with input := [0x41#8, 0x42#8, 0x43#8], answers := [.data 9] }

theorem witness_sound_payload : Sound payloadState :=
  sound_of_phase rfl rfl rfl ⟨win, 0x8185#16, 5#64, ⟨rfl, rfl, rfl, by decide⟩, ⟨rfl, rfl, rfl, rfl, rfl⟩, ⟨rfl, by decide⟩,
    by decide, ⟨rfl, 3, rfl, by decide, fun i => i.elim0⟩, fun _ => holds_all _ _ (by decide)⟩

theorem witness_sound_unmask : Sound (running .unmask 0x8185#16 5#64 5 5) :=
  sound_of_phase rfl rfl rfl ⟨win, 0x8185#16, 5#64, ⟨rfl, rfl, rfl, by decide⟩, ⟨rfl, rfl, rfl, rfl, rfl⟩, ⟨rfl, by decide⟩,
    by decide, ⟨rfl, 5, rfl, by decide, fun i => i.elim0⟩, by decide, holds_all _ _ (by decide)⟩

theorem witness_sound_closemeta : Sound (running .closemeta 0x8804#16 4#64 4 4) :=
  sound_of_phase rfl rfl rfl ⟨win, 0x8804#16, 4#64, ⟨rfl, rfl, rfl, by decide⟩, ⟨rfl, rfl, rfl, rfl, rfl⟩, ⟨rfl, by decide⟩,
    by decide, ⟨rfl, 4, rfl, by decide, fun i => i.elim0⟩, by decide⟩

/-- READ_EXACT of the whole window, nothing of it read. -/
def rxState : State := { running .rxrun 0#16 0#64 8 0 with input := [0x41#8], answers := [.data 0] }

theorem witness_sound_rxrun : Sound rxState :=
  sound_of_phase rfl rfl rfl ⟨win, 8, ⟨rfl, rfl, rfl, by decide⟩, by decide, rfl, 0, rfl, by decide, fun i => i.elim0⟩

/-! ### Witnesses: for each obligation with hypotheses, a state and operands that meet them together -/

theorem witness_DecodeOfEncodeIsTheInstruction :
    (Instr.len7M true 7#3 15#4 125#7).wellFormed 32 = true ∧ (Instr.readExact 0xFFFFFFFF topWin).wellFormed 32 = true := by decide

theorem witness_CommandsNotAcceptedHaveNoEffect :
    (let s : State := { hdrState with host := [.command 1#4 (withWin win)] }
     s.host = .command 1#4 (withWin win) :: [] ∧ s.phase.running = true) ∧
    (let s : State := { idle with params := { params with hasEncoder := false }, host := [.command 3#4 (withWin noWin)] }
     s.host = .command 3#4 (withWin noWin) :: [] ∧ s.params.hasEncoder = false) ∧
    ({ idle with host := [.command 0#4 Args.zero] } : State).host = .command 0#4 Args.zero :: [] ∧
    ({ idle with host := [.command 15#4 Args.zero] } : State).host = .command 15#4 Args.zero :: [] := by
  refine ⟨⟨rfl, rfl⟩, ⟨rfl, rfl⟩, rfl, rfl⟩

theorem witness_ResetAbandonsTheOperation : ({ payloadState with host := [.reset, .ack] } : State).host = .reset :: [.ack] := rfl

theorem witness_EveryStepKeepsTheInvariant : Sound payloadState ∧ ∃ t, step payloadState = .next t :=
  ⟨witness_sound_payload, _, rfl⟩

/-- The host's contracts, kept in the three cases in which the move could break them, at the last address of PBUF too. -/
theorem witness_SoundStatesAlwaysGoOn :
    hostKeepsContracts { idle with host := [.command 1#4 (withWin topWin)] } = true ∧
    hostKeepsContracts { idle with host := [.connect [0x81#8]] } = true ∧
    hostKeepsContracts { payloadState with host := [.store 15 1#8] } = true ∧
    hostKeepsContracts { payloadState with host := [.store 24 1#8] } = true ∧
    hostKeepsContracts { idle with host := [.store 0xFFFFFFFF 1#8] } = true ∧
    Sound { idle with host := [.command 1#4 (withWin topWin)] } ∧ Sound { payloadState with host := [.store 24 1#8] } :=
  ⟨by decide, by decide, by decide, by decide, by decide, sound_script witness_sound_idle _ _ _ _ _, sound_script witness_sound_payload _ _ _ _ _⟩

theorem witness_StepRunsThePresentedCommand :
    ({ idle with host := [.command 5#4 Args.zero] } : State).host = .command 5#4 Args.zero :: [] ∧
    decode (.command 5#4 Args.zero) = .ok (.swap16 #v[0#8, 0#8]) := ⟨rfl, rfl⟩

/-- The three ways in which the block moves. -/
theorem witness_BlockMoves :
    BlockMoves payloadState payloadState ∧ BlockMoves { payloadState with host := [.yield] } payloadState ∧
    BlockMoves { payloadState with host := [.await] } { payloadState with host := [.await] } :=
  ⟨.inl ⟨rfl, rfl⟩, .inr (.inl ⟨[], rfl, rfl⟩), .inr (.inr ⟨[], rfl, rfl, rfl⟩)⟩

/-- A header at the end of each phase that reads it, and in the phases that run its opcode row. -/
theorem witness_StepRunsTheRowOfTheHeader :
    (∀ p ∈ [Phase.hdr, .ext16, .ext64, .keyrd, .payload, .unmask, .closemeta],
      headerBytes (running p 0x8804#16 4#64 4 4).work.hb = some 0x8804#16 ∧
      (running p 0x8804#16 4#64 4 4).phase = p ∧
      (running p 0x8804#16 4#64 4 4).work.need = (running p 0x8804#16 4#64 4 4).work.cnt) ∧
    BlockMoves (running .hdr 0x8804#16 4#64 4 4) (running .hdr 0x8804#16 4#64 4 4) ∧
    decode (.lengthForm 0x8804#16) = .ok (.len7U true 0#3 8#4 4#7) ∧
    decode (.opcode 0x8804#16) = .ok (.close true 0#3 false 4#7) :=
  ⟨by decide, .inl ⟨rfl, rfl⟩, rfl, rfl⟩

theorem witness_BlockWaitsForACommandOrAnAnswer :
    (BlockMoves idle idle ∧ idle.phase.running = false) ∧
    (let s : State := { payloadState with answers := [] }
     BlockMoves s s ∧ s.phase.reading = true ∧ s.work.need = some 5 ∧ s.work.cnt = some 3 ∧
       3 < 5 ∧ s.cancel = false ∧ s.answers = []) :=
  ⟨⟨.inl ⟨rfl, rfl⟩, rfl⟩, .inl ⟨rfl, rfl⟩, rfl, rfl, rfl, by decide, rfl, rfl⟩

theorem witness_PhasesOnlyGoForward :
    BlockMoves (running .unmask 0x8185#16 5#64 5 5) (running .unmask 0x8185#16 5#64 5 5) ∧
    ∃ t, step (running .unmask 0x8185#16 5#64 5 5) = .next t := ⟨.inl ⟨rfl, rfl⟩, _, rfl⟩

/-- Both phases; the last missing byte of the window (READ_EXACT) and a missing part smaller than what is asked for. -/
theorem witness_DeliveredBytesGoIntoTheWindow :
    (BlockMoves payloadState payloadState ∧ Sound payloadState ∧ payloadState.phase = .payload ∧ payloadState.win = some win ∧
      payloadState.work.need = some 5 ∧ payloadState.work.cnt = some 3 ∧ payloadState.cancel = false ∧
      payloadState.answers = .data 9 :: [] ∧ payloadState.input ≠ []) ∧
    (BlockMoves rxState rxState ∧ Sound rxState ∧ rxState.phase = .rxrun ∧ rxState.win = some win ∧ rxState.work.need = some 8 ∧
      rxState.work.cnt = some 0 ∧ rxState.cancel = false ∧ rxState.answers = .data 0 :: [] ∧ rxState.input ≠ []) :=
  ⟨⟨.inl ⟨rfl, rfl⟩, witness_sound_payload, rfl, rfl, rfl, rfl, rfl, rfl, by decide⟩, .inl ⟨rfl, rfl⟩, witness_sound_rxrun, rfl,
    rfl, rfl, rfl, rfl, rfl, by decide⟩

/-- The header, the extended length and the key, each with one byte missing. -/
theorem witness_HeaderBytesGoIntoRegisters :
    ∀ q ∈ [(Phase.hdr, 2, 1), (.ext16, 2, 1), (.ext64, 8, 7), (.keyrd, 4, 3)],
      (let s : State := { running q.1 0x8185#16 0#64 q.2.1 q.2.2 with input := [0x41#8], answers := [.data 1] }
       BlockMoves s s ∧ s.phase = q.1 ∧ s.work.need = some q.2.1 ∧ s.work.cnt = some q.2.2 ∧ q.2.2 < q.2.1 ∧
         s.cancel = false ∧ s.answers = .data 1 :: [] ∧ s.input ≠ []) := by
  intro q hq
  simp only [List.mem_cons, List.not_mem_nil, or_false] at hq
  rcases hq with rfl | rfl | rfl | rfl <;>
    exact ⟨.inl ⟨rfl, rfl⟩, rfl, rfl, rfl, by decide, rfl, rfl, by decide⟩

/-- A stream that has ended, while CANCEL rises and while it does not. -/
theorem witness_EndOfStreamEndsTheOperation :
    ∀ rises : Bool,
      (let s : State := { payloadState with
         input := [], answers := (if rises then ReadDraw.dataAsCancelRises 1 else .data 1) :: [] }
       BlockMoves s s ∧ s.phase.reading = true ∧ s.work.need = some 5 ∧ s.work.cnt = some 3 ∧ s.cancel = false ∧
         s.answers = (if rises then .dataAsCancelRises 1 else .data 1) :: [] ∧ s.input = []) :=
  fun _ => ⟨.inl ⟨rfl, rfl⟩, rfl, rfl, rfl, rfl, rfl, rfl⟩

/-- CANCEL at 1 before the read; a read that ends with Cancelled; CANCEL rising during a read, with either outcome. -/
theorem witness_CancelledOnlyUnderCancel :
    (let s : State := { payloadState with cancel := true }
     BlockMoves s s ∧ s.phase.reading = true ∧ s.work.need = some 5 ∧ s.work.cnt = some 3 ∧ s.cancel = true ∧
       s.err ≠ .cancelled ∧ (nextOf (step s)).map (fun t => t.err) = some .cancelled) ∧
    (let s : State := { payloadState with answers := [.dataAsCancelRises 1] }
     BlockMoves s s ∧ Sound s ∧ s.cancel = false ∧ s.input ≠ [] ∧ s.answers = .dataAsCancelRises 1 :: []) ∧
    (let s : State := { payloadState with answers := [.cancelled] }
     BlockMoves s s ∧ Sound s ∧ s.cancel = false ∧ s.input ≠ [] ∧ s.answers = .cancelled :: []) :=
  ⟨⟨.inl ⟨rfl, rfl⟩, rfl, rfl, rfl, rfl, by decide, by decide⟩,
   ⟨.inl ⟨rfl, rfl⟩, sound_script witness_sound_payload _ _ _ _ _, rfl, by decide, rfl⟩,
   .inl ⟨rfl, rfl⟩, sound_script witness_sound_payload _ _ _ _ _, rfl, by decide, rfl⟩

theorem witness_StreamIsConsumedInOrder :
    (∃ t, step payloadState = .next t) ∧ ∀ bytes hs, payloadState.host ≠ .connect bytes :: hs :=
  ⟨⟨_, rfl⟩, fun _ _ h => nomatch h⟩

/-- Two bytes into a window of two, and no byte at all. -/
theorem witness_ReadExactIsIndependentOfChunking :
    (let s : State := { idle with input := [0x41#8, 0x42#8], answers := [.data 1, .data 5] }
     Sound s ∧ s.phase.running = false ∧ s.host = [] ∧ Window.valid s.params.sizeW ⟨0, 2⟩ = true ∧ s.cancel = false ∧
       (∀ d ∈ s.answers, ∃ size, d = .data size) ∧ 2 ≤ s.answers.length ∧ 2 ≤ s.input.length) ∧
    (Sound idle ∧ idle.host = [] ∧ Window.valid idle.params.sizeW ⟨0, 0⟩ = true ∧ ∀ d ∈ idle.answers, ∃ size, d = .data size) := by
  refine ⟨⟨sound_script witness_sound_idle _ _ _ _ _, rfl,
    rfl, by decide, rfl, ?_, by decide, by decide⟩, witness_sound_idle, rfl, by decide, fun d hd => nomatch hd⟩
  intro d hd
  have h : d = .data 1 ∨ d = .data 5 := by simpa using hd
  rcases h with rfl | rfl
  · exact ⟨1, rfl⟩
  · exact ⟨5, rfl⟩

/-- IND 0, and IND 8 equal to the window's capacity and to MAX_LEN. -/
theorem witness_ShortHeadersGiveTheLength :
    (let s : State := { running .hdr 0x8208#16 0#64 2 2 with maxLen := 8#64 }
     s.phase = .hdr ∧ s.win = some win ∧
       ∀ i ∈ [0#7, 8#7], (i : BitVec 7).toNat ≤ s.maxLen.toNat ∧ i.toNat ≤ win.cap) := by
  decide

theorem witness_LongHeadersStartTheExtendedLength : (running .hdr 0x827E#16 0#64 2 2).phase = .hdr := rfl

/-- LEN 8, the window's capacity and MAX_LEN, and LEN 0. -/
theorem witness_SixteenBitLengthIsAssembled :
    (let s : State := { running .ext16 0x827E#16 0#64 2 2 with maxLen := 8#64 }
     let s' : State := { s with work := { s.work with xb := #v[some 0#8, some 8#8, none, none, none, none, none, none] } }
     s'.phase = .ext16 ∧ s'.win = some win ∧ s'.work.xb[0] = some 0#8 ∧ s'.work.xb[1] = some 8#8 ∧
       256 * (0#8 : Byte).toNat + (8#8 : Byte).toNat ≤ s'.maxLen.toNat ∧
       256 * (0#8 : Byte).toNat + (8#8 : Byte).toNat ≤ win.cap) ∧
    (let s : State := { running .ext16 0x827E#16 0#64 2 2 with maxLen := 0#64 }
     let s' : State := { s with work := { s.work with xb := #v[some 0#8, some 0#8, none, none, none, none, none, none] } }
     s'.work.xb[0] = some 0#8 ∧ s'.work.xb[1] = some 0#8 ∧
       256 * (0#8 : Byte).toNat + (0#8 : Byte).toNat ≤ s'.maxLen.toNat) := by
  decide

/-- LEN 0 within a MAX_LEN of 0 and a window of 8. -/
theorem witness_SixtyFourBitLengthIsAssembled :
    (let s : State := { running .ext64 0x827F#16 0#64 8 8 with maxLen := 0#64 }
     s.phase = .ext64 ∧ s.win = some win ∧ s.work.xb = (Vector.replicate 8 0#8).map some ∧
       (∑ j : Fin 8, ((Vector.replicate 8 0#8)[j]).toNat * 256 ^ (7 - j.val)) ≤ s.maxLen.toNat) :=
  ⟨rfl, rfl, by simp [running], by decide⟩

/-- LEN 8, the window's capacity, and LEN 0. -/
theorem witness_KeyKnownStartsThePayload :
    Instr.len16M true 0#3 1#4 ∈ [Instr.len7M true 0#3 1#4 0#7, .len16M true 0#3 1#4, .len64M true 0#3 1#4] ∧
    (running .keyrd 0x81FE#16 8#64 4 4).phase = .keyrd ∧ (running .keyrd 0x81FE#16 8#64 4 4).win = some win ∧
    (running .keyrd 0x81FE#16 8#64 4 4).work.len = some 8#64 ∧ (8#64 : Len).toNat ≤ win.cap ∧
    (running .keyrd 0x81FE#16 0#64 4 4).work.len = some 0#64 ∧ (0#64 : Len).toNat ≤ win.cap := by
  decide

/-- The 7-bit, the 16-bit and the 64-bit form, each one above MAX_LEN. -/
theorem witness_LengthAboveTheCapFaults :
    (let s : State := { running .hdr 0x8201#16 0#64 2 2 with maxLen := 0#64 }
     s.phase = .hdr ∧ s.maxLen.toNat < (1#7 : BitVec 7).toNat) ∧
    (let s : State := { running .ext16 0x827E#16 0#64 2 2 with maxLen := 0#64 }
     let s' : State := { s with work := { s.work with xb := #v[some 0#8, some 1#8, none, none, none, none, none, none] } }
     s'.phase = .ext16 ∧ ext16Value s'.work.xb = some 1#16 ∧ s'.maxLen.toNat < (1#16 : BitVec 16).toNat) ∧
    (let s : State := { running .ext64 0x827F#16 0#64 8 8 with maxLen := 0#64 }
     let s' : State := { s with work := { s.work with
       xb := #v[some 0#8, some 0#8, some 0#8, some 0#8, some 0#8, some 0#8, some 0#8, some 1#8] } }
     s'.phase = .ext64 ∧ ext64Value s'.work.xb = some 1#64 ∧ s'.maxLen.toNat < (1#64 : BitVec 64).toNat) := by
  decide

/-- The four places, each with LEN one above the capacity of 8. -/
theorem witness_WindowTooSmallFaults :
    (let s := running .hdr 0x8209#16 0#64 2 2
     s.phase = .hdr ∧ s.win = some win ∧ win.cap < (9#7 : BitVec 7).toNat ∧ (9#7 : BitVec 7).toNat ≤ s.maxLen.toNat) ∧
    (let s := running .ext16 0x827E#16 0#64 2 2
     let s' : State := { s with work := { s.work with xb := #v[some 0#8, some 9#8, none, none, none, none, none, none] } }
     s'.phase = .ext16 ∧ ext16Value s'.work.xb = some 9#16 ∧ win.cap < (9#16 : BitVec 16).toNat) ∧
    (let s := running .ext64 0x827F#16 0#64 8 8
     let s' : State := { s with work := { s.work with
       xb := #v[some 0#8, some 0#8, some 0#8, some 0#8, some 0#8, some 0#8, some 0#8, some 9#8] } }
     s'.phase = .ext64 ∧ ext64Value s'.work.xb = some 9#64 ∧ win.cap < (9#64 : BitVec 64).toNat) ∧
    (let s := running .keyrd 0x8289#16 9#64 4 4
     s.phase = .keyrd ∧ s.work.len = some 9#64 ∧ win.cap < (9#64 : Len).toNat) := by
  decide

theorem witness_LengthRowsFrame :
    Instr.len64U true 0#3 2#4 ∈ lengthRows true 0#3 2#4 0#7 ∧
    ∃ t, exec (.len64U true 0#3 2#4) (running .hdr 0x827F#16 0#64 2 2) = .next t := ⟨by decide, _, rfl⟩

/-- Both classes: a length-form row at the end of HDR and an opcode row in CLOSEMETA, the reserved bits 7 and 0. -/
theorem witness_ReservedBitsChangeNothing :
    (let s := running .hdr 0x8201#16 0#64 2 2
     BlockMoves s s ∧ fetch s = .word (.lengthForm 0x8201#16) ∧ ∃ t, step s = .next t) ∧
    (let s := running .closemeta 0x8801#16 1#64 1 1
     BlockMoves s s ∧ fetch s = .word (.opcode 0x8801#16) ∧ ∃ t, step s = .next t) ∧
    (hwFin 0xF201#16 = hwFin 0x8201#16 ∧ hwOpc 0xF201#16 = hwOpc 0x8201#16 ∧ hwMask 0xF201#16 = hwMask 0x8201#16 ∧
      hwInd 0xF201#16 = hwInd 0x8201#16) ∧
    (hwFin 0x9801#16 = hwFin 0x8801#16 ∧ hwOpc 0x9801#16 = hwOpc 0x8801#16 ∧ hwMask 0x9801#16 = hwMask 0x8801#16 ∧
      hwInd 0x9801#16 = hwInd 0x8801#16) :=
  ⟨⟨.inl ⟨rfl, rfl⟩, rfl, _, rfl⟩, ⟨.inl ⟨rfl, rfl⟩, rfl, _, rfl⟩, by decide, by decide⟩

theorem witness_GenericRowsReportTheUnmaskedFrame :
    (let s := running .payload 0x8A00#16 0#64 0 0
     Instr.pong true 0#3 false 0#7 ∈ genericRows true 0#3 false 0#7 ∧ s.phase = .payload ∧ s.work.mask = some false ∧
       s.work.fin = some true ∧ s.work.opc = some 10#4 ∧ s.work.len = some 0#64) := by
  decide

theorem witness_PayloadGoesOnToUnmaskOrCloseMeta :
    (let s := running .payload 0x8180#16 0#64 0 0
     s.phase = .payload ∧ Instr.text true 0#3 true 0#7 ∈ opcodeRows true 0#3 true 0#7 ∧ s.work.mask = some true) ∧
    (let s := running .payload 0x8800#16 0#64 0 0
     s.phase = .payload ∧ s.work.mask = some false) := by
  decide

/-- LEN equal to the capacity of the window, for CLOSE and for a generic row. -/
theorem witness_UnmaskAppliesTheKeyToThePayload :
    ∀ hw ∈ [0x8888#16, 0x8188#16],
      (let s := running .unmask hw 8#64 8 8
       s.phase = .unmask ∧ s.win = some win ∧ s.work.fin = some true ∧ s.work.opc = some (hwOpc hw) ∧
         s.work.len = some 8#64 ∧ (8#64 : Len).toNat ≤ win.cap ∧ s.key = key.map some ∧ s.pbuf.wf = true) := by
  intro hw h
  simp only [List.mem_cons, List.not_mem_nil, or_false] at h
  rcases h with rfl | rfl <;> exact ⟨rfl, rfl, rfl, rfl, rfl, by decide, keyFileOf_eq_map key, rfl⟩

/-- LEN 1, 2 and 3: no status, status only, and a reason of one byte. -/
theorem witness_CloseReportsStatusAndReason :
    ∀ l ∈ [1#64, 2#64, 3#64],
      (let s := running .closemeta 0x8803#16 l 0 0
       s.phase = .closemeta ∧ s.win = some win ∧ s.work.fin = some true ∧ s.work.opc = some 8#4 ∧ s.work.len = some l) := by
  intro l h
  simp only [List.mem_cons, List.not_mem_nil, or_false] at h
  rcases h with rfl | rfl | rfl <;> exact ⟨rfl, rfl, rfl, rfl, rfl⟩

theorem witness_OpcodeRowsFrame :
    Instr.bin true 0#3 true 8#7 ∈ opcodeRows true 0#3 true 8#7 ∧
    ∃ t, exec (.bin true 0#3 true 8#7) (running .unmask 0x8288#16 8#64 8 8) = .next t := ⟨by decide, _, rfl⟩

/-- An unmasked text frame of eight bytes, the capacity of its window, at the end of PAYLOAD. -/
theorem witness_ReportedLengthIsWithinItsLimits :
    (let s := running .payload 0x8108#16 8#64 8 8
     Sound s ∧ s.phase.running = true ∧ s.win = some win ∧
       (nextOf (step s)).map (fun t => (t.phase, t.res.fPlen)) = some (.done, some 8)) :=
  ⟨sound_of_phase rfl rfl rfl ⟨win, 0x8108#16, 8#64, ⟨rfl, rfl, rfl, by decide⟩, ⟨rfl, rfl, rfl, rfl, rfl⟩, ⟨rfl, by decide⟩,
    by decide, ⟨rfl, 8, rfl, by decide, fun i => i.elim0⟩, fun _ => holds_all _ _ (by decide)⟩, rfl, rfl, by decide⟩

/-- The whole of a window, one byte of it and a memory with a byte in it. -/
theorem witness_MaskIsAnInvolution : (memoryOf [0x41#8]).wf = true ∧ 8 ≤ win.cap := by decide

theorem witness_MaskIsIndependentOfTheAddress :
    (memoryOf [0x41#8]).wf = true ∧ Memory.wf [(5, 0x41#8)] = true ∧
    winBytes ⟨16, 1⟩ (memoryOf [0x41#8]) 1 = winBytes ⟨5, 1⟩ [(5, 0x41#8)] 1 := by
  decide

theorem witness_MemoryIsCanonical : Memory.wf [(4, 7#8), (9, 1#8)] = true := by decide

/-- A step that stores in the window of the operation, one that stores in that of its command, and one of the host. -/
theorem witness_StoresStayInTheWindow :
    (nextOf (step rxState)).map (fun t => Memory.read t.pbuf 16) = some 0x41#8 ∧ Memory.read rxState.pbuf 16 = 0#8 ∧
    (nextOf (step { idle with host := [.command 2#4 { withWin win with klen := 4, key := key }] })).map
      (fun t => Memory.read t.pbuf 23) = some 0xD4#8 ∧
    (nextOf (step { idle with host := [.store 23 1#8] })).map (fun t => Memory.read t.pbuf 23) = some 1#8 := by
  decide

theorem witness_DecodeStartsWithTheHeader : idle.phase.running = false ∧ topWin.valid idle.params.sizeW = true := by decide

theorem witness_ToggleMaskMasksTheWholeWindow :
    idle.phase.running = false ∧ topWin.valid idle.params.sizeW = true ∧ 4 = 4 ∧ idle.pbuf.wf = true := by decide

theorem witness_WrongKeyLengthTouchesNothing :
    idle.phase.running = false ∧ Window.valid idle.params.sizeW ⟨0, 0⟩ = true ∧ 3 ≠ 4 ∧ 5 ≠ 4 := by
  decide

theorem witness_EncoderEmitsTheMinimalHeader : ∀ n ∈ [0, 125, 126, 65535, 65536, 2 ^ 64 - 1], n < 2 ^ 64 := by
  decide

theorem witness_ServerEncodeEmitsThePayload :
    idle.phase.running = false ∧ win.valid idle.params.sizeW = true ∧ idle.params.hasEncoder = true := by decide

theorem witness_ClientEncodeEmitsTheMaskedPayload :
    idle.phase.running = false ∧ win.valid idle.params.sizeW = true ∧ idle.params.hasEncoder = true ∧ idle.pbuf.wf = true ∧ idle.rng = [] ∧
    ({ idle with rng := [key] } : State).rng = key :: [] := by decide

/-- A length of 0, one equal to the capacity, and one above it. -/
theorem witness_ReadExactChecksTheWindowFirst :
    idle.phase.running = false ∧ win.valid idle.params.sizeW = true ∧ (8 ≠ 0 ∧ 8 ≤ win.cap) ∧ 9 ≠ 0 ∧ win.cap < 9 := by
  decide

theorem witness_ReadExactEndsWhenFilled :
    (let s := running .rxrun 0#16 0#64 8 8
     BlockMoves s s ∧ s.phase = .rxrun ∧ s.work.need = some 8 ∧ s.work.cnt = some 8) :=
  ⟨.inl ⟨rfl, rfl⟩, rfl, rfl, rfl⟩

/-- No window; header rows in a phase of each kind that does not run them; the host's moves, at
the first address that PBUF does not have and at the first of the window. -/
theorem witness_StopsAreNamed :
    (idle.phase.running = false ∧ noWin.valid idle.params.sizeW = false ∧ idle.params.hasEncoder = true) ∧
    (∀ p ∈ [Phase.idle, .rxrun, .keyrd, .ext16, .ext64, .closemeta], (running p 0x8101#16 1#64 1 1).phase = p) ∧
    (let s : State := { payloadState with host := [.connect []] }
     s.host = .connect [] :: [] ∧ s.phase.running = true) ∧
    (let s : State := { idle with host := [.store (2 ^ 32) 1#8] }
     s.host = .store (2 ^ 32) 1#8 :: [] ∧ 2 ^ s.params.sizeW ≤ 2 ^ 32) ∧
    (let s : State := { payloadState with host := [.store 16 1#8] }
     s.host = .store 16 1#8 :: [] ∧ 16 < 2 ^ s.params.sizeW ∧ s.phase.running = true ∧ s.win = some win ∧ win.base ≤ 16 ∧
       16 < win.base + win.cap) := by
  refine ⟨by decide, by decide, ⟨rfl, rfl⟩, ⟨rfl, Nat.le_refl _⟩, rfl, by decide, rfl, rfl, by decide, by decide⟩

/-- A register without a value in each of the places that read one. -/
theorem witness_StopsAreNamed_noValue :
    (let s : State := { rxState with work := Working.empty }
     BlockMoves s s ∧ s.phase.reading = true ∧ s.work.need = none) ∧
    (let s : State := { rxState with work := { rxState.work with cnt := none } }
     BlockMoves s s ∧ s.phase.reading = true ∧ s.work.need ≠ none ∧ s.work.cnt = none) ∧
    (let s : State := { rxState with phase := .payload, work := { Working.empty with need := some 2, cnt := some 2 } }
     BlockMoves s s ∧ s.phase.reading = true ∧ s.phase ≠ .rxrun ∧ s.work.need = some 2 ∧ s.work.cnt = some 2 ∧
       headerBytes s.work.hb = none) ∧
    (∀ p ∈ [Phase.unmask, .closemeta, .ext16, .ext64, .keyrd, .payload],
      (let s : State := { running p 0x8888#16 8#64 8 8 with work := Working.empty, key := KeyFile.empty }
       s.phase = p ∧ headerBytes s.work.hb = none ∧ ext16Value s.work.xb = none ∧ ext64Value s.work.xb = none ∧
         s.work.len = none ∧ s.work.mask = none ∧ keyBytes s.key = none)) ∧
    (∀ (p : Phase) (o : Option (BitVec 4)) (l : Option Len),
      (let s : State := { running p 0x8108#16 8#64 8 8 with
         key := #v[some 1#8, some 2#8, some 3#8, some 4#8],
         work := { Working.empty with mask := some false, fin := some true, opc := o, len := l } }
       s.phase = p ∧ s.work.mask = some false ∧ keyBytes s.key ≠ none ∧ s.work.len = l ∧ s.work.fin ≠ none ∧
         s.work.opc = o)) :=
  ⟨⟨.inl ⟨rfl, rfl⟩, rfl, rfl⟩, ⟨.inl ⟨rfl, rfl⟩, rfl, by decide, rfl⟩,
    ⟨.inl ⟨rfl, rfl⟩, rfl, by decide, rfl, rfl, rfl⟩, by decide,
    fun _ _ _ => ⟨rfl, rfl, Option.some_ne_none _, rfl, Option.some_ne_none _, rfl⟩⟩

theorem witness_CommandsWithoutReadsIgnoreCancel :
    Instr.wru64 5#64 true ∈ [Instr.toggleMask 4 key win, .encode 1#4 true true win, .readExact 0 win]
      ++ byteOrderCommands #v[1#8, 2#8] (Vector.replicate 8 0#8) 5#16 5#64 true ∧
    (∃ t, exec (.wru64 5#64 true) idle = .next t) ∧ (∃ t, exec (.readExact 0 win) idle = .next t) ∧
    ∃ t, exec (.toggleMask 4 key win) idle = .next t := ⟨by decide, ⟨_, rfl⟩, ⟨_, rfl⟩, _, rfl⟩

/-- The ten byte-order commands' hypothesis. -/
theorem witness_ByteOrder :
    idle.phase.running = false ∧ Instr.wri16 0#16 true ∈ [Instr.wru16 0#16 true, .wri16 0#16 true] ∧
    Instr.wri64 0#64 true ∈ [Instr.wru64 0#64 true, .wri64 0#64 true] := by decide

/-- The largest legal value and the least illegal one, while idle and while an operation runs. -/
theorem witness_MaxLenWriteIsChecked :
    ({ idle with host := [.writeMaxLen 4294967295#64] } : State).host = .writeMaxLen 4294967295#64 :: [] ∧
    ({ payloadState with host := [.writeMaxLen 4294967296#64] } : State).host = .writeMaxLen 4294967296#64 :: [] :=
  ⟨rfl, rfl⟩

/-- The three ways in which a step treats MAX_LEN. -/
theorem witness_ConfigurationChangesOnlyByTheHost :
    (∃ t, step payloadState = .next t) ∧ (∃ t, step { idle with host := [.writeMaxLen 7#64] } = .next t) ∧
    ∃ t, step { idle with host := [.reset] } = .next t := ⟨⟨_, rfl⟩, ⟨_, rfl⟩, _, rfl⟩

/-- The last count of a READ_EXACT of the largest window of 32 bits, and a size register of each other kind. -/
theorem witness_SizesHaveTheWidthOfTheParameter :
    Sound payloadState ∧ payloadState.work.need = some 5 ∧ payloadState.win = some win ∧
    (let s : State := { rxState with win := some ⟨1, 0xFFFFFFFF⟩, work := { rxState.work with need := some 0xFFFFFFFF } }
     Sound s ∧ s.work.need = some 0xFFFFFFFF) :=
  ⟨witness_sound_payload, rfl, rfl, sound_of_phase rfl rfl rfl ⟨⟨1, 0xFFFFFFFF⟩, 0xFFFFFFFF, ⟨rfl, rfl, rfl, by decide⟩,
    by decide, rfl, 0, rfl, by decide, fun i => i.elim0⟩, rfl⟩

/-- Both phases that are acknowledged; each of the three ways in which the results change; a running operation, a fault, and an
acknowledged fault, in which none holds a value. -/
theorem witness_AcknowledgeAndWhenTheResultsChange :
    (∀ p ∈ [Phase.done, .fault],
      ({ idle with phase := p, host := [.ack] } : State).host = .ack :: [] ∧
      ({ idle with phase := p, host := [.ack] } : State).phase = p) ∧
    (let s := running .payload 0x8108#16 8#64 8 8
     Sound s ∧ s.phase.running = true ∧ (nextOf (step s)).map (fun t => (t.phase, t.res.fPlen)) = some (.done, some 8)) ∧
    (Sound doneState ∧ doneState.res ≠ Results.empty ∧
      (nextOf (step { doneState with host := [.command 5#4 Args.zero] })).map (fun t => t.res.fPlen) = some none ∧
      (nextOf (step { doneState with host := [.reset] })).map (fun t => t.res) = some Results.empty) ∧
    Sound { idle with phase := .fault, err := .cancelled } ∧
    (Sound { idle with err := .cancelled } ∧ ({ idle with err := .cancelled } : State).err ≠ .none) :=
  ⟨by decide, ⟨witness_ReportedLengthIsWithinItsLimits.1, rfl, by decide⟩,
    ⟨witness_sound_done, by decide, by decide, by decide⟩, witness_sound_fault,
    sound_of_phase rfl rfl rfl ⟨⟨rfl, rfl, rfl⟩, frameSound_empty, fun _ => rfl⟩, by decide⟩

/-- An empty ping of a server: two bytes, an empty destination window, and a MAX_LEN of 0. -/
theorem witness_EncodedFrameDecodesToItsPayload :
    (let s : State := { idle with input := [0x89#8, 0x00#8], answers := [.data 1, .data 1], maxLen := 0#64 }
     ∃ t, exec (.encode 9#4 true false ⟨0, 0⟩) idle = .next t ∧ Sound idle ∧ Sound s ∧ s.phase.running = false ∧
       s.host = [] ∧ s.cancel = false ∧ Window.valid s.params.sizeW ⟨0, 0⟩ = true ∧ 0 ≤ s.maxLen.toNat ∧
       (∀ d ∈ s.answers, ∃ size, d = .data size) ∧ t.out.length ≤ idle.out.length + s.answers.length ∧
       s.input = t.out.drop idle.out.length ++ []) := by
  refine ⟨_, rfl, witness_sound_idle, ⟨rfl, rfl, rfl, by decide, by decide, ⟨⟨rfl, rfl, rfl⟩, frameSound_empty, fun _ => rfl⟩⟩, rfl, rfl, rfl, by decide,
    by decide, ?_, by decide, rfl⟩
  intro d hd
  have h : d = .data 1 := by simpa using hd
  exact ⟨1, h⟩

end Sys2Proof.Tests
end

section
/-! PROOFS. Every step of a sound state goes on to a sound state, or is a refusal of a move against the host's contracts:
the read loop, the rows of a header, the commands and the moves of the host, each with its own lemma. Then the sizes a sound
state holds, and what a step can do to MAX_LEN and the parameters. -/

namespace Sys2Proof.Machine

/-! ### The invariant in two parts -/

/-- What the invariant asks of the payload memory, MAX_LEN and the parameters, whatever the phase. -/
structure PlatformSound (m : Memory) (maxLen : Len) (p : Params) : Prop where
  memory : m.wf = true
  space : m.inSpace p.sizeW = true
  sizeW : Config.legalSizeW p.sizeW = true
  maxLen : maxLen.toNat ≤ Config.maxLenLimit p.sizeW
  recognised : Config.normalClosure ∈ p.recognised

theorem Sound.platform {s : State} (h : Sound s) : PlatformSound s.pbuf s.maxLen s.params :=
  ⟨h.memory, h.space, h.sizeW, h.maxLen, h.recognised⟩

theorem PlatformSound.sound {s : State} (g : PlatformSound s.pbuf s.maxLen s.params) (h : PhaseSound s) : Sound s :=
  ⟨g.memory, g.space, g.sizeW, g.maxLen, g.recognised, h⟩

/-- Bytes stored in a window leave the platform sound. -/
theorem PlatformSound.winWriteAll {m : Memory} {x : Len} {p : Params} (g : PlatformSound m x p) {w : Window}
    (hw : w.valid p.sizeW = true) (i : Nat) (bs : List Byte) : PlatformSound (winWriteAll w m i bs) x p :=
  { g with
    memory := winWriteAll_wf w m i bs g.memory
    space := winWriteAll_inSpace w m i bs hw g.space }

/-- The mask procedure over a window leaves the platform sound. -/
theorem PlatformSound.toggleMask {m : Memory} {x : Len} {p : Params} (g : PlatformSound m x p) {w : Window}
    (hw : w.valid p.sizeW = true) (k : Key) (n : Nat) : PlatformSound (toggleMask k w m n) x p :=
  { g with
    memory := toggleMask_wf k w m n g.memory
    space := toggleMask_inSpace k w m n hw g.space }

/-- A fault leaves a sound state (60_exceptions.md R200). -/
theorem PlatformSound.raised {s : State} (g : PlatformSound s.pbuf s.maxLen s.params) {e : Err} (he : e ≠ .none) :
    Sound (raised e s) :=
  PlatformSound.sound g ⟨⟨rfl, rfl, rfl⟩, he, rfl⟩

/-- The end of an operation leaves a sound state, where its results keep the frame invariants (60_exceptions.md R206). -/
theorem PlatformSound.finished {s : State} (g : PlatformSound s.pbuf s.maxLen s.params) {r : Results}
    (hr : FrameSound s.params.sizeW r) : Sound (finished r s) :=
  PlatformSound.sound g ⟨⟨rfl, rfl, rfl⟩, rfl, hr⟩

/-- The host's script plays no part in the invariant. -/
theorem Sound.withHost {s : State} (h : Sound s) (hs : List HostMove) : Sound { s with host := hs } :=
  PlatformSound.sound h.platform h.phase

/-- The level of CANCEL and the coming answers play no part in the invariant. -/
theorem Sound.answered {s : State} (h : Sound s) (ds : List ReadDraw) (c : Bool) : Sound (answered s ds c) :=
  PlatformSound.sound h.platform h.phase

/-- The window at hand of a running operation is the sampled one, and a window. -/
theorem Underway.valid_someWindow {s : State} {w : Window} (h : Underway s w) :
    (someWindow s).valid s.params.sizeW = true := by
  obtain ⟨-, -, hwin, hvalid⟩ := h
  rwa [someWindow_of hwin]

/-- The outcome is a next state that meets the invariant. -/
def GoesOn (o : Outcome) : Prop := ∃ t, o = .next t ∧ Sound t

theorem goesOn_next {t : State} (h : Sound t) : GoesOn (.next t) := ⟨t, rfl, h⟩

/-! ### The exact read -/

/-- An exact read that goes on: `bs`, no more than is missing, is stored behind the bytes that are there. -/
theorem ReadAt.stored {k : Nat} {s t : State} {m n c : Nat} {f : Vector (Option Byte) k} {bs : List Byte}
    (h : ReadAt s m f) (hn : s.work.need = some n) (hc : s.work.cnt = some c) (hl : bs.length ≤ n - c)
    (hn' : t.work.need = s.work.need) (hc' : t.work.cnt = some (c + bs.length)) : ReadAt t m (storeFile f c bs) := by
  obtain ⟨hneed, c', hcnt, hle, hf⟩ := h
  obtain rfl : m = n := Option.some.inj (hneed.symm.trans hn)
  obtain rfl : c = c' := Option.some.inj (hc.symm.trans hcnt)
  exact ⟨hn'.trans hneed, _, hc', by omega, storeFile_holds f c bs hf⟩

/-- A read into a window fills no byte file, and is only counted. -/
theorem ReadAt.counted {s t : State} {m n c : Nat} {f : Vector (Option Byte) 0} {bs : List Byte}
    (h : ReadAt s m f) (hn : s.work.need = some n) (hc : s.work.cnt = some c) (hl : bs.length ≤ n - c)
    (hn' : t.work.need = s.work.need) (hc' : t.work.cnt = some (c + bs.length)) : ReadAt t m f :=
  have ⟨hneed, c', hcnt, hle, _⟩ := h.stored hn hc hl hn' hc'
  ⟨hneed, c', hcnt, hle, fun i => i.elim0⟩

/-- An exact read begins with nothing read. -/
theorem readAt_start {k : Nat} (p : Phase) {n : Nat} (hn : n ≠ 0) (s : State) (f : Vector (Option Byte) k) :
    ReadAt (startRead p n s) n f := by
  rw [startRead_pos p s hn]
  exact ⟨rfl, 0, rfl, Nat.zero_le n, fun _ hi => absurd hi (Nat.not_lt_zero _)⟩

theorem payloadReadAt_pos {s : State} {l : Len} (hl : l.toNat ≠ 0)
    (h : ReadAt s l.toNat (#v[] : Vector (Option Byte) 0)) : PayloadReadAt s l := by
  rwa [PayloadReadAt, if_neg hl]

/-- While bytes of the payload are missing, its read is an exact read of `LEN` bytes. -/
theorem PayloadReadAt.of_lt {s : State} {l : Len} {n c : Nat} (h : PayloadReadAt s l) (hn : s.work.need = some n)
    (hc : s.work.cnt = some c) (hlt : c < n) : l.toNat ≠ 0 ∧ ReadAt s l.toNat (#v[] : Vector (Option Byte) 0) := by
  unfold PayloadReadAt at h
  split at h
  · obtain ⟨m, _, hm, hm'⟩ := h
    obtain rfl : m = n := Option.some.inj (hm.symm.trans hn)
    obtain rfl : m = c := Option.some.inj (hm'.symm.trans hc)
    exact absurd hlt (Nat.lt_irrefl m)
  · next h0 => exact ⟨h0, h⟩

/-- Delivered bytes, no more than are missing, leave a sound state in every phase that reads. -/
theorem Sound.readOn {s : State} (h : Sound s) {n c : Nat} (hr : s.phase.reading = true) (hn : s.work.need = some n)
    (hc : s.work.cnt = some c) (hlt : c < n) {bs : List Byte} (hl : bs.length ≤ n - c) (ds : List ReadDraw) :
    Sound (readOn c bs ds s) := by
  have g := h.platform
  have ph := h.phase
  unfold PhaseSound at ph
  cases hp : s.phase <;> simp only [hp] at ph <;>
    simp only [Machine.readOn, Machine.stored, Machine.counted, delivered, hp]
  case hdr =>
    obtain ⟨w, hu, hread⟩ := ph
    exact PlatformSound.sound g ⟨w, hu, hread.stored hn hc hl rfl rfl⟩
  case ext16 =>
    obtain ⟨w, hw, hu, hlat, hind, hread⟩ := ph
    exact PlatformSound.sound g ⟨w, hw, hu, hlat, hind, hread.stored hn hc hl rfl rfl⟩
  case ext64 =>
    obtain ⟨w, hw, hu, hlat, hind, hread⟩ := ph
    exact PlatformSound.sound g ⟨w, hw, hu, hlat, hind, hread.stored hn hc hl rfl rfl⟩
  case keyrd =>
    obtain ⟨w, hw, l, hu, hlat, hmask, hlen, hread⟩ := ph
    exact PlatformSound.sound g ⟨w, hw, l, hu, hlat, hmask, hlen, hread.stored hn hc hl rfl rfl⟩
  case payload =>
    obtain ⟨w, hw, l, hu, hlat, hlen, hcap, hread, hkey⟩ := ph
    obtain ⟨hne, hread⟩ := hread.of_lt hn hc hlt
    exact PlatformSound.sound (g.winWriteAll hu.valid_someWindow c bs)
      ⟨w, hw, l, hu, hlat, hlen, hcap, payloadReadAt_pos hne (hread.counted hn hc hl rfl rfl), hkey⟩
  case rxrun =>
    obtain ⟨w, m, hu, hcap, hread⟩ := ph
    exact PlatformSound.sound (g.winWriteAll hu.valid_someWindow c bs)
      ⟨w, m, hu, hcap, hread.counted hn hc hl rfl rfl⟩
  all_goals simp only [hp, Phase.reading, Bool.false_eq_true] at hr

/-- One turn of the exact read goes on from a sound state, whatever the stream answers (44_exact_read.md R151 to R155). -/
theorem readStep_goesOn {s : State} (h : Sound s) {n c : Nat} (hr : s.phase.reading = true) (hn : s.work.need = some n)
    (hc : s.work.cnt = some c) (hlt : c < n) : GoesOn (readStep n c s) := by
  rcases readStep_cases n c s with ⟨-, -, e⟩ | ⟨-, e⟩ | ⟨-, ds, -, e⟩ | ⟨-, size, ds, b, -, ⟨-, e⟩ | ⟨-, e⟩⟩ <;> rw [e]
  · exact goesOn_next h
  · exact goesOn_next (h.platform.raised (by decide))
  · exact goesOn_next ((h.answered ds true).platform.raised (by decide))
  · exact goesOn_next ((h.answered ds b).platform.raised (by decide))
  · rw [storeDelivered_eq_stored _ _ (by exact hr)]
    exact goesOn_next ((h.answered ds b).readOn hr hn hc hlt (deliveryOf_length_le _ _ _) ds)


/-! ### The rows of the length forms -/

/-- The read before is complete, with at most the eight bytes of the longest length form (30_encoding.md R65). -/
def HeaderReadDone (s : State) : Prop := ∃ n, n ≤ 8 ∧ s.work.need = some n ∧ s.work.cnt = some n

/-- The payload read begins, or with no byte to read leaves what the header's last read left. -/
theorem payloadReadAt_start {s : State} (hr : HeaderReadDone s) (l : Len) :
    PayloadReadAt (startRead .payload l.toNat s) l := by
  by_cases h0 : l.toNat = 0
  · rw [PayloadReadAt, if_pos h0, h0, startRead_zero]
    exact hr
  · exact payloadReadAt_pos h0 (readAt_start .payload h0 s _)

/-- From a header whose length passed the cap check the window check goes on (41_frame_decoder.md R98, R99). -/
theorem startPayload_goesOn {s : State} {w : Window} {hw : HeaderWord} {l : Len}
    (g : PlatformSound s.pbuf s.maxLen s.params) (hu : Underway s w) (hlat : Latched s hw) (hlen : LengthAccepted s l)
    (hr : HeaderReadDone s) (hk : hwMask hw = true → FileHolds s.key 4) : GoesOn (startPayload s) := by
  obtain ⟨hl, hmax⟩ := hlen
  obtain ⟨-, -, hwin, -⟩ := id hu
  rcases startPayload_cases s with ⟨hl', -⟩ | ⟨-, -, -, e⟩ | ⟨l', hl', hcap, e⟩
  · rw [hl] at hl'
    cases hl'
  · exact e ▸ goesOn_next (g.raised (by decide))
  · obtain rfl : l = l' := Option.some.inj (hl.symm.trans hl')
    rw [someWindow_of hwin] at hcap
    exact e ▸ goesOn_next
      (PlatformSound.sound g ⟨w, hw, l, hu, hlat, ⟨hl, hmax⟩, hcap, payloadReadAt_start hr l, hk⟩)

/-- From a header whose length is assembled the cap check goes on (41_frame_decoder.md R95, R97). -/
theorem lengthKnown_goesOn {s : State} {w : Window} {hw : HeaderWord} (g : PlatformSound s.pbuf s.maxLen s.params)
    (hu : Underway s w) (hlat : Latched s hw) (hr : HeaderReadDone s) (l : Len) :
    GoesOn (lengthKnown (hwMask hw) l s) := by
  rcases lengthKnown_cases (hwMask hw) l s with ⟨-, e⟩ | ⟨hle, hm, e⟩ | ⟨hle, hm, e⟩ <;> rw [e]
  · exact goesOn_next (PlatformSound.raised g (by decide))
  · exact goesOn_next (PlatformSound.sound g
      ⟨w, hw, l, hu, hlat, hm, ⟨rfl, hle⟩, readAt_start .keyrd (by decide) (withLen s l) _⟩)
  · exact startPayload_goesOn g hu hlat ⟨rfl, hle⟩ hr fun hm' => absurd (hm.symm.trans hm') (by decide)

/-- A length-form row at the end of HDR. -/
theorem exec_lengthForm_hdr {s : State} (hp : s.phase = .hdr) (hw : HeaderWord) : exec (decodeLengthForm hw) s =
    if hwInd hw = 126#7 then .next (extending .ext16 2 (hwFin hw) (hwOpc hw) (hwMask hw) 126#7 s)
    else if hwInd hw = 127#7 then .next (extending .ext64 8 (hwFin hw) (hwOpc hw) (hwMask hw) 127#7 s)
    else lengthKnown (hwMask hw) ((hwInd hw).setWidth 64)
      (extractFields (hwFin hw) (hwOpc hw) (hwMask hw) (hwInd hw) s) := by
  simp only [exec_decodeLengthForm, length16Row, length64Row, length7Row, hp, extending]

/-- A length-form row at the end of EXT16. -/
theorem exec_lengthForm_ext16 {s : State} (hp : s.phase = .ext16) {hw : HeaderWord} (hi : hwInd hw = 126#7) :
    exec (decodeLengthForm hw) s =
      withValue .xb (ext16Value s.work.xb) fun v => lengthKnown (hwMask hw) (v.setWidth 64) s := by
  simp only [exec_decodeLengthForm, if_pos hi, length16Row, hp]

/-- A length-form row at the end of EXT64. -/
theorem exec_lengthForm_ext64 {s : State} (hp : s.phase = .ext64) {hw : HeaderWord} (hi : hwInd hw = 127#7) :
    exec (decodeLengthForm hw) s =
      withValue .xb (ext64Value s.work.xb) fun v => lengthKnown (hwMask hw) v s := by
  have h6 : hwInd hw ≠ 126#7 := by rw [hi]; decide
  simp only [exec_decodeLengthForm, if_neg h6, if_pos hi, length64Row, hp]

/-- A length-form row at the end of KEYRD. -/
theorem exec_lengthForm_keyrd {s : State} (hp : s.phase = .keyrd) {hw : HeaderWord} (hm : hwMask hw = true) :
    exec (decodeLengthForm hw) s = startPayload s := by
  simp only [exec_decodeLengthForm, length16Row, length64Row, length7Row, hp, keyKnown, hm, if_true, ite_self]

/-- From the end of HDR the length-form row goes on (41_frame_decoder.md R92 to R94). -/
theorem lengthForm_hdr_goesOn {s : State} {w : Window} {hw : HeaderWord} (g : PlatformSound s.pbuf s.maxLen s.params)
    (hp : s.phase = .hdr) (hu : Underway s w) (hb : headerBytes s.work.hb = some hw) (hr : HeaderReadDone s) :
    GoesOn (exec (decodeLengthForm hw) s) := by
  rw [exec_lengthForm_hdr hp]
  split
  · next h6 =>
    exact goesOn_next (PlatformSound.sound g ⟨w, hw, hu, ⟨hb, rfl, rfl, rfl, congrArg some h6.symm⟩, h6,
      readAt_start .ext16 (by decide) (extractFields _ _ _ _ s) _⟩)
  · split
    · next h7 =>
      exact goesOn_next (PlatformSound.sound g ⟨w, hw, hu, ⟨hb, rfl, rfl, rfl, congrArg some h7.symm⟩, h7,
        readAt_start .ext64 (by decide) (extractFields _ _ _ _ s) _⟩)
    · exact lengthKnown_goesOn (s := extractFields _ _ _ _ s) g hu ⟨hb, rfl, rfl, rfl, rfl⟩ hr _

/-! ### The rows of the opcodes -/

/-- What the end of a frame reports (41_frame_decoder.md R105). -/
def frameResults (c : CloseMeta) (f : Bool) (o : BitVec 4) (l : Len) : Results :=
  { Results.empty with fFin := some f, fOpc := some o, fPlen := some l.toNat, fCsV := some c.csV, fCs := c.cs,
                       fCrV := some c.crV, fCrOff := c.crOff, fCrLen := c.crLen }

/-- A frame that is no CLOSE reports nothing of its payload (41_frame_decoder.md R104; 10_state.md R20). -/
theorem frameSound_generic {sizeW : Nat} (f : Bool) {o : BitVec 4} {l : Len} (ho : o ≠ 8#4)
    (hl : l.toNat < Config.sizeRange sizeW) : FrameSound sizeW (frameResults noCloseMeta f o l) := by
  refine ⟨fun _ _ _ => ⟨rfl, rfl⟩, fun o' ho' h8 => ?_, fun h => ?_, fun _ => ⟨rfl, rfl⟩, fun p hp => ?_⟩
  · exact absurd ((Option.some.inj ho').trans h8) ho
  · exact absurd (Option.some.inj h) (by decide)
  · exact Option.some.inj hp ▸ hl

/-- Everything a CLOSE frame can report: a status always, and a reason exactly where there are more than two bytes
(41_frame_decoder.md R102, R103). -/
theorem closeMetaOf_cases (p : Params) (m : Memory) (w : Window) (l : Len) :
    (∃ cs, closeMetaOf p m w l = { csV := true, cs := cs, crV := false, crOff := none, crLen := none }) ∨
    (2 < l.toNat ∧ ∃ cs, closeMetaOf p m w l =
      { csV := true, cs := cs, crV := true, crOff := some 2, crLen := some (l.toNat - 2) }) := by
  unfold closeMetaOf
  split
  · dsimp only
    split
    · next h => exact .inr ⟨h, _, rfl⟩
    · exact .inl ⟨_, rfl⟩
  · exact .inl ⟨_, rfl⟩

/-- A CLOSE frame keeps the frame invariants (10_state.md R19, R20). -/
theorem frameSound_close {sizeW : Nat} (p : Params) (m : Memory) (w : Window) (f : Bool) {l : Len}
    (hl : l.toNat < Config.sizeRange sizeW) : FrameSound sizeW (frameResults (closeMetaOf p m w l) f 8#4 l) := by
  have hplen : ∀ (c : CloseMeta) (n : Nat), (frameResults c f 8#4 l).fPlen = some n → n < Config.sizeRange sizeW :=
    fun _ _ hn => Option.some.inj hn ▸ hl
  rcases closeMetaOf_cases p m w l with ⟨cs, hc⟩ | ⟨h2, cs, hc⟩ <;> rw [hc]
  · exact ⟨fun _ ho hne => absurd (Option.some.inj ho).symm hne, fun _ _ _ => rfl,
      fun h => absurd (Option.some.inj h) Bool.false_ne_true, fun _ => ⟨rfl, rfl⟩, hplen _⟩
  · exact ⟨fun _ ho hne => absurd (Option.some.inj ho).symm hne, fun _ _ _ => rfl,
      fun _ => ⟨rfl, l.toNat, rfl, h2, rfl, rfl⟩, fun h => absurd rfl h, hplen _⟩

/-- The end of a frame goes on where its registers hold a value and its results keep the frame invariants. -/
theorem frameDone_goesOn {s : State} {hw : HeaderWord} {l : Len} {c : CloseMeta}
    (g : PlatformSound s.pbuf s.maxLen s.params) (hlat : Latched s hw) (hl : s.work.len = some l)
    (hr : FrameSound s.params.sizeW (frameResults c (hwFin hw) (hwOpc hw) l)) : GoesOn (frameDone c s) := by
  obtain ⟨-, hfin, hopc, -, -⟩ := hlat
  refine ⟨finished (frameResults c (hwFin hw) (hwOpc hw) l) s, ?_, g.finished hr⟩
  simp only [frameDone, hfin, hopc, hl, withValue_some, finish, frameResults]

section
variable {s : State} {w : Window} {hw : HeaderWord} {l : Len} (g : PlatformSound s.pbuf s.maxLen s.params)
  (hu : Underway s w) (hlat : Latched s hw) (hlen : LengthAccepted s l) (hcap : l.toNat ≤ w.cap)
  (hread : PayloadReadAt s l)
include g hu hlat hlen hcap

/-- From CLOSEMETA the row of CLOSE goes on to DONE (41_frame_decoder.md R102, R103, R105). -/
theorem opcodeRow_closemeta_goesOn (hp : s.phase = .closemeta) (ho : hwOpc hw = 8#4) : GoesOn (opcodeRow true s) := by
  obtain ⟨-, hwcap, -⟩ := Window.valid_bounds hu.2.2.2
  have e : opcodeRow true s = frameDone (closeMetaOf s.params s.pbuf (someWindow s) l) s := by
    simp only [opcodeRow, hp, if_true, closeMetaStep, hlen.1, withValue_some]
  rw [e]
  refine frameDone_goesOn g hlat hlen.1 ?_
  rw [ho]
  exact frameSound_close _ _ _ _ (by omega)

include hread

/-- Where the payload is complete and unmasked the row goes on, to CLOSEMETA or to DONE (41_frame_decoder.md R104, R106). -/
theorem payloadDone_goesOn : GoesOn (payloadDone (decide (hwOpc hw = 8#4)) s) := by
  obtain ⟨-, hwcap, -⟩ := Window.valid_bounds hu.2.2.2
  rcases payloadDone_cases (decide (hwOpc hw = 8#4)) s with ⟨ho, e⟩ | ⟨ho, e⟩ <;> rw [e]
  · exact goesOn_next (PlatformSound.sound g ⟨w, hw, l, hu, hlat, hlen, hcap, hread, of_decide_eq_true ho⟩)
  · exact frameDone_goesOn g hlat hlen.1 (frameSound_generic _ (of_decide_eq_false ho) (by omega))

/-- From the end of PAYLOAD the opcode row goes on, to UNMASK where the payload is masked (41_frame_decoder.md R100, R106). -/
theorem opcodeRow_payload_goesOn (hp : s.phase = .payload) (hk : hwMask hw = true → FileHolds s.key 4) :
    GoesOn (opcodeRow (decide (hwOpc hw = 8#4)) s) := by
  obtain ⟨-, -, -, hmask, -⟩ := id hlat
  simp only [opcodeRow, hp, hmask, withValue_some]
  split
  · next hm => exact goesOn_next (PlatformSound.sound g ⟨w, hw, l, hu, hlat, hlen, hcap, hread, hm, hk hm⟩)
  · exact payloadDone_goesOn g hu hlat hlen hcap hread

/-- From UNMASK the opcode row goes on: the whole payload is unmasked in the window (41_frame_decoder.md R100). -/
theorem opcodeRow_unmask_goesOn (hp : s.phase = .unmask) (hk : FileHolds s.key 4) :
    GoesOn (opcodeRow (decide (hwOpc hw = 8#4)) s) := by
  obtain ⟨k, hkey⟩ := keyBytes_of_holds hk
  simp only [opcodeRow, hp, unmaskPayload, hkey, hlen.1, withValue_some]
  exact payloadDone_goesOn (s := { s with pbuf := toggleMask k (someWindow s) s.pbuf l.toNat })
    (g.toggleMask hu.valid_someWindow k _) hu hlat hlen hcap hread

end

/-! ### A step of the block -/

/-- In a phase that reads, the block goes on with the read while bytes are missing, and otherwise the byte file is full. -/
theorem ReadAt.goesOn_or_complete {k : Nat} {s : State} {n : Nat} {f : Vector (Option Byte) k} (hread : ReadAt s n f)
    (h : Sound s) (hr : s.phase.reading = true) :
    GoesOn (blockStep s) ∨ (s.work.need = some n ∧ s.work.cnt = some n ∧ FileHolds f n) := by
  obtain ⟨hn, c, hc, hle, hf⟩ := hread
  rcases Nat.lt_or_eq_of_le hle with hlt | rfl
  · rw [blockStep_read (fetch_read hr hn hc hlt)]
    exact .inl (readStep_goesOn h hr hn hc hlt)
  · exact .inr ⟨hn, hc, hf⟩

/-- In PAYLOAD the block goes on with the read while bytes are missing (41_frame_decoder.md R99, R101). -/
theorem PayloadReadAt.goesOn_or_complete {s : State} {l : Len} (hread : PayloadReadAt s l) (h : Sound s)
    (hr : s.phase.reading = true) : GoesOn (blockStep s) ∨ ∃ n, s.work.need = some n ∧ s.work.cnt = some n := by
  unfold PayloadReadAt at hread
  split at hread
  · obtain ⟨n, -, hn, hc⟩ := hread
    exact .inr ⟨n, hn, hc⟩
  · exact (hread.goesOn_or_complete h hr).imp_right fun ⟨hn, hc, _⟩ => ⟨_, hn, hc⟩

/-- The block goes on from every sound state (41_frame_decoder.md R106; 44_exact_read.md R151). -/
theorem blockStep_goesOn {s : State} (h : Sound s) : GoesOn (blockStep s) := by
  have g := h.platform
  have ph := h.phase
  have wait : s.phase.running = false → GoesOn (blockStep s) := fun hr =>
    ⟨s, blockStep_wait (fetch_not_running hr), h⟩
  unfold PhaseSound at ph
  cases hp : s.phase <;> simp only [hp] at ph
  case idle => exact wait (by rw [hp]; rfl)
  case done => exact wait (by rw [hp]; rfl)
  case fault => exact wait (by rw [hp]; rfl)
  case hdr =>
    obtain ⟨w, hu, hread⟩ := ph
    rcases hread.goesOn_or_complete h (by rw [hp]; rfl) with hgo | ⟨hn, hc, hf⟩
    · exact hgo
    · obtain ⟨hw, hb⟩ := headerBytes_of_holds hf
      rw [blockStep_lengthForm (fetch_lengthForm (by rw [hp]; rfl) hn hc hb)]
      exact lengthForm_hdr_goesOn g hp hu hb ⟨2, by decide, hn, hc⟩
  case ext16 =>
    obtain ⟨w, hw, hu, hlat, hind, hread⟩ := ph
    rcases hread.goesOn_or_complete h (by rw [hp]; rfl) with hgo | ⟨hn, hc, hf⟩
    · exact hgo
    · obtain ⟨v, hv⟩ := ext16Value_of_holds hf
      rw [blockStep_lengthForm (fetch_lengthForm (by rw [hp]; rfl) hn hc hlat.1), exec_lengthForm_ext16 hp hind, hv]
      exact lengthKnown_goesOn g hu hlat ⟨2, by decide, hn, hc⟩ _
  case ext64 =>
    obtain ⟨w, hw, hu, hlat, hind, hread⟩ := ph
    rcases hread.goesOn_or_complete h (by rw [hp]; rfl) with hgo | ⟨hn, hc, hf⟩
    · exact hgo
    · obtain ⟨v, hv⟩ := ext64Value_of_holds hf
      rw [blockStep_lengthForm (fetch_lengthForm (by rw [hp]; rfl) hn hc hlat.1), exec_lengthForm_ext64 hp hind, hv]
      exact lengthKnown_goesOn g hu hlat ⟨8, by decide, hn, hc⟩ _
  case keyrd =>
    obtain ⟨w, hw, l, hu, hlat, hmask, hlen, hread⟩ := ph
    rcases hread.goesOn_or_complete h (by rw [hp]; rfl) with hgo | ⟨hn, hc, hf⟩
    · exact hgo
    · rw [blockStep_lengthForm (fetch_lengthForm (by rw [hp]; rfl) hn hc hlat.1), exec_lengthForm_keyrd hp hmask]
      exact startPayload_goesOn g hu hlat hlen ⟨4, by decide, hn, hc⟩ fun _ => hf
  case payload =>
    obtain ⟨w, hw, l, hu, hlat, hlen, hcap, hread, hk⟩ := ph
    rcases hread.goesOn_or_complete h (by rw [hp]; rfl) with hgo | ⟨n, hn, hc⟩
    · exact hgo
    · rw [blockStep_opcode (fetch_payload hp hn hc hlat.1)]
      exact opcodeRow_payload_goesOn g hu hlat hlen hcap hread hp hk
  case unmask =>
    obtain ⟨w, hw, l, hu, hlat, hlen, hcap, hread, -, hk⟩ := ph
    rw [blockStep_opcode (fetch_opcode (.inl hp) hlat.1)]
    exact opcodeRow_unmask_goesOn g hu hlat hlen hcap hread hp hk
  case closemeta =>
    obtain ⟨w, hw, l, hu, hlat, hlen, hcap, -, ho⟩ := ph
    rw [blockStep_opcode (fetch_opcode (.inr hp) hlat.1), decide_eq_true ho]
    exact opcodeRow_closemeta_goesOn g hu hlat hlen hcap hp ho
  case rxrun =>
    obtain ⟨w, n, hu, hcap, hread⟩ := ph
    rcases hread.goesOn_or_complete h (by rw [hp]; rfl) with hgo | ⟨hn, hc, -⟩
    · exact hgo
    · rw [blockStep_endRead (fetch_endRead hp hn hc)]
      exact goesOn_next (g.finished frameSound_empty)

/-! ### Commands -/

/-- The four commands that sample a window, of one set of argument lines (30_encoding.md R79). -/
def windowCommands (a : Args) : List Instr :=
  [.decode a.win, .toggleMask a.klen a.key a.win, .encode a.opcode a.isFinal a.isClient a.win,
   .readExact a.length a.win]

/-- Everything a command code can decode to (30_encoding.md R78). -/
theorem decodeCommand_cases (code : BitVec 4) (a : Args) :
    (∃ c, decodeCommand code a = .error (.noOperation c)) ∨
    (∃ i, decodeCommand code a = .ok i ∧ codeHasWindow code = true ∧ i ∈ windowCommands a) ∨
    (∃ i, decodeCommand code a = .ok i ∧
      i ∈ byteOrderCommands (firstTwo a.b) a.b (a.v.setWidth 16) a.v a.little) := by
  unfold decodeCommand
  split
  case h_15 => exact .inl ⟨_, rfl⟩
  case h_1 | h_2 | h_3 | h_4 => exact .inr (.inl ⟨_, rfl, rfl, by simp [windowCommands]⟩)
  all_goals exact .inr (.inr ⟨_, rfl, by simp [byteOrderCommands]⟩)

/-- The byte-order commands have one course. -/
theorem byteOrderCommands_exec {b2 : Vector Byte 2} {b8 : Vector Byte 8} {v16 : BitVec 16} {v64 : BitVec 64}
    {little : Bool} {i : Instr} (hi : i ∈ byteOrderCommands b2 b8 v16 v64 little) (s : State) :
    ∃ b, exec i s = answer b s := by
  simp only [byteOrderCommands, List.mem_cons, List.not_mem_nil, or_false] at hi
  rcases hi with rfl | rfl | rfl | rfl | rfl | rfl | rfl | rfl | rfl | rfl <;> exact ⟨_, rfl⟩

/-- A byte-order command goes on from every sound state. -/
theorem answer_goesOn {s : State} (h : Sound s) (b : BOut) : GoesOn (answer b s) := by
  rcases answer_cases b s with ⟨-, e⟩ | ⟨-, e⟩ <;> rw [e]
  · exact goesOn_next h
  · exact goesOn_next (PlatformSound.finished h.platform (frameSound_none rfl rfl rfl rfl rfl))

/-- A command with a window goes on from every sound state, but for one that would be accepted and is given no window
(20_memory.md R44). -/
theorem windowCommand_goesOn {s : State} (h : Sound s) {a : Args} {i : Instr} (hi : i ∈ windowCommands a) :
    GoesOn (exec i s) ∨ (s.phase.running = false ∧ a.win.valid s.params.sizeW = false ∧
      exec i s = .refused .notAWindow) := by
  have g := h.platform
  simp only [windowCommands, List.mem_cons, List.not_mem_nil, or_false] at hi
  rcases hi with rfl | rfl | rfl | rfl
  · rcases decode_cases a.win s with ⟨-, e⟩ | no | ⟨-, hv, e⟩
    · exact .inl (e ▸ goesOn_next h)
    · exact .inr no
    · exact .inl (e ▸ goesOn_next (PlatformSound.sound g
        ⟨a.win, ⟨rfl, rfl, rfl, hv⟩, readAt_start .hdr (by decide) _ _⟩))
  · rcases toggleMask_cases a.klen a.key a.win s with ⟨-, e⟩ | no | ⟨-, -, -, e⟩ | ⟨-, hv, -, e⟩
    · exact .inl (e ▸ goesOn_next h)
    · exact .inr no
    · exact .inl (e ▸ goesOn_next (PlatformSound.raised g (by decide)))
    · exact .inl (e ▸ goesOn_next (PlatformSound.finished (g.toggleMask hv _ _) frameSound_empty))
  · rcases encode_cases a.opcode a.isFinal a.isClient a.win s with
      ⟨-, e⟩ | ⟨hr, -, no⟩ | ⟨-, -, hv, ⟨-, e⟩ | ⟨-, k, ks, -, e⟩ | ⟨-, -, e⟩⟩
    · exact .inl (e ▸ goesOn_next h)
    · exact .inr ⟨hr, no⟩
    · exact .inl (e ▸ goesOn_next (PlatformSound.finished (by exact g) (frameSound_none rfl rfl rfl rfl rfl)))
    · exact .inl (e ▸ goesOn_next (PlatformSound.finished (g.toggleMask hv _ _) (frameSound_none rfl rfl rfl rfl rfl)))
    · exact .inl (e ▸ goesOn_next (PlatformSound.finished (g.toggleMask hv _ _) (frameSound_none rfl rfl rfl rfl rfl)))
  · rcases readExact_cases a.length a.win s with ⟨-, e⟩ | no | ⟨-, -, -, -, e⟩ | ⟨-, -, -, e⟩ | ⟨-, hv, h0, hcap, e⟩
    · exact .inl (e ▸ goesOn_next h)
    · exact .inr no
    · exact .inl (e ▸ goesOn_next (PlatformSound.raised g (by decide)))
    · exact .inl (e ▸ goesOn_next (PlatformSound.finished g frameSound_empty))
    · exact .inl (e ▸ goesOn_next (PlatformSound.sound g
        ⟨a.win, a.length, ⟨rfl, rfl, rfl, hv⟩, hcap, readAt_start .rxrun h0 _ _⟩))

/-- A presented command goes on from every sound state, but for one that would be accepted and is given no window. -/
theorem runWord_command_goesOn {s : State} (h : Sound s) (code : BitVec 4) (a : Args) :
    GoesOn (runWord (.command code a) s) ∨ (s.phase.running = false ∧ codeHasWindow code = true ∧
      a.win.valid s.params.sizeW = false ∧ runWord (.command code a) s = .refused .notAWindow) := by
  rcases decodeCommand_cases code a with ⟨c, hd⟩ | ⟨i, hd, hcode, hi⟩ | ⟨i, hd, hi⟩ <;> simp only [runWord, decode, hd]
  · exact .inl (goesOn_next h)
  · exact (windowCommand_goesOn h hi).imp_right fun ⟨hr, hv, e⟩ => ⟨hr, hcode, hv, e⟩
  · obtain ⟨b, e⟩ := byteOrderCommands_exec hi s
    exact .inl (e ▸ answer_goesOn h b)

/-! ### The other moves of the host -/

/-- An acknowledge keeps the invariant (60_exceptions.md R205). -/
theorem acknowledge_sound {s : State} (h : Sound s) : Sound (acknowledge s) := by
  have ph := h.phase
  unfold PhaseSound at ph
  cases hp : s.phase <;> simp only [hp] at ph <;> simp only [acknowledge, hp]
  case done =>
    obtain ⟨hq, herr, hf⟩ := ph
    exact PlatformSound.sound h.platform ⟨hq, hf, fun hne => absurd herr hne⟩
  case fault =>
    obtain ⟨hq, -, hres⟩ := ph
    exact PlatformSound.sound h.platform ⟨hq, hres ▸ frameSound_empty, fun _ => hres⟩
  all_goals exact h

/-- Between operations no phase's part of the invariant speaks of MAX_LEN. -/
theorem phaseSound_withMaxLen {s : State} (h : PhaseSound s) (hr : s.phase.running = false) (v : Len) :
    PhaseSound { s with maxLen := v } := by
  unfold PhaseSound at h ⊢
  cases hp : s.phase <;> simp only [hp] at h ⊢
  case idle | done | fault => exact h
  all_goals
    rw [hp] at hr
    exact absurd hr (by decide)

/-- Everything a write of MAX_LEN can do: nothing, or between operations a legal value is taken (10_state.md R22). -/
theorem writeMaxLen_cases (v : Len) (s : State) :
    writeMaxLen v s = s ∨ (s.phase.running = false ∧ v.toNat ≤ Config.maxLenLimit s.params.sizeW ∧
      writeMaxLen v s = { s with maxLen := v }) := by
  unfold writeMaxLen
  split
  · exact .inl rfl
  · next hr =>
    split
    · next hv => exact .inr ⟨Bool.eq_false_iff.mpr hr, hv, rfl⟩
    · exact .inl rfl

/-- A write of MAX_LEN keeps the invariant. -/
theorem writeMaxLen_sound {s : State} (h : Sound s) (v : Len) : Sound (writeMaxLen v s) := by
  rcases writeMaxLen_cases v s with e | ⟨hr, hv, e⟩ <;> rw [e]
  · exact h
  · exact PlatformSound.sound { h.platform with maxLen := hv } (phaseSound_withMaxLen h.phase hr v)

/-- The reset value of MAX_LEN is legal for every legal SIZE_W (00_scope.md R4; 92_eei_decisions.md D6). -/
theorem maxLenReset_le {sizeW : Nat} (h : Config.legalSizeW sizeW = true) :
    Config.maxLenReset.toNat ≤ Config.maxLenLimit sizeW := by
  have h32 : 32 ≤ sizeW := of_decide_eq_true h
  have hpow : 2 ^ 32 ≤ 2 ^ sizeW := Nat.pow_le_pow_right (by decide) h32
  have hreset : Config.maxLenReset.toNat = 2 ^ 31 := by decide
  rw [hreset, Config.maxLenLimit, Config.sizeRange]
  omega

/-- A reset gives a sound state (10_state.md R25; 70_reset_and_hazards.md R220). -/
theorem resetBlock_sound {s : State} (h : Sound s) : Sound (State.resetBlock s) :=
  PlatformSound.sound { h.platform with maxLen := maxLenReset_le h.sizeW }
    ⟨⟨rfl, rfl, rfl⟩, frameSound_empty, fun _ => rfl⟩

/-- A store to an address of PBUF keeps the invariant (20_memory.md R44). -/
theorem store_sound {s : State} (h : Sound s) {addr : Nat} (ha : addr < Config.sizeRange s.params.sizeW) (b : Byte) :
    Sound { s with pbuf := Memory.write s.pbuf addr b } :=
  PlatformSound.sound
    { h.platform with memory := Memory.write_wf _ addr b h.memory, space := Memory.write_inSpace _ b h.space ha } h.phase

/-! ### A step of the machine -/

/-- From a sound state a step goes on to a sound state, or it is a refusal of a move by which the host breaks its contracts. -/
theorem step_goesOn {s : State} (h : Sound s) :
    GoesOn (step s) ∨ (hostKeepsContracts s = false ∧ ∃ r, step s = .refused r) := by
  have hrest : ∀ hs, Sound { s with host := hs } := h.withHost
  cases hh : s.host with
  | nil =>
    simp only [step, advance, hh]
    exact .inl (blockStep_goesOn h)
  | cons m hs =>
    cases m <;> simp only [step, advance, hostKeepsContracts, hh]
    case yield => exact .inl (blockStep_goesOn (hrest hs))
    case await =>
      split
      · exact .inl (blockStep_goesOn h)
      · exact .inl (goesOn_next (hrest hs))
    case command code a =>
      rcases runWord_command_goesOn (hrest hs) code a with hgo | ⟨hr, hcode, hv, e⟩
      · exact .inl hgo
      · have hr' : s.phase.running = false := hr
        have hv' : a.win.valid s.params.sizeW = false := hv
        exact .inr ⟨by simp [hr', hcode, hv'], _, e⟩
    case ack => exact .inl (goesOn_next (acknowledge_sound (hrest hs)))
    case writeMaxLen v => exact .inl (goesOn_next (writeMaxLen_sound (hrest hs) v))
    case setCancel level => exact .inl (goesOn_next (PlatformSound.sound h.platform h.phase))
    case reset => exact .inl (goesOn_next (resetBlock_sound (hrest hs)))
    case connect bytes =>
      rcases connect_cases bytes { s with host := hs } with ⟨hr, e⟩ | ⟨-, e⟩ <;> rw [e]
      · exact .inr ⟨by simp [show s.phase.running = true from hr], _, rfl⟩
      · exact .inl (goesOn_next (PlatformSound.sound h.platform h.phase))
    case store addr b =>
      rcases hostStore_cases addr b { s with host := hs } with ⟨ha, e⟩ | ⟨-, hw, e⟩ | ⟨ha, -, e⟩ <;> rw [e]
      · exact .inr ⟨by simp [Nat.not_lt.mpr (show Config.sizeRange s.params.sizeW ≤ addr from ha)], _, rfl⟩
      · exact .inr ⟨by simp [show inRunningWindow addr s = true from hw], _, rfl⟩
      · exact .inl (goesOn_next (store_sound (hrest hs) ha b))

/-- Settles O8: a step that answers a next state has gone on, so that state is sound. -/
theorem everyStepKeepsTheInvariant : Obligations.EveryStepKeepsTheInvariant := by
  intro s t h hstep
  rcases step_goesOn h with ⟨u, e, hu⟩ | ⟨-, r, e⟩ <;> rw [hstep] at e
  · cases e
    exact hu
  · cases e

/-- Settles O9: a step goes on or is refused, and is refused only where the host breaks its contracts. -/
theorem soundStatesAlwaysGoOn : Obligations.SoundStatesAlwaysGoOn := by
  intro s h
  rcases step_goesOn h with ⟨t, e, -⟩ | ⟨hbroken, r, e⟩
  · exact ⟨by rw [e]; nofun, fun _ => ⟨t, e⟩⟩
  · exact ⟨by rw [e]; nofun, fun hkept => absurd (hbroken.symm.trans hkept) Bool.false_ne_true⟩

/-! ### Sizes -/

/-- Between operations no working register, key byte or window holds a value, and the results keep the frame invariants. -/
theorem Sound.quiet {s : State} (h : Sound s) (hr : s.phase.running = false) :
    Quiet s ∧ FrameSound s.params.sizeW s.res := by
  have ph := h.phase
  unfold PhaseSound at ph
  cases hp : s.phase <;> simp only [hp] at ph
  case idle => exact ⟨ph.1, ph.2.1⟩
  case done => exact ⟨ph.1, ph.2.2⟩
  case fault => exact ⟨ph.1, ph.2.2 ▸ frameSound_empty⟩
  all_goals
    rw [hp] at hr
    exact absurd hr (by decide)

/-- The exact read of `n` bytes, at most the eight of a header or what the window holds, is at `CNT <= NEED`. -/
def ReadWithin (s : State) (w : Window) : Prop :=
  ∃ n c, s.work.need = some n ∧ s.work.cnt = some c ∧ c ≤ n ∧ (n ≤ 8 ∨ n ≤ w.cap)

theorem ReadAt.within {k : Nat} {s : State} {n : Nat} {f : Vector (Option Byte) k} (h : ReadAt s n f) {w : Window}
    (hn : n ≤ 8 ∨ n ≤ w.cap) : ReadWithin s w :=
  have ⟨hneed, c, hcnt, hle, _⟩ := h
  ⟨n, c, hneed, hcnt, hle, hn⟩

theorem PayloadReadAt.within {s : State} {l : Len} (h : PayloadReadAt s l) {w : Window} (hl : l.toNat ≤ w.cap) :
    ReadWithin s w := by
  unfold PayloadReadAt at h
  split at h
  · obtain ⟨n, hn, hneed, hcnt⟩ := h
    exact ⟨n, n, hneed, hcnt, le_rfl, .inl hn⟩
  · exact h.within (.inr hl)

/-- A running operation has sampled a window and is at a read of no more than a header's or the window's bytes. -/
theorem Sound.underway {s : State} (h : Sound s) (hr : s.phase.running = true) : ∃ w, Underway s w ∧ ReadWithin s w := by
  have ph := h.phase
  unfold PhaseSound at ph
  cases hp : s.phase <;> simp only [hp] at ph
  case hdr =>
    obtain ⟨w, hu, hread⟩ := ph
    exact ⟨w, hu, hread.within (.inl (by decide))⟩
  case ext16 =>
    obtain ⟨w, _, hu, _, _, hread⟩ := ph
    exact ⟨w, hu, hread.within (.inl (by decide))⟩
  case ext64 =>
    obtain ⟨w, _, hu, _, _, hread⟩ := ph
    exact ⟨w, hu, hread.within (.inl (by decide))⟩
  case keyrd =>
    obtain ⟨w, _, _, hu, _, _, _, hread⟩ := ph
    exact ⟨w, hu, hread.within (.inl (by decide))⟩
  case payload | unmask | closemeta =>
    obtain ⟨w, _, _, hu, _, _, hcap, hread, _⟩ := ph
    exact ⟨w, hu, hread.within hcap⟩
  case rxrun =>
    obtain ⟨w, n, hu, hcap, hread⟩ := ph
    exact ⟨w, hu, hread.within (.inr hcap)⟩
  all_goals
    rw [hp] at hr
    exact absurd hr (by decide)

/-- Results that keep the frame invariants hold sizes of `SIZE_W` bits (10_state.md R19). -/
theorem FrameSound.size_lt {sizeW : Nat} {r : Results} (h : FrameSound sizeW r) {n : Nat}
    (hn : r.fPlen = some n ∨ r.fCrOff = some n ∨ r.fCrLen = some n) : n < Config.sizeRange sizeW := by
  obtain ⟨-, -, hreason, hnone, hplen⟩ := h
  by_cases hv : r.fCrV = some true
  · obtain ⟨-, p, hp, h3, hoff, hlen⟩ := hreason hv
    have hlt := hplen p hp
    simp only [hp, hoff, hlen, Option.some.injEq] at hn
    omega
  · obtain ⟨hoff, hlen⟩ := hnone hv
    simp only [hoff, hlen, reduceCtorEq, or_false] at hn
    exact hplen n hn

/-- The eight bytes of a header's longest part are a size of every legal width. -/
theorem eight_lt_sizeRange {sizeW : Nat} (h : Config.legalSizeW sizeW = true) : 8 < Config.sizeRange sizeW :=
  calc 8 < 2 ^ 32 := by decide
    _ ≤ 2 ^ sizeW := Nat.pow_le_pow_right (by decide) (of_decide_eq_true h)

/-- Settles O60: between operations only the results hold sizes; a running operation's are bounded by its window, or by the
eight bytes of a header. -/
theorem sizesHaveTheWidthOfTheParameter : Obligations.SizesHaveTheWidthOfTheParameter := by
  intro s n h hn
  show n < Config.sizeRange s.params.sizeW
  cases hr : s.phase.running with
  | false =>
    obtain ⟨⟨hwork, -, hwin⟩, hres⟩ := h.quiet hr
    refine hres.size_lt ?_
    simpa [hwork, hwin, Working.empty] using hn
  | true =>
    obtain ⟨w, ⟨-, hres, hwin, hvalid⟩, m, c, hneed, hcnt, hle, hm⟩ := h.underway hr
    obtain ⟨hbase, hcap, -⟩ := Window.valid_bounds hvalid
    have h8 := eight_lt_sizeRange h.sizeW
    have hsize : m = n ∨ c = n ∨ n = w.base ∨ n = w.cap := by
      simpa [hres, hneed, hcnt, hwin, Results.empty] using hn
    omega

/-! ### Configuration -/

/-- The outcome, where it is a next state, has MAX_LEN and the parameters of `s`. -/
def KeepsConfig (s : State) (o : Outcome) : Prop := ∀ t, o = .next t → t.maxLen = s.maxLen ∧ t.params = s.params

theorem keepsConfig_next {s t : State} (hl : t.maxLen = s.maxLen) (hp : t.params = s.params) :
    KeepsConfig s (.next t) := by
  rintro _ ⟨⟩
  exact ⟨hl, hp⟩

theorem keepsConfig_fault (s : State) (f : Fault) : KeepsConfig s (.fault f) := by
  rintro _ ⟨⟩

theorem keepsConfig_refused (s : State) (r : Refusal) : KeepsConfig s (.refused r) := by
  rintro _ ⟨⟩

/-- A state with the same MAX_LEN and parameters has the same configuration to keep. -/
theorem KeepsConfig.of_eq {s u : State} {o : Outcome} (h : KeepsConfig u o) (hl : u.maxLen = s.maxLen)
    (hp : u.params = s.params) : KeepsConfig s o := fun t e =>
  have ⟨hl', hp'⟩ := h t e
  ⟨hl'.trans hl, hp'.trans hp⟩

theorem storeDelivered_keepsConfig (i : Nat) (bs : List Byte) (s : State) : KeepsConfig s (storeDelivered i bs s) := by
  rcases storeDelivered_cases i bs s with ⟨-, e⟩ | ⟨-, e⟩ | ⟨-, e⟩ | ⟨-, e⟩ | ⟨-, e⟩ <;> rw [e]
  · exact keepsConfig_refused s _
  all_goals exact keepsConfig_next rfl rfl

theorem readStep_keepsConfig (n c : Nat) (s : State) : KeepsConfig s (readStep n c s) := by
  rcases readStep_cases n c s with ⟨-, -, e⟩ | ⟨-, e⟩ | ⟨-, ds, -, e⟩ | ⟨-, size, ds, b, -, ⟨-, e⟩ | ⟨-, e⟩⟩ <;> rw [e]
  case inr.inr.inr.inr => exact (storeDelivered_keepsConfig _ _ _).of_eq rfl rfl
  all_goals exact keepsConfig_next rfl rfl

theorem startPayload_keepsConfig (s : State) : KeepsConfig s (startPayload s) := by
  rcases startPayload_cases s with ⟨-, e⟩ | ⟨_, -, -, e⟩ | ⟨_, -, -, e⟩ <;> rw [e]
  · exact keepsConfig_fault s _
  all_goals exact keepsConfig_next rfl rfl

theorem lengthKnown_keepsConfig (masked : Bool) (l : Len) (s : State) : KeepsConfig s (lengthKnown masked l s) := by
  rcases lengthKnown_cases masked l s with ⟨-, e⟩ | ⟨-, -, e⟩ | ⟨-, -, e⟩ <;> rw [e]
  · exact keepsConfig_next rfl rfl
  · exact keepsConfig_next rfl rfl
  · exact (startPayload_keepsConfig _).of_eq rfl rfl

theorem lengthForm_keepsConfig (hw : HeaderWord) (s : State) : KeepsConfig s (exec (decodeLengthForm hw) s) := by
  rcases lengthForm_cases hw s with
    ⟨r, e⟩ | e | ⟨-, -, e⟩ | ⟨-, -, e⟩ | ⟨-, -, -, e⟩ | ⟨v, -, -, -, e⟩ | ⟨v, -, -, -, e⟩ | ⟨-, -, e⟩ <;> rw [e]
  · exact keepsConfig_fault s _
  · exact keepsConfig_refused s _
  · exact keepsConfig_next rfl rfl
  · exact keepsConfig_next rfl rfl
  · exact (lengthKnown_keepsConfig _ _ _).of_eq rfl rfl
  · exact lengthKnown_keepsConfig _ _ s
  · exact lengthKnown_keepsConfig _ _ s
  · exact startPayload_keepsConfig s

theorem frameDone_keepsConfig (c : CloseMeta) (s : State) : KeepsConfig s (frameDone c s) := by
  rcases frameDone_cases c s with ⟨r, e⟩ | ⟨_, _, _, -, -, -, e⟩ <;> rw [e]
  · exact keepsConfig_fault s _
  · exact keepsConfig_next rfl rfl

theorem payloadDone_keepsConfig (isClose : Bool) (s : State) : KeepsConfig s (payloadDone isClose s) := by
  rcases payloadDone_cases isClose s with ⟨-, e⟩ | ⟨-, e⟩ <;> rw [e]
  · exact keepsConfig_next rfl rfl
  · exact frameDone_keepsConfig _ s

theorem opcodeRow_keepsConfig (isClose : Bool) (s : State) : KeepsConfig s (opcodeRow isClose s) := by
  rcases opcodeRow_cases isClose s with
    ⟨r, e⟩ | e | ⟨-, -, e⟩ | ⟨-, -, e⟩ | ⟨_, _, -, -, -, e⟩ | ⟨_, -, -, -, e⟩ <;> rw [e]
  · exact keepsConfig_fault s _
  · exact keepsConfig_refused s _
  · exact keepsConfig_next rfl rfl
  · exact payloadDone_keepsConfig _ s
  · exact (payloadDone_keepsConfig _ _).of_eq rfl rfl
  · exact frameDone_keepsConfig _ s

/-- No step of the block touches the configuration. -/
theorem blockStep_keepsConfig (s : State) : KeepsConfig s (blockStep s) := by
  rcases fetch_cases s with ⟨-, e⟩ | ⟨r, e⟩ | ⟨n, c, -, -, -, -, e⟩ | ⟨_, _, -, -, -, -, e⟩ |
    ⟨_, _, hw, -, -, -, -, -, e⟩ | ⟨hw, -, -, e⟩
  · exact blockStep_wait e ▸ keepsConfig_next rfl rfl
  · exact blockStep_missing e ▸ keepsConfig_fault s _
  · exact blockStep_read e ▸ readStep_keepsConfig n c s
  · exact blockStep_endRead e ▸ keepsConfig_next rfl rfl
  · exact blockStep_lengthForm e ▸ lengthForm_keepsConfig hw s
  · exact blockStep_opcode e ▸ opcodeRow_keepsConfig _ s

/-- No command with a window touches the configuration. -/
theorem windowCommand_keepsConfig {a : Args} {i : Instr} (hi : i ∈ windowCommands a) (s : State) :
    KeepsConfig s (exec i s) := by
  simp only [windowCommands, List.mem_cons, List.not_mem_nil, or_false] at hi
  rcases hi with rfl | rfl | rfl | rfl
  · rcases decode_cases a.win s with ⟨-, e⟩ | ⟨-, -, e⟩ | ⟨-, -, e⟩ <;> rw [e]
    · exact keepsConfig_next rfl rfl
    · exact keepsConfig_refused s _
    all_goals exact keepsConfig_next rfl rfl
  · rcases toggleMask_cases a.klen a.key a.win s with ⟨-, e⟩ | ⟨-, -, e⟩ | ⟨-, -, -, e⟩ | ⟨-, -, -, e⟩ <;> rw [e]
    · exact keepsConfig_next rfl rfl
    · exact keepsConfig_refused s _
    all_goals exact keepsConfig_next rfl rfl
  · rcases encode_cases a.opcode a.isFinal a.isClient a.win s with
      ⟨-, e⟩ | ⟨-, -, -, e⟩ | ⟨-, -, -, ⟨-, e⟩ | ⟨-, _, _, -, e⟩ | ⟨-, -, e⟩⟩ <;> rw [e]
    · exact keepsConfig_next rfl rfl
    · exact keepsConfig_refused s _
    all_goals exact keepsConfig_next rfl rfl
  · rcases readExact_cases a.length a.win s with
      ⟨-, e⟩ | ⟨-, -, e⟩ | ⟨-, -, -, -, e⟩ | ⟨-, -, -, e⟩ | ⟨-, -, -, -, e⟩ <;> rw [e]
    · exact keepsConfig_next rfl rfl
    · exact keepsConfig_refused s _
    all_goals exact keepsConfig_next rfl rfl

theorem answer_keepsConfig (b : BOut) (s : State) : KeepsConfig s (answer b s) := by
  rcases answer_cases b s with ⟨-, e⟩ | ⟨-, e⟩ <;> rw [e]
  all_goals exact keepsConfig_next rfl rfl

/-- No command touches the configuration. -/
theorem runWord_command_keepsConfig (code : BitVec 4) (a : Args) (s : State) :
    KeepsConfig s (runWord (.command code a) s) := by
  rcases decodeCommand_cases code a with ⟨c, hd⟩ | ⟨i, hd, -, hi⟩ | ⟨i, hd, hi⟩ <;> simp only [runWord, decode, hd]
  · exact keepsConfig_next rfl rfl
  · exact windowCommand_keepsConfig hi s
  · obtain ⟨b, e⟩ := byteOrderCommands_exec hi s
    exact e ▸ answer_keepsConfig b s

theorem acknowledge_keepsConfig (s : State) : KeepsConfig s (.next (acknowledge s)) := by
  unfold acknowledge
  split <;> exact keepsConfig_next rfl rfl

theorem connect_keepsConfig (bytes : List Byte) (s : State) : KeepsConfig s (connect bytes s) := by
  rcases connect_cases bytes s with ⟨-, e⟩ | ⟨-, e⟩ <;> rw [e]
  · exact keepsConfig_refused s _
  · exact keepsConfig_next rfl rfl

theorem hostStore_keepsConfig (addr : Nat) (b : Byte) (s : State) : KeepsConfig s (hostStore addr b s) := by
  rcases hostStore_cases addr b s with ⟨-, e⟩ | ⟨-, -, e⟩ | ⟨-, -, e⟩ <;> rw [e]
  · exact keepsConfig_refused s _
  · exact keepsConfig_refused s _
  · exact keepsConfig_next rfl rfl

/-- Everything a step can do to the configuration: keep it, or take a write of MAX_LEN between operations, or a reset. -/
theorem step_config_cases (s : State) :
    KeepsConfig s (step s) ∨
    (∃ v hs, s.host = .writeMaxLen v :: hs ∧ s.phase.running = false ∧ step s = .next { s with host := hs, maxLen := v }) ∨
    (∃ hs, s.host = .reset :: hs ∧ step s = .next (State.resetBlock { s with host := hs })) := by
  cases hh : s.host with
  | nil =>
    simp only [step, advance, hh]
    exact .inl (blockStep_keepsConfig s)
  | cons m hs =>
    cases m <;> simp only [step, advance, hh]
    case reset => exact .inr (.inr ⟨hs, rfl, rfl⟩)
    case writeMaxLen v =>
      rcases writeMaxLen_cases v { s with host := hs } with e | ⟨hr, -, e⟩ <;> rw [e]
      · exact .inl (keepsConfig_next rfl rfl)
      · exact .inr (.inl ⟨v, hs, rfl, hr, rfl⟩)
    case yield => exact .inl ((blockStep_keepsConfig _).of_eq rfl rfl)
    case await =>
      split
      · exact .inl (blockStep_keepsConfig s)
      · exact .inl (keepsConfig_next rfl rfl)
    case command code a => exact .inl ((runWord_command_keepsConfig code a _).of_eq rfl rfl)
    case ack => exact .inl ((acknowledge_keepsConfig _).of_eq rfl rfl)
    case setCancel level => exact .inl (keepsConfig_next rfl rfl)
    case connect bytes => exact .inl ((connect_keepsConfig bytes _).of_eq rfl rfl)
    case store addr b => exact .inl ((hostStore_keepsConfig addr b _).of_eq rfl rfl)

/-- Settles O57, from the three ways in which a step treats the configuration. -/
theorem configurationChangesOnlyByTheHost : Obligations.ConfigurationChangesOnlyByTheHost := by
  intro s t hstep
  rcases step_config_cases s with hkeep | ⟨v, hs, hh, hr, e⟩ | ⟨hs, hh, e⟩
  · obtain ⟨hl, hp⟩ := hkeep t hstep
    exact ⟨hp, .inl hl⟩
  · cases hstep.symm.trans e
    exact ⟨rfl, .inr (.inl ⟨v, hs, hh, hr, rfl⟩)⟩
  · cases hstep.symm.trans e
    exact ⟨rfl, .inr (.inr ⟨hs, hh, rfl⟩)⟩

end Sys2Proof.Machine
end

section
/-! PROOFS. The block's registers over one step: what reset leaves, the phase, the stream, the results and a write of MAX_LEN.
What a step that answers a next state can do to them is said once, as `StepEffect`, and the statements are read off it. Then
the places where the model stops, and under which name. -/

namespace Sys2Proof.Machine

/-! ### Reset and MAX_LEN -/

/-- Settles O5: the registers of the reset state, read one by one. -/
theorem resetLeavesTheBlockIdle : Obligations.ResetLeavesTheBlockIdle :=
  ⟨rfl, rfl, rfl, rfl, rfl, rfl, rfl⟩

/-- Settles O7: the default parameters are legal, and an idle block without a result is sound. -/
theorem resetMeetsTheInvariant : Obligations.ResetMeetsTheInvariant where
  memory := rfl
  space := rfl
  sizeW := by decide
  maxLen := maxLenReset_le (by decide)
  recognised := List.mem_cons_self
  phase := ⟨⟨rfl, rfl, rfl⟩, frameSound_empty, fun _ => rfl⟩

/-- A write of MAX_LEN changes that register alone, and only between operations to a legal value (10_state.md R22). -/
theorem writeMaxLen_eq (v : Len) (s : State) : writeMaxLen v s =
    { s with maxLen := if s.phase.running = false ∧ v.toNat ≤ Config.maxLenLimit s.params.sizeW then v else s.maxLen } := by
  cases hr : s.phase.running <;> by_cases hv : v.toNat ≤ Config.maxLenLimit s.params.sizeW <;> simp [writeMaxLen, hr, hv]

/-- Settles O56: the step is the write, and the limit is `2^SIZE_W - 1`. -/
theorem maxLenWriteIsChecked : Obligations.MaxLenWriteIsChecked := by
  intro s v hs hh
  simp only [step, advance, hh, writeMaxLen_eq]
  rfl

/-! ### The relation of the phases -/

/-- Only a running phase has a next phase in the table (10_state.md R14). -/
theorem running_of_phaseFollows {p q : Phase} (h : phaseFollows p q = true) : p.running = true := by
  cases p
  case idle | done | fault => cases q <;> cases h
  all_goals rfl

/-- Every phase that reads the stream can end in a fault (10_state.md R14). -/
theorem phaseFollows_fault {p : Phase} (h : p.reading = true) : phaseFollows p .fault = true := by
  cases p
  case idle | done | fault | unmask | closemeta => cases h
  all_goals rfl

/-! ### The stream -/

/-- Some bytes, possibly none, are taken from the front of the stream, and SPOS advances by their number (10_state.md R16). -/
def TakesFromStream (s t : State) : Prop := ∃ taken : List Byte, s.input = taken ++ t.input ∧ t.spos = s.spos + taken.length

theorem takesFromStream_none {s t : State} (hi : t.input = s.input) (hs : t.spos = s.spos) : TakesFromStream s t :=
  ⟨[], hi.symm, hs⟩

@[simp] theorem readOn_res (c : Nat) (bs : List Byte) (ds : List ReadDraw) (s : State) : (readOn c bs ds s).res = s.res := by
  unfold readOn stored; split <;> rfl

@[simp] theorem readOn_spos (c : Nat) (bs : List Byte) (ds : List ReadDraw) (s : State) :
    (readOn c bs ds s).spos = s.spos + bs.length := by
  unfold readOn stored; split <;> rfl

/-- A delivery is taken off the stream as it stands there (20_memory.md R41). -/
theorem readOn_takesFromStream (n c size : Nat) (ds : List ReadDraw) (s : State) :
    TakesFromStream s (readOn c (deliveryOf n size s.input) ds s) := by
  refine ⟨deliveryOf n size s.input, ?_, readOn_spos ..⟩
  calc s.input = s.input.take (deliveryOf n size s.input).length ++ s.input.drop (deliveryOf n size s.input).length :=
        (List.take_append_drop _ _).symm
    _ = _ := by rw [← deliveryOf_eq_take, readOn_input]

/-! ### What a step of the block does -/

/-- Everything a step of the block can do to PHASE, the results, ERR at a successful end, and the stream: it waits or reads on,
goes on to a next running phase, faults, or ends the operation, with a value in F_PLEN only at the end of a frame. -/
inductive BlockEffect (s t : State) : Prop where
  | reads (phase : t.phase = s.phase) (res : t.res = s.res) (takes : TakesFromStream s t)
  | moves (follows : phaseFollows s.phase t.phase = true) (running : t.phase.running = true) (res : t.res = s.res)
      (input : t.input = s.input) (spos : t.spos = s.spos)
  | faults (follows : phaseFollows s.phase .fault = true) (phase : t.phase = .fault) (res : t.res = Results.empty)
      (input : t.input = s.input) (spos : t.spos = s.spos)
  | finishes (follows : phaseFollows s.phase .done = true) (phase : t.phase = .done) (err : t.err = .none)
      (input : t.input = s.input) (spos : t.spos = s.spos)
      (plen : ∀ p, t.res.fPlen = some p → (s.phase = .payload ∨ s.phase = .unmask ∨ s.phase = .closemeta) ∧
        ∃ l, s.work.len = some l ∧ p = l.toNat)

theorem BlockEffect.phase_follows {s t : State} (h : BlockEffect s t) :
    t.phase = s.phase ∨ phaseFollows s.phase t.phase = true := by
  cases h with
  | reads hp => exact .inl hp
  | moves hf => exact .inr hf
  | faults hf hp | finishes hf hp => exact .inr (hp.symm ▸ hf)

theorem BlockEffect.takesFromStream {s t : State} (h : BlockEffect s t) : TakesFromStream s t := by
  cases h with
  | reads _ _ htakes => exact htakes
  | moves _ _ _ hi hs | faults _ _ _ hi hs | finishes _ _ _ hi hs => exact takesFromStream_none hi hs

/-- One turn of the exact read waits, reads on or faults (44_exact_read.md R151 to R155). -/
theorem readStep_effect {s t : State} {n c : Nat} (hr : s.phase.reading = true) (h : readStep n c s = .next t) :
    BlockEffect s t := by
  have hf := phaseFollows_fault hr
  rcases readStep_cases n c s with ⟨-, -, e⟩ | ⟨-, e⟩ | ⟨-, ds, -, e⟩ | ⟨-, size, ds, b, -, ⟨-, e⟩ | ⟨-, e⟩⟩ <;> rw [e] at h
  case inr.inr.inr.inr =>
    rw [storeDelivered_eq_stored _ _ (by exact hr)] at h
    cases h
    exact .reads (readOn_phase _ _ ds (answered s ds b)) (readOn_res _ _ ds (answered s ds b))
      (readOn_takesFromStream _ c size ds (answered s ds b))
  case inl =>
    cases h
    exact .reads rfl rfl (takesFromStream_none rfl rfl)
  all_goals
    cases h
    exact .faults hf rfl rfl rfl rfl

/-- The window check faults, or begins the read of the payload (41_frame_decoder.md R98, R99). -/
theorem startPayload_next {s t : State} (h : startPayload s = .next t) :
    (∃ e, t = raised e s) ∨ ∃ n, t = startRead .payload n s := by
  rcases startPayload_cases s with ⟨-, e⟩ | ⟨l, -, -, e⟩ | ⟨l, -, -, e⟩ <;> rw [e] at h <;> cases h
  · exact .inl ⟨_, rfl⟩
  · exact .inr ⟨_, rfl⟩

/-- Once `LEN` is assembled a header faults, or begins the read of the key or of the payload (41_frame_decoder.md R95 to R99). -/
theorem lengthKnown_next {masked : Bool} {l : Len} {s t : State} (h : lengthKnown masked l s = .next t) :
    (∃ e, t = raised e (withLen s l)) ∨ ∃ p n, (p = .keyrd ∨ p = .payload) ∧ t = startRead p n (withLen s l) := by
  rcases lengthKnown_cases masked l s with ⟨-, e⟩ | ⟨-, -, e⟩ | ⟨-, -, e⟩ <;> rw [e] at h
  · cases h
    exact .inl ⟨_, rfl⟩
  · cases h
    exact .inr ⟨_, _, .inl rfl, rfl⟩
  · exact (startPayload_next h).imp_right fun ⟨n, ht⟩ => ⟨_, n, .inr rfl, ht⟩

/-- The phases in which a length is assembled lead to KEYRD, to PAYLOAD or to a fault (41_frame_decoder.md R106). -/
theorem lengthKnown_effect {masked : Bool} {l : Len} {s t : State} {w : Working}
    (hp : s.phase = .hdr ∨ s.phase = .ext16 ∨ s.phase = .ext64)
    (h : lengthKnown masked l { s with work := w } = .next t) : BlockEffect s t := by
  rcases lengthKnown_next h with ⟨e, rfl⟩ | ⟨p, n, hq, rfl⟩
  · exact .faults (by rcases hp with hp | hp | hp <;> rw [hp] <;> rfl) rfl rfl rfl rfl
  · have hfollows : phaseFollows s.phase p = true := by
      rcases hp with hp | hp | hp <;> rcases hq with rfl | rfl <;> rw [hp] <;> rfl
    have hrunning : p.running = true := by rcases hq with rfl | rfl <;> rfl
    exact .moves hfollows hrunning rfl rfl rfl

/-- A length-form row goes on to a next phase of the header or to PAYLOAD, or faults (41_frame_decoder.md R106). -/
theorem lengthForm_effect {hw : HeaderWord} {s t : State} (h : exec (decodeLengthForm hw) s = .next t) :
    BlockEffect s t := by
  rcases lengthForm_cases hw s with ⟨r, e⟩ | e | ⟨hp, -, e⟩ | ⟨hp, -, e⟩ | ⟨hp, -, -, e⟩ | ⟨v, hp, -, -, e⟩ |
    ⟨v, hp, -, -, e⟩ | ⟨hp, -, e⟩ <;> rw [e] at h
  · cases h
  · cases h
  · cases h
    exact .moves (by rw [hp]; rfl) rfl rfl rfl rfl
  · cases h
    exact .moves (by rw [hp]; rfl) rfl rfl rfl rfl
  · exact lengthKnown_effect (.inl hp) h
  · exact lengthKnown_effect (.inr (.inl hp)) h
  · exact lengthKnown_effect (.inr (.inr hp)) h
  · rcases startPayload_next h with ⟨e', rfl⟩ | ⟨n, rfl⟩
    · exact .faults (by rw [hp]; rfl) rfl rfl rfl rfl
    · exact .moves (by rw [hp]; rfl) rfl rfl rfl rfl

/-- The end of a frame ends the operation, and reports `LEN` in F_PLEN (41_frame_decoder.md R105). -/
theorem frameDone_effect {c : CloseMeta} {s t : State} {m : Memory}
    (hp : s.phase = .payload ∨ s.phase = .unmask ∨ s.phase = .closemeta)
    (h : frameDone c { s with pbuf := m } = .next t) : BlockEffect s t := by
  rcases frameDone_cases c { s with pbuf := m } with ⟨r, e⟩ | ⟨f, o, l, -, -, hl, e⟩ <;> rw [e] at h <;> cases h
  exact .finishes (by rcases hp with hp | hp | hp <;> rw [hp] <;> rfl) rfl rfl rfl rfl
    fun p hplen => ⟨hp, l, hl, (Option.some.inj hplen).symm⟩

/-- An unmasked payload leads to CLOSEMETA or to DONE (41_frame_decoder.md R104, R106). -/
theorem payloadDone_effect {isClose : Bool} {s t : State} {m : Memory} (hp : s.phase = .payload ∨ s.phase = .unmask)
    (h : payloadDone isClose { s with pbuf := m } = .next t) : BlockEffect s t := by
  rcases payloadDone_cases isClose { s with pbuf := m } with ⟨-, e⟩ | ⟨-, e⟩ <;> rw [e] at h
  · cases h
    exact .moves (by rcases hp with hp | hp <;> rw [hp] <;> rfl) rfl rfl rfl rfl
  · exact frameDone_effect (hp.imp_right .inl) h

/-- An opcode row goes on to UNMASK or CLOSEMETA, or ends the operation (41_frame_decoder.md R106). -/
theorem opcodeRow_effect {isClose : Bool} {s t : State} (h : opcodeRow isClose s = .next t) : BlockEffect s t := by
  rcases opcodeRow_cases isClose s with
    ⟨r, e⟩ | e | ⟨hp, -, e⟩ | ⟨hp, -, e⟩ | ⟨k, l, hp, -, -, e⟩ | ⟨l, hp, -, -, e⟩ <;> rw [e] at h
  · cases h
  · cases h
  · cases h
    exact .moves (by rw [hp]; rfl) rfl rfl rfl rfl
  · exact payloadDone_effect (.inl hp) h
  · exact payloadDone_effect (.inr hp) h
  · exact frameDone_effect (.inr (.inr hp)) h

/-- Every step of the block has one of the four effects. -/
theorem blockStep_effect {s t : State} (h : blockStep s = .next t) : BlockEffect s t := by
  rcases fetch_cases s with ⟨-, e⟩ | ⟨r, e⟩ | ⟨n, c, hr, -, -, -, e⟩ | ⟨_, _, hp, -, -, -, e⟩ |
    ⟨_, _, hw, -, -, -, -, -, e⟩ | ⟨hw, -, -, e⟩
  · cases (blockStep_wait e).symm.trans h
    exact .reads rfl rfl (takesFromStream_none rfl rfl)
  · cases (blockStep_missing e).symm.trans h
  · exact readStep_effect hr ((blockStep_read e).symm.trans h)
  · cases (blockStep_endRead e).symm.trans h
    exact .finishes (by rw [hp]; rfl) rfl rfl rfl rfl nofun
  · exact lengthForm_effect ((blockStep_lengthForm e).symm.trans h)
  · exact opcodeRow_effect ((blockStep_opcode e).symm.trans h)

/-! ### What a move of the host does -/

/-- A move of the host that takes nothing from the stream, and leaves PHASE and the results of a running operation. -/
structure HostEffect (s t : State) : Prop where
  input : t.input = s.input
  spos : t.spos = s.spos
  running : s.phase.running = true → t.phase = s.phase ∧ t.res = s.res

/-- Between operations only the stream is to be left as it is. -/
theorem HostEffect.between {s t : State} (hr : s.phase.running = false) (hi : t.input = s.input) (hs : t.spos = s.spos) :
    HostEffect s t :=
  ⟨hi, hs, fun hr' => absurd (hr.symm.trans hr') Bool.false_ne_true⟩

theorem hostEffect_refl (s : State) : HostEffect s s := ⟨rfl, rfl, fun _ => ⟨rfl, rfl⟩⟩

/-- No command with a window touches the stream, or a running operation. -/
theorem windowCommand_effect {a : Args} {i : Instr} (hi : i ∈ windowCommands a) {s t : State} (h : exec i s = .next t) :
    HostEffect s t := by
  simp only [windowCommands, List.mem_cons, List.not_mem_nil, or_false] at hi
  rcases hi with rfl | rfl | rfl | rfl
  · rcases decode_cases a.win s with ⟨-, e⟩ | ⟨-, -, e⟩ | ⟨hr, -, e⟩ <;> cases e.symm.trans h
    · exact hostEffect_refl s
    · exact .between hr rfl rfl
  · rcases toggleMask_cases a.klen a.key a.win s with ⟨-, e⟩ | ⟨-, -, e⟩ | ⟨hr, -, -, e⟩ | ⟨hr, -, -, e⟩ <;>
      cases e.symm.trans h
    · exact hostEffect_refl s
    all_goals exact .between hr rfl rfl
  · rcases encode_cases a.opcode a.isFinal a.isClient a.win s with
      ⟨-, e⟩ | ⟨-, -, -, e⟩ | ⟨hr, -, -, ⟨-, e⟩ | ⟨-, _, _, -, e⟩ | ⟨-, -, e⟩⟩ <;> cases e.symm.trans h
    · exact hostEffect_refl s
    all_goals exact .between hr rfl rfl
  · rcases readExact_cases a.length a.win s with
      ⟨-, e⟩ | ⟨-, -, e⟩ | ⟨hr, -, -, -, e⟩ | ⟨hr, -, -, e⟩ | ⟨hr, -, -, -, e⟩ <;> cases e.symm.trans h
    · exact hostEffect_refl s
    all_goals exact .between hr rfl rfl

/-- No command touches the stream, or a running operation (30_encoding.md R80). -/
theorem runWord_command_effect {code : BitVec 4} {a : Args} {s t : State} (h : runWord (.command code a) s = .next t) :
    HostEffect s t := by
  rcases decodeCommand_cases code a with ⟨c, hd⟩ | ⟨i, hd, -, hi⟩ | ⟨i, hd, hi⟩ <;> simp only [runWord, decode, hd] at h
  · cases h
    exact hostEffect_refl s
  · exact windowCommand_effect hi h
  · obtain ⟨b, eb⟩ := byteOrderCommands_exec hi s
    rw [eb] at h
    rcases answer_cases b s with ⟨-, e⟩ | ⟨hr, e⟩ <;> cases e.symm.trans h
    · exact hostEffect_refl s
    · exact .between hr rfl rfl

/-- Everything an acknowledge can do: in DONE and FAULT the phase goes to IDLE, and elsewhere it has no effect
(60_exceptions.md R205). -/
theorem acknowledge_cases (s : State) :
    ((s.phase = .done ∨ s.phase = .fault) ∧ acknowledge s = { s with phase := .idle }) ∨ acknowledge s = s := by
  cases hp : s.phase <;> simp [acknowledge, hp]

/-- Everything a step that answers a next state can do: the block's step, a command, a move of the host that leaves stream and
results, the connection of another stream, or a reset. -/
inductive StepEffect (s t : State) : Prop where
  | block {hs : List HostMove} (effect : BlockEffect { s with host := hs } t)
  | command {code : BitVec 4} {a : Args} {hs : List HostMove} (host : s.host = .command code a :: hs)
      (effect : HostEffect s t)
  | port (effect : HostEffect s t) (res : t.res = s.res)
  | connect {bytes : List Byte} {hs : List HostMove} (host : s.host = .connect bytes :: hs) (phase : t.phase = s.phase)
      (res : t.res = s.res)
  | reset {hs : List HostMove} (host : s.host = .reset :: hs) (state : t = State.resetBlock { s with host := hs })

/-- A move of the host that is read off the state without it. -/
theorem HostEffect.of_rest {s t : State} {hs : List HostMove} (h : HostEffect { s with host := hs } t) : HostEffect s t :=
  ⟨h.input, h.spos, h.running⟩

/-- Every step that answers a next state has one of these effects. -/
theorem step_effect {s t : State} (h : step s = .next t) : StepEffect s t := by
  cases hh : s.host with
  | nil =>
    simp only [step, advance, hh] at h
    exact .block (blockStep_effect h)
  | cons m hs =>
    cases m <;> simp only [step, advance, hh] at h
    case yield => exact .block (blockStep_effect h)
    case await =>
      split at h
      · exact .block (blockStep_effect h)
      · cases h
        exact .port (hostEffect_refl _).of_rest rfl
    case command code a => exact .command hh (runWord_command_effect h).of_rest
    case ack =>
      cases h
      rcases acknowledge_cases { s with host := hs } with ⟨hp, e⟩ | e <;> rw [e]
      · have hr : s.phase.running = false := by rcases hp with hp | hp <;> rw [show s.phase = _ from hp] <;> rfl
        exact .port (.between hr rfl rfl) rfl
      · exact .port (hostEffect_refl _).of_rest rfl
    case writeMaxLen v =>
      cases h
      rw [writeMaxLen_eq]
      exact .port ⟨rfl, rfl, fun _ => ⟨rfl, rfl⟩⟩ rfl
    case setCancel level =>
      cases h
      exact .port ⟨rfl, rfl, fun _ => ⟨rfl, rfl⟩⟩ rfl
    case reset =>
      cases h
      exact .reset hh rfl
    case connect bytes =>
      rcases connect_cases bytes { s with host := hs } with ⟨-, e⟩ | ⟨-, e⟩ <;> cases e.symm.trans h
      exact .connect hh rfl rfl
    case store addr b =>
      rcases hostStore_cases addr b { s with host := hs } with ⟨-, e⟩ | ⟨-, -, e⟩ | ⟨-, -, e⟩ <;> cases e.symm.trans h
      exact .port ⟨rfl, rfl, fun _ => ⟨rfl, rfl⟩⟩ rfl

/-! ### Phases, stream and results over a step -/

/-- Settles O13: each effect of a step of the block leaves PHASE or takes it to a next one. -/
theorem phasesOnlyGoForward : Obligations.PhasesOnlyGoForward := by
  intro s u t hmoves hstep
  obtain ⟨hs, rfl, hblock⟩ := hmoves.step_eq
  exact (blockStep_effect (hblock.symm.trans hstep)).phase_follows

/-- Settles O18: only a step of the block takes bytes, and only a connection gives another stream. -/
theorem streamIsConsumedInOrder : Obligations.StreamIsConsumedInOrder := by
  intro s t hstep hconnect
  change TakesFromStream s t
  cases step_effect hstep with
  | block effect => exact effect.takesFromStream
  | command _ effect | port effect => exact takesFromStream_none effect.input effect.spos
  | connect host => exact absurd host (hconnect _ _)
  | reset _ state => exact state ▸ takesFromStream_none rfl rfl

/-- Once the payload is read, `LEN` has passed the cap check and the window check (41_frame_decoder.md R95, R98). -/
theorem Sound.length_within {s : State} (h : Sound s) (hp : s.phase = .payload ∨ s.phase = .unmask ∨ s.phase = .closemeta)
    {w : Window} (hw : s.win = some w) {l : Len} (hl : s.work.len = some l) : l.toNat ≤ s.maxLen.toNat ∧ l.toNat ≤ w.cap := by
  have ph := h.phase
  unfold PhaseSound at ph
  rcases hp with hp | hp | hp <;> simp only [hp] at ph <;>
    obtain ⟨w', _, l', ⟨-, -, hw', -⟩, -, ⟨hl', hmax⟩, hcap, -⟩ := ph <;>
    cases hw.symm.trans hw' <;> cases hl.symm.trans hl' <;> exact ⟨hmax, hcap⟩

/-- Settles O34: the step is the block's end of a frame, which reports the `LEN` that passed both checks. -/
theorem reportedLengthIsWithinItsLimits : Obligations.ReportedLengthIsWithinItsLimits := by
  intro s t w p hsound hrunning hwin hstep hdone hplen
  have hnotDone {q : Phase} (hq : q.running = true) (ht : t.phase = q) : False := by
    rw [← ht, hdone] at hq
    cases hq
  cases step_effect hstep with
  | block effect =>
    cases effect with
    | reads phase => exact (hnotDone hrunning phase).elim
    | moves _ running => exact (hnotDone running rfl).elim
    | faults _ phase => cases hdone.symm.trans phase
    | finishes _ _ _ _ _ plen =>
      obtain ⟨hp, l, hl, rfl⟩ := plen p hplen
      exact hsound.length_within hp hwin hl
  | command _ effect | port effect => exact (hnotDone hrunning (effect.running hrunning).1).elim
  | connect _ phase => exact (hnotDone hrunning phase).elim
  | reset _ state =>
    subst state
    cases hdone

/-- While an operation runs, after a fault, and while ERR holds a fault's code, no result register holds a value (10_state.md
R27; 60_exceptions.md R200). -/
theorem Sound.res_empty {s : State} (h : Sound s) (hp : s.phase.running = true ∨ s.phase = .fault ∨ s.err ≠ .none) :
    s.res = Results.empty := by
  cases hr : s.phase.running with
  | true =>
    obtain ⟨w, ⟨-, hres, -, -⟩, -⟩ := h.underway hr
    exact hres
  | false =>
    have ph := h.phase
    unfold PhaseSound at ph
    cases hphase : s.phase <;> simp only [hphase] at ph hp hr
    case idle => exact ph.2.2 (by simpa [Phase.running] using hp)
    case done => exact absurd ph.2.1 (by simpa [Phase.running] using hp)
    case fault => exact ph.2.2
    all_goals cases hr

/-- An acknowledge in DONE or FAULT gives IDLE and changes nothing else (60_exceptions.md R205). -/
theorem step_ack {s : State} {hs : List HostMove} (hh : s.host = .ack :: hs) (hp : s.phase = .done ∨ s.phase = .fault) :
    step s = .next { s with host := hs, phase := .idle } := by
  rcases hp with hp | hp <;> simp only [step, advance, hh, acknowledge, hp]

/-- From a sound state the results change only at a successful end, at a command between operations and in a reset. -/
theorem step_res_ne {s t : State} (h : Sound s) (hstep : step s = .next t) (hne : t.res ≠ s.res) :
    (s.phase.running = true ∧ t.phase = .done ∧ t.err = .none) ∨
    (s.phase.running = false ∧ ∃ code a hs, s.host = .command code a :: hs) ∨ (∃ hs, s.host = .reset :: hs) := by
  cases step_effect hstep with
  | block effect =>
    cases effect with
    | reads _ res | moves _ _ res => exact absurd res hne
    | faults follows _ res => exact absurd (res.trans (h.res_empty (.inl (running_of_phaseFollows follows))).symm) hne
    | finishes follows phase err => exact .inl ⟨running_of_phaseFollows follows, phase, err⟩
  | command host effect =>
    refine .inr (.inl ⟨?_, _, _, _, host⟩)
    exact Bool.eq_false_iff.mpr fun hr => hne (effect.running hr).2
  | port _ res | connect _ _ res => exact absurd res hne
  | reset host => exact .inr (.inr ⟨_, host⟩)

/-- Settles O58: the step of an acknowledge, the change of the results over a step, and where the invariant has none. -/
theorem acknowledgeAndWhenTheResultsChange : Obligations.AcknowledgeAndWhenTheResultsChange :=
  ⟨fun _ _ hh hp => ⟨_, step_ack hh hp, rfl, results_none nofun, results_done⟩,
    fun _ _ h hstep hne => step_res_ne h hstep hne, fun _ h hp => h.res_empty hp⟩

end Sys2Proof.Machine
end

section
/-! PROOFS. Where the model stops, and under which name: windows that are none, rows out of their phase, moves against the host's
contracts, and registers that are to be read and hold no value. -/

namespace Sys2Proof.Machine

/-! ### Windows that are none -/

/-- A command that would be accepted and whose window is none is refused (20_memory.md R44). -/
theorem issueWindow_notAWindow {w : Window} {s : State} (hr : s.phase.running = false)
    (hv : w.valid s.params.sizeW = false) (start : State → Outcome) : issueWindow w s start = .refused .notAWindow := by
  simp [issueWindow, issue, hr, hv]

theorem windowCommands_notAWindow {s : State} {w : Window} (hr : s.phase.running = false)
    (hv : w.valid s.params.sizeW = false) (klen n : Nat) (k : Key) (opc : BitVec 4) (fin client : Bool) :
    exec (.decode w) s = .refused .notAWindow ∧ exec (.toggleMask klen k w) s = .refused .notAWindow ∧
    (s.params.hasEncoder = true → exec (.encode opc fin client w) s = .refused .notAWindow) ∧
    exec (.readExact n w) s = .refused .notAWindow := by
  have e := issueWindow_notAWindow hr hv
  refine ⟨?_, ?_, fun he => ?_, ?_⟩
  · simp only [exec, execDecode, e]
  · simp only [exec, execToggleMask, e]
  · simp only [exec, execEncode, he, if_true, e]
  · simp only [exec, execReadExact, e]

/-! ### Rows out of their phase -/

section
variable {s : State} {f m : Bool} {r : BitVec 3} {o : BitVec 4} {i : BitVec 7} {row : Instr}

/-- The 7-bit forms are run at the end of HDR and of KEYRD (41_frame_decoder.md R106). -/
theorem length7Row_notItsPhase (masked : Bool) (hp : s.phase ≠ .hdr ∧ s.phase ≠ .keyrd) :
    length7Row masked f o i s = .refused .notItsPhase := by
  obtain ⟨hhdr, hkeyrd⟩ := hp
  cases h : s.phase
  case hdr => exact absurd h hhdr
  case keyrd => exact absurd h hkeyrd
  all_goals simp only [length7Row, h]

/-- The 16-bit forms are run at the end of HDR, of EXT16 and of KEYRD (41_frame_decoder.md R106). -/
theorem length16Row_notItsPhase (masked : Bool) (hp : s.phase ≠ .hdr ∧ s.phase ≠ .ext16 ∧ s.phase ≠ .keyrd) :
    length16Row masked f o s = .refused .notItsPhase := by
  obtain ⟨hhdr, hext, hkeyrd⟩ := hp
  cases h : s.phase
  case hdr => exact absurd h hhdr
  case ext16 => exact absurd h hext
  case keyrd => exact absurd h hkeyrd
  all_goals simp only [length16Row, h]

/-- The 64-bit forms are run at the end of HDR, of EXT64 and of KEYRD (41_frame_decoder.md R106). -/
theorem length64Row_notItsPhase (masked : Bool) (hp : s.phase ≠ .hdr ∧ s.phase ≠ .ext64 ∧ s.phase ≠ .keyrd) :
    length64Row masked f o s = .refused .notItsPhase := by
  obtain ⟨hhdr, hext, hkeyrd⟩ := hp
  cases h : s.phase
  case hdr => exact absurd h hhdr
  case ext64 => exact absurd h hext
  case keyrd => exact absurd h hkeyrd
  all_goals simp only [length64Row, h]

/-- A length-form row is run in the phases of the header only (10_state.md R14). -/
theorem lengthRows_notItsPhase (hp : s.phase ≠ .hdr ∧ s.phase ≠ .ext16 ∧ s.phase ≠ .ext64 ∧ s.phase ≠ .keyrd)
    (hrow : row ∈ lengthRows f r o i) : exec row s = .refused .notItsPhase := by
  obtain ⟨hhdr, hext16, hext64, hkeyrd⟩ := hp
  simp only [lengthRows, List.mem_cons, List.not_mem_nil, or_false] at hrow
  rcases hrow with rfl | rfl | rfl | rfl | rfl | rfl
  · exact length7Row_notItsPhase false ⟨hhdr, hkeyrd⟩
  · exact length7Row_notItsPhase true ⟨hhdr, hkeyrd⟩
  · exact length16Row_notItsPhase false ⟨hhdr, hext16, hkeyrd⟩
  · exact length16Row_notItsPhase true ⟨hhdr, hext16, hkeyrd⟩
  · exact length64Row_notItsPhase false ⟨hhdr, hext64, hkeyrd⟩
  · exact length64Row_notItsPhase true ⟨hhdr, hext64, hkeyrd⟩

/-- The rows of an unmasked frame have no key to read (41_frame_decoder.md R97). -/
theorem unmaskedRows_keyrd (hp : s.phase = .keyrd) (hrow : row ∈ [Instr.len7U f r o i, .len16U f r o, .len64U f r o]) :
    exec row s = .refused .notItsPhase := by
  simp only [List.mem_cons, List.not_mem_nil, or_false] at hrow
  rcases hrow with rfl | rfl | rfl
  · simp [exec, execLen7U, length7Row, hp, keyKnown]
  · simp [exec, execLen16U, length16Row, hp, keyKnown]
  · simp [exec, execLen64U, length64Row, hp, keyKnown]

/-- In EXT16 only the 16-bit form is run (41_frame_decoder.md R106). -/
theorem otherRows_ext16 (hp : s.phase = .ext16)
    (hrow : row ∈ [Instr.len7U f r o i, .len7M f r o i, .len64U f r o, .len64M f r o]) :
    exec row s = .refused .notItsPhase := by
  simp only [List.mem_cons, List.not_mem_nil, or_false] at hrow
  rcases hrow with rfl | rfl | rfl | rfl
  · exact length7Row_notItsPhase false (by simp [hp])
  · exact length7Row_notItsPhase true (by simp [hp])
  · exact length64Row_notItsPhase false (by simp [hp])
  · exact length64Row_notItsPhase true (by simp [hp])

/-- In EXT64 only the 64-bit form is run (41_frame_decoder.md R106). -/
theorem otherRows_ext64 (hp : s.phase = .ext64)
    (hrow : row ∈ [Instr.len7U f r o i, .len7M f r o i, .len16U f r o, .len16M f r o]) :
    exec row s = .refused .notItsPhase := by
  simp only [List.mem_cons, List.not_mem_nil, or_false] at hrow
  rcases hrow with rfl | rfl | rfl | rfl
  · exact length7Row_notItsPhase false (by simp [hp])
  · exact length7Row_notItsPhase true (by simp [hp])
  · exact length16Row_notItsPhase false (by simp [hp])
  · exact length16Row_notItsPhase true (by simp [hp])

/-- An opcode row is run in the phases of the payload only (10_state.md R14). -/
theorem opcodeRow_notItsPhase (isClose : Bool) (hp : s.phase ≠ .payload ∧ s.phase ≠ .unmask ∧ s.phase ≠ .closemeta) :
    opcodeRow isClose s = .refused .notItsPhase := by
  obtain ⟨hpayload, hunmask, hclosemeta⟩ := hp
  cases h : s.phase
  case payload => exact absurd h hpayload
  case unmask => exact absurd h hunmask
  case closemeta => exact absurd h hclosemeta
  all_goals simp only [opcodeRow, h]

/-- Only CLOSE has metadata (41_frame_decoder.md R104). -/
theorem genericRows_closemeta (hp : s.phase = .closemeta) (hrow : row ∈ genericRows f r m i) :
    exec row s = .refused .notItsPhase := by
  rw [genericRows_exec hrow]
  simp [opcodeRow, hp]

/-! ### Registers without a value: what is fetched -/

theorem fetch_missing_need (hr : s.phase.reading = true) (hn : s.work.need = none) : fetch s = .missing .need := by
  have e (next : Fetch) : fetchReading s next = .missing .need := by simp [fetchReading, hn]
  cases hp : s.phase <;> simp_all [fetch, Phase.reading]

theorem fetch_missing_cnt (hr : s.phase.reading = true) (hn : s.work.need ≠ none) (hc : s.work.cnt = none) :
    fetch s = .missing .cnt := by
  obtain ⟨n, hn⟩ := Option.ne_none_iff_exists'.mp hn
  have e (next : Fetch) : fetchReading s next = .missing .cnt := by simp [fetchReading, hn, hc]
  cases hp : s.phase <;> simp_all [fetch, Phase.reading]

theorem fetch_missing_hb_read {n : Nat} (hr : s.phase.reading = true) (hx : s.phase ≠ .rxrun) (hn : s.work.need = some n)
    (hc : s.work.cnt = some n) (hb : headerBytes s.work.hb = none) : fetch s = .missing .hb := by
  have e (next : Fetch) : fetchReading s next = next := by simp [fetchReading, hn, hc]
  cases hp : s.phase <;> simp_all [fetch, Phase.reading, fetchLengthForm, fetchOpcode]

theorem fetch_missing_hb (hp : s.phase = .unmask ∨ s.phase = .closemeta) (hb : headerBytes s.work.hb = none) :
    fetch s = .missing .hb := by
  rcases hp with hp | hp <;> simp [fetch, hp, fetchOpcode, hb]

/-- Where the block moves and finds a register without a value, the step stops. -/
theorem BlockMoves.step_missing {t : State} (h : BlockMoves s t) {reg : Reg} (hf : fetch s = .missing reg) :
    step s = .fault (.noValue reg) := by
  obtain ⟨hs, rfl, e⟩ := h.step_eq
  exact e.trans (blockStep_missing hf)

/-! ### Registers without a value: what the rows read -/

theorem len16Rows_noValue (hp : s.phase = .ext16) (hx : ext16Value s.work.xb = none)
    (hrow : row ∈ [Instr.len16U f r o, .len16M f r o]) : exec row s = .fault (.noValue .xb) := by
  have e (masked : Bool) : length16Row masked f o s = .fault (.noValue .xb) := by
    simp only [length16Row, hp, hx, withValue_none]
  simp only [List.mem_cons, List.not_mem_nil, or_false] at hrow
  rcases hrow with rfl | rfl
  · exact e false
  · exact e true

theorem len64Rows_noValue (hp : s.phase = .ext64) (hx : ext64Value s.work.xb = none)
    (hrow : row ∈ [Instr.len64U f r o, .len64M f r o]) : exec row s = .fault (.noValue .xb) := by
  have e (masked : Bool) : length64Row masked f o s = .fault (.noValue .xb) := by
    simp only [length64Row, hp, hx, withValue_none]
  simp only [List.mem_cons, List.not_mem_nil, or_false] at hrow
  rcases hrow with rfl | rfl
  · exact e false
  · exact e true

/-- The window check reads `LEN` (41_frame_decoder.md R98). -/
theorem maskedRows_noValue (hp : s.phase = .keyrd) (hl : s.work.len = none)
    (hrow : row ∈ [Instr.len7M f r o i, .len16M f r o, .len64M f r o]) : exec row s = .fault (.noValue .len) := by
  have e : keyKnown true s = .fault (.noValue .len) := by simp [keyKnown, startPayload, hl]
  simp only [List.mem_cons, List.not_mem_nil, or_false] at hrow
  rcases hrow with rfl | rfl | rfl
  · simpa only [exec, execLen7M, length7Row, hp] using e
  · simpa only [exec, execLen16M, length16Row, hp] using e
  · simpa only [exec, execLen64M, length64Row, hp] using e

theorem opcodeRow_payload_noMask (isClose : Bool) (hp : s.phase = .payload) (hm : s.work.mask = none) :
    opcodeRow isClose s = .fault (.noValue .mask) := by
  simp only [opcodeRow, hp, hm, withValue_none]

theorem opcodeRow_unmask_noKey (isClose : Bool) (hp : s.phase = .unmask) (hk : keyBytes s.key = none) :
    opcodeRow isClose s = .fault (.noValue .key) := by
  simp only [opcodeRow, hp, unmaskPayload, hk, withValue_none]

theorem opcodeRow_unmask_noLen (isClose : Bool) (hp : s.phase = .unmask) (hk : keyBytes s.key ≠ none)
    (hl : s.work.len = none) : opcodeRow isClose s = .fault (.noValue .len) := by
  obtain ⟨k, hk⟩ := Option.ne_none_iff_exists'.mp hk
  simp only [opcodeRow, hp, unmaskPayload, hk, hl, withValue_some, withValue_none]

theorem opcodeRow_closemeta_noLen (hp : s.phase = .closemeta) (hl : s.work.len = none) :
    opcodeRow true s = .fault (.noValue .len) := by
  simp only [opcodeRow, hp, if_true, closeMetaStep, hl, withValue_none]

/-- The row ends the frame here: its payload is complete and unmasked, and what is left to do is to report (41_frame_decoder.md
R104, R105). -/
def EndsFrame (s : State) (f : Bool) (r : BitVec 3) (m : Bool) (i : BitVec 7) (row : Instr) : Prop :=
  (s.phase = .payload ∧ s.work.mask = some false ∧ row ∈ genericRows f r m i) ∨
  (s.phase = .unmask ∧ keyBytes s.key ≠ none ∧ s.work.len ≠ none ∧ row ∈ genericRows f r m i) ∨
  (s.phase = .closemeta ∧ s.work.len ≠ none ∧ row = .close f r m i)

/-- A row that ends the frame reports from the working registers as they are. -/
theorem EndsFrame.exec_eq (h : EndsFrame s f r m i row) : ∃ c t, t.work = s.work ∧ exec row s = frameDone c t := by
  rcases h with ⟨hp, hm, hrow⟩ | ⟨hp, hk, hl, hrow⟩ | ⟨hp, hl, rfl⟩
  · refine ⟨noCloseMeta, s, rfl, (genericRows_exec hrow s).trans ?_⟩
    simp [opcodeRow, hp, hm, payloadDone]
  · obtain ⟨k, hk⟩ := Option.ne_none_iff_exists'.mp hk
    obtain ⟨l, hl⟩ := Option.ne_none_iff_exists'.mp hl
    refine ⟨noCloseMeta, { s with pbuf := toggleMask k (someWindow s) s.pbuf l.toNat }, rfl, (genericRows_exec hrow s).trans ?_⟩
    simp only [opcodeRow, hp, unmaskPayload, hk, hl, withValue_some, payloadDone, Bool.false_eq_true, if_false]
  · obtain ⟨l, hl⟩ := Option.ne_none_iff_exists'.mp hl
    refine ⟨closeMetaOf s.params s.pbuf (someWindow s) l, s, rfl, Eq.trans (b := opcodeRow true s) rfl ?_⟩
    simp only [opcodeRow, hp, if_true, closeMetaStep, hl, withValue_some]

/-- The report reads FIN, OPC and `LEN` in this order, and stops at the first that holds no value. -/
theorem frameDone_noValue (c : CloseMeta) (s : State) :
    (s.work.fin = none → frameDone c s = .fault (.noValue .fin)) ∧
    (s.work.fin ≠ none → s.work.opc = none → frameDone c s = .fault (.noValue .opc)) ∧
    (s.work.fin ≠ none → s.work.opc ≠ none → s.work.len = none → frameDone c s = .fault (.noValue .len)) := by
  refine ⟨fun hf => ?_, fun hf ho => ?_, fun hf ho hl => ?_⟩
  · simp only [frameDone, hf, withValue_none]
  · obtain ⟨f, hf⟩ := Option.ne_none_iff_exists'.mp hf
    simp only [frameDone, hf, ho, withValue_some, withValue_none]
  · obtain ⟨f, hf⟩ := Option.ne_none_iff_exists'.mp hf
    obtain ⟨o, ho⟩ := Option.ne_none_iff_exists'.mp ho
    simp only [frameDone, hf, ho, hl, withValue_some, withValue_none]

theorem EndsFrame.noValue (h : EndsFrame s f r m i row) :
    (s.work.fin = none → exec row s = .fault (.noValue .fin)) ∧
    (s.work.fin ≠ none → s.work.opc = none → exec row s = .fault (.noValue .opc)) ∧
    (s.work.fin ≠ none → s.work.opc ≠ none → s.work.len = none → exec row s = .fault (.noValue .len)) := by
  obtain ⟨c, t, hwork, e⟩ := h.exec_eq
  rw [e, ← hwork]
  exact frameDone_noValue c t

/-! ### Moves against the host's contracts -/

variable {bytes : List Byte} {addr : Nat} {b : Byte} {hs : List HostMove}

theorem step_connect_streamInUse (hh : s.host = .connect bytes :: hs) (hr : s.phase.running = true) :
    step s = .refused .streamInUse := by
  simp only [step, advance, hh, connect, hr, if_true]

theorem step_store_noSuchAddress (hh : s.host = .store addr b :: hs) (ha : Config.sizeRange s.params.sizeW ≤ addr) :
    step s = .refused .noSuchAddress := by
  simp only [step, advance, hh, hostStore, ha, if_true]

theorem step_store_windowInUse (hh : s.host = .store addr b :: hs) (ha : addr < Config.sizeRange s.params.sizeW)
    (hw : inRunningWindow addr s = true) : step s = .refused .windowInUse := by
  simp only [step, advance, hh]
  exact (if_neg (Nat.not_le.mpr ha)).trans (if_pos hw)

theorem inRunningWindow_of {w : Window} (hr : s.phase.running = true) (hw : s.win = some w) (hlo : w.base ≤ addr)
    (hhi : addr < w.base + w.cap) : inRunningWindow addr s = true := by
  simp [inRunningWindow, hr, hw, hlo, hhi]

end

/-! ### The names of the stops -/

/-- Settles O48, stop by stop. -/
theorem stopsAreNamed : Obligations.StopsAreNamed := by
  refine ⟨fun s w klen n k opc fin client hr hv => windowCommands_notAWindow hr hv klen n k opc fin client,
    fun s f r o m i => ⟨fun hp row => ?_, fun hp row => unmaskedRows_keyrd hp, fun hp row => otherRows_ext16 hp,
      fun hp row => otherRows_ext64 hp, fun hp row hrow => ?_, fun hp row => genericRows_closemeta hp⟩,
    fun s bytes hs => step_connect_streamInUse, fun s addr b hs => step_store_noSuchAddress,
    fun s w addr b hs hh ha hr hw hlo hhi => step_store_windowInUse hh ha (inRunningWindow_of hr hw hlo hhi),
    fun s t h => ⟨fun hr hn => h.step_missing (fetch_missing_need hr hn),
      fun hr hn hc => h.step_missing (fetch_missing_cnt hr hn hc),
      fun hr hx ⟨n, hn, hc⟩ hb => h.step_missing (fetch_missing_hb_read hr hx hn hc hb),
      fun hp hb => h.step_missing (fetch_missing_hb hp hb)⟩,
    fun s f r o m i row => ⟨len16Rows_noValue, len64Rows_noValue, maskedRows_noValue,
      fun hp hm hrow => (opcodeRows_exec hrow s).trans (opcodeRow_payload_noMask _ hp hm),
      fun hp hk hrow => (opcodeRows_exec hrow s).trans (opcodeRow_unmask_noKey _ hp hk),
      fun hp hk hl hrow => (opcodeRows_exec hrow s).trans (opcodeRow_unmask_noLen _ hp hk hl),
      fun hp hl hrow => hrow ▸ opcodeRow_closemeta_noLen hp hl, EndsFrame.noValue⟩⟩
  · have hother : ∀ p ∈ [Phase.idle, .payload, .unmask, .closemeta, .rxrun, .done, .fault],
        p ≠ .hdr ∧ p ≠ .ext16 ∧ p ≠ .ext64 ∧ p ≠ .keyrd := by
      decide
    exact lengthRows_notItsPhase (hother _ hp)
  · have hother : ∀ p ∈ [Phase.idle, .hdr, .ext16, .ext64, .keyrd, .rxrun, .done, .fault],
        p ≠ .payload ∧ p ≠ .unmask ∧ p ≠ .closemeta := by
      decide
    exact (opcodeRows_exec hrow s).trans (opcodeRow_notItsPhase _ (hother _ hp))

end Sys2Proof.Machine
end

section
/-! PROOFS. The payload memory and the exact read: the canonical form of PBUF (20_memory.md R44), where one answer of data is
stored (44_exact_read.md R151, R152), and a READ_EXACT from its issue to its end. -/

namespace Sys2Proof.Machine

/-! ### The canonical form -/

/-- Two memories in canonical form above the same address that read the same are equal: each lists its lowest address first,
and no listed byte reads as an unlisted one. -/
theorem Memory.eq_of_read_eq {m m' : Memory} {lo : Nat} (h : Memory.wfAbove lo m = true)
    (h' : Memory.wfAbove lo m' = true) (hread : ∀ a, Memory.read m a = Memory.read m' a) : m = m' := by
  induction m generalizing m' lo with
  | nil =>
    cases m' with
    | nil => rfl
    | cons c' m' =>
      obtain ⟨x', v'⟩ := c'
      simp only [Memory.wfAbove, Bool.and_eq_true, decide_eq_true_eq] at h'
      have hx := hread x'
      simp only [Memory.read, if_true] at hx
      exact absurd hx.symm h'.1.2
  | cons c m ih =>
    obtain ⟨x, v⟩ := c
    simp only [Memory.wfAbove, Bool.and_eq_true, decide_eq_true_eq] at h
    obtain ⟨⟨-, hv⟩, hm⟩ := h
    cases m' with
    | nil =>
      have hx := hread x
      simp only [Memory.read, if_true] at hx
      exact absurd hx hv
    | cons c' m' =>
      obtain ⟨x', v'⟩ := c'
      simp only [Memory.wfAbove, Bool.and_eq_true, decide_eq_true_eq] at h'
      obtain ⟨⟨-, hv'⟩, hm'⟩ := h'
      have hx := hread x
      have hx' := hread x'
      simp only [Memory.read, if_true] at hx hx'
      rcases Nat.lt_trichotomy x x' with hlt | rfl | hlt
      · rw [if_neg (by omega), Memory.read_below m' hm' (by omega)] at hx
        exact absurd hx hv
      · have htail : ∀ a, Memory.read m a = Memory.read m' a := by
          intro a
          by_cases ha : a < x + 1
          · rw [Memory.read_below m hm ha, Memory.read_below m' hm' ha]
          · have hne : a ≠ x := by omega
            simpa only [Memory.read, if_neg hne] using hread a
        rw [ih hm hm' htail, show v = v' by simpa using hx]
      · rw [if_neg (by omega), Memory.read_below m hm (by omega)] at hx'
        exact absurd hx'.symm hv'

/-- Settles O38: the laws of one store, and two canonical memories that read the same are equal. -/
theorem memoryIsCanonical : Obligations.MemoryIsCanonical :=
  ⟨fun m a _ b h => ⟨Memory.write_wf m a b h, Memory.read_write_self m a b h, Memory.read_write_ne m b⟩,
    fun _ _ => Memory.eq_of_read_eq⟩

/-! ### One answer of data -/

/-- An answer of data to a turn of the exact read is taken off the stream and stored (44_exact_read.md R151, R152). -/
theorem readStep_readOn {s : State} {n c size : Nat} {ds : List ReadDraw} (hr : s.phase.reading = true)
    (hcan : s.cancel = false) (ha : s.answers = .data size :: ds) (hne : deliveryOf (n - c) size s.input ≠ []) :
    readStep n c s = .next (readOn c (deliveryOf (n - c) size s.input) ds s) := by
  have hread : streamRead (n - c) s = (.data (deliveryOf (n - c) size s.input),
      delivered { s with answers := ds } (deliveryOf (n - c) size s.input)) := by
    simp [streamRead, hcan, ha, deliver, delivered]
  simp only [readStep, hread, List.isEmpty_iff, hne, if_false]
  exact storeDelivered_eq_stored c _ (by exact hr)

/-- The next `k` bytes of the stream are taken off it, counted and stored. -/
theorem readOn_take {s : State} {k : Nat} (hk : k ≤ s.input.length) (c : Nat) (ds : List ReadDraw) :
    readOn c (s.input.take k) ds s = stored c (s.input.take k)
      { s with answers := ds, input := s.input.drop k, spos := s.spos + k,
               work := { s.work with cnt := some (c + k) } } := by
  simp only [readOn, counted, delivered, List.length_take_of_le hk]

/-- In a phase that reads, an answer of data delivers the next `k` bytes of the stream, at least one and at most the missing
part, and they are stored (20_memory.md R41; 44_exact_read.md R151). -/
theorem blockStep_stored {s : State} {n c size : Nat} {ds : List ReadDraw} (hr : s.phase.reading = true)
    (hn : s.work.need = some n) (hc : s.work.cnt = some c) (hlt : c < n) (hcan : s.cancel = false)
    (ha : s.answers = .data size :: ds) (hi : s.input ≠ []) :
    ∃ k, 1 ≤ k ∧ k ≤ n - c ∧ k ≤ s.input.length ∧ blockStep s = .next (stored c (s.input.take k) { s with
      answers := ds, input := s.input.drop k, spos := s.spos + k, work := { s.work with cnt := some (c + k) } }) := by
  have hpos : 0 < (deliveryOf (n - c) size s.input).length := deliveryOf_pos size (by omega) hi
  have hle : (deliveryOf (n - c) size s.input).length ≤ s.input.length := List.length_take_le' _ _
  refine ⟨_, hpos, deliveryOf_length_le _ _ _, hle, ?_⟩
  rw [blockStep_read (fetch_read hr hn hc hlt), readStep_readOn hr hcan ha (List.length_pos_iff.mp hpos),
    ← readOn_take hle, ← deliveryOf_eq_take]

/-- The same of a step of the machine, where the block moves. -/
theorem BlockMoves.step_stored {s u : State} (h : BlockMoves s u) {n c size : Nat} {ds : List ReadDraw}
    (hr : s.phase.reading = true) (hn : s.work.need = some n) (hc : s.work.cnt = some c) (hlt : c < n)
    (hcan : s.cancel = false) (ha : s.answers = .data size :: ds) (hi : s.input ≠ []) :
    ∃ k, 1 ≤ k ∧ k ≤ n - c ∧ k ≤ s.input.length ∧ step s = .next (stored c (s.input.take k) { u with
      answers := ds, input := s.input.drop k, spos := s.spos + k, work := { s.work with cnt := some (c + k) } }) := by
  obtain ⟨hs, rfl, e⟩ := h.step_eq
  rw [e]
  exact blockStep_stored (s := { s with host := hs }) hr hn hc hlt hcan ha hi

/-- HDR reads into HB (41_frame_decoder.md R91). -/
theorem stored_hdr {s : State} (hp : s.phase = .hdr) (i : Nat) (bs : List Byte) :
    stored i bs s = { s with work := { s.work with hb := storeFile s.work.hb i bs } } := by
  simp only [stored, hp]

/-- EXT16 and EXT64 read into XB (41_frame_decoder.md R94). -/
theorem stored_ext {s : State} (hp : s.phase = .ext16 ∨ s.phase = .ext64) (i : Nat) (bs : List Byte) :
    stored i bs s = { s with work := { s.work with xb := storeFile s.work.xb i bs } } := by
  rcases hp with hp | hp <;> simp only [stored, hp]

/-- KEYRD reads into KEY (41_frame_decoder.md R97). -/
theorem stored_keyrd {s : State} (hp : s.phase = .keyrd) (i : Nat) (bs : List Byte) :
    stored i bs s = { s with key := storeFile s.key i bs } := by
  simp only [stored, hp]

/-- PAYLOAD and RXRUN read into the sampled window (20_memory.md R46). -/
theorem stored_window {s : State} {w : Window} (hp : s.phase = .payload ∨ s.phase = .rxrun) (hw : s.win = some w)
    (i : Nat) (bs : List Byte) : stored i bs s = { s with pbuf := winWriteAll w s.pbuf i bs } := by
  rcases hp with hp | hp <;> simp only [stored, hp, someWindow_of hw]

/-- Bytes `c .. c+k-1` of a window hold the first `k` bytes of `l` once these are stored from index `c` on. -/
theorem winWriteAll_take_read {w : Window} {m : Memory} {c k : Nat} {l : List Byte} (hm : m.wf = true)
    (hk : k ≤ l.length) (hfit : c + k ≤ w.cap) {j : Nat} (hj : j < k) :
    some (Memory.read (winWriteAll w m c (l.take k)) (w.base + c + j)) = l[j]? := by
  have hlen : (l.take k).length = k := List.length_take_of_le hk
  have hrun := winWriteAll_read_run w m c (l.take k) hm (by omega) (j := j) (by omega)
  rw [List.getElem_take, winRead, ← Nat.add_assoc] at hrun
  rw [hrun, List.getElem?_eq_getElem]

/-- Every other byte reads as before. -/
theorem winWriteAll_take_read_frame {w : Window} {m : Memory} {c k : Nat} {l : List Byte} (hk : k ≤ l.length) {a : Nat}
    (h : a < w.base + c ∨ w.base + c + k ≤ a) : Memory.read (winWriteAll w m c (l.take k)) a = Memory.read m a :=
  winWriteAll_read_frame w m c _ (by rwa [List.length_take_of_le hk])

/-- The exact read of a running operation into its window asks for no more than the window holds (41_frame_decoder.md R98;
44_exact_read.md R151). -/
theorem Sound.need_le_cap {s : State} (h : Sound s) (hp : s.phase = .payload ∨ s.phase = .rxrun) {w : Window} {n c : Nat}
    (hw : s.win = some w) (hn : s.work.need = some n) (hc : s.work.cnt = some c) (hlt : c < n) : n ≤ w.cap := by
  have ph := h.phase
  unfold PhaseSound at ph
  rcases hp with hp | hp <;> simp only [hp] at ph
  · obtain ⟨w', _, l, ⟨-, -, hw', -⟩, -, -, hcap, hread, -⟩ := ph
    obtain ⟨-, hneed, -⟩ := hread.of_lt hn hc hlt
    cases hw.symm.trans hw'
    cases hn.symm.trans hneed
    exact hcap
  · obtain ⟨w', m, ⟨-, -, hw', -⟩, hcap, hneed, -⟩ := ph
    cases hw.symm.trans hw'
    cases hn.symm.trans hneed
    exact hcap

/-- Settles O14: the answer is stored in the window, which has room for the missing part. -/
theorem deliveredBytesGoIntoTheWindow : Obligations.DeliveredBytesGoIntoTheWindow := by
  intro s u w n c size ds hmoves hsound hp hw hn hc hlt hcan ha hi
  have hr : s.phase.reading = true := by rcases hp with hp | hp <;> rw [hp] <;> rfl
  obtain ⟨k, hpos, hmissing, hk, hstep⟩ := hmoves.step_stored hr hn hc hlt hcan ha hi
  obtain ⟨hs, rfl, -⟩ := hmoves.step_eq
  have hfit : n ≤ w.cap := hsound.need_le_cap hp hw hn hc hlt
  rw [stored_window (by exact hp) (by exact hw)] at hstep
  refine ⟨k, _, hpos, hmissing, hk, hstep, rfl, fun j hj => ?_, fun a hout => ?_⟩
  · exact winWriteAll_take_read hsound.memory hk (by omega) hj
  · exact winWriteAll_take_read_frame hk hout

/-- Index `j` of a file after the first `k` bytes of `l` are stored from `c` on. -/
theorem storeFile_take_getElem {d : Nat} (f : Vector (Option Byte) d) (c : Nat) {k : Nat} {l : List Byte}
    (hk : k ≤ l.length) (j : Fin d) :
    (storeFile f c (l.take k))[j] = if c ≤ j.val ∧ j.val < c + k then l[j.val - c]? else f[j] := by
  have hg := storeFile_getElem f c (l.take k) j.val j.isLt
  simp only [List.length_take_of_le hk, List.getElem_take] at hg
  refine hg.trans ?_
  split
  · exact (List.getElem?_eq_getElem _).symm
  · rfl

/-- Settles O15: in each phase of the header the answer is stored in that phase's file. -/
theorem headerBytesGoIntoRegisters : Obligations.HeaderBytesGoIntoRegisters := by
  intro s u n c size ds hmoves hp hn hc hlt hcan ha hi
  have hr : s.phase.reading = true := by rcases hp with hp | hp | hp | hp <;> rw [hp] <;> rfl
  obtain ⟨k, hpos, hmissing, hk, hstep⟩ := hmoves.step_stored hr hn hc hlt hcan ha hi
  obtain ⟨hs, rfl, -⟩ := hmoves.step_eq
  have hfile {d : Nat} (f : Vector (Option Byte) d) := storeFile_take_getElem f c hk
  rcases hp with hp | hp | hp | hp
  · rw [stored_hdr (by exact hp)] at hstep
    exact ⟨k, _, hpos, hmissing, hk, hstep, rfl, fun _ => ⟨rfl, rfl, hfile _⟩, by simp [hp], by simp [hp]⟩
  · rw [stored_ext (.inl (by exact hp))] at hstep
    exact ⟨k, _, hpos, hmissing, hk, hstep, rfl, by simp [hp], fun _ => ⟨rfl, rfl, hfile _⟩, by simp [hp]⟩
  · rw [stored_ext (.inr (by exact hp))] at hstep
    exact ⟨k, _, hpos, hmissing, hk, hstep, rfl, by simp [hp], fun _ => ⟨rfl, rfl, hfile _⟩, by simp [hp]⟩
  · rw [stored_keyrd (by exact hp)] at hstep
    exact ⟨k, _, hpos, hmissing, hk, hstep, rfl, by simp [hp], by simp [hp], fun _ => ⟨rfl, rfl, hfile _⟩⟩

/-! ### The exact read from its issue to its end -/

/-- The end of a READ_EXACT, as a step (44_exact_read.md R150). -/
theorem step_endRead {s : State} {n : Nat} (hh : s.host = []) (hp : s.phase = .rxrun) (hn : s.work.need = some n)
    (hc : s.work.cnt = some n) : step s = .next (finished Results.empty s) := by
  obtain ⟨_, -, e⟩ := BlockMoves.step_eq (.inl ⟨hh, rfl⟩)
  rw [e, blockStep_endRead (fetch_endRead hp hn hc)]

/-- Reading on into the window stores in it. -/
theorem readOn_pbuf_window {s : State} {w : Window} (hp : s.phase = .payload ∨ s.phase = .rxrun) (hw : s.win = some w)
    (c : Nat) (bs : List Byte) (ds : List ReadDraw) : (readOn c bs ds s).pbuf = winWriteAll w s.pbuf c bs := by
  rw [readOn, stored_window (by exact hp) (by exact hw)]
  rfl

/-- A READ_EXACT of some bytes that has just begun runs to its end in at most one step for each of them and one more,
whatever the sizes of the answers: the next `n` bytes of the stream are stored from the start of its window on. -/
theorem readExact_run {s : State} {n : Nat} {w : Window} (hn : n ≠ 0) (hw : s.win = some w) (hh : s.host = [])
    (hcan : s.cancel = false) (hd : ∀ d ∈ s.answers, ∃ size, d = .data size) (hal : n ≤ s.answers.length)
    (hil : n ≤ s.input.length) :
    ∃ k t, k ≤ n + 1 ∧ runSteps k (startRead .rxrun n s) = .next (finished Results.empty t) ∧ t.spos = s.spos + n ∧
      t.input = s.input.drop n ∧ t.pbuf = winWriteAll w s.pbuf 0 (s.input.take n) := by
  have hneed : (startRead .rxrun n s).work.need = some n := by simp [hn]
  have hcnt : (startRead .rxrun n s).work.cnt = some 0 := by simp [hn]
  have hlen : (s.input.take n).length = n := List.length_take_of_le hil
  obtain ⟨k, ds, hk, -, -, hrun⟩ := read_run n (startRead .rxrun n s) n 0 hh rfl hneed hcnt (Nat.zero_le n) (by omega)
    hcan hd hal hil
  rw [if_neg (by omega), Nat.sub_zero, startRead_input] at hrun
  have hend := step_endRead (s := readOn 0 (s.input.take n) ds (startRead .rxrun n s)) (n := n) (by simpa using hh)
    (by simp) (by simpa using hneed) (by simp [hil])
  refine ⟨k + 1, _, by omega, ?_, ?_, ?_, readOn_pbuf_window (s := startRead .rxrun n s) (.inr rfl) hw _ _ ds⟩
  · rw [run_append k 1 hrun, run_step 0 hend]
    rfl
  · rw [readOn_spos, hlen, startRead_spos]
  · rw [readOn_input, hlen, startRead_input]

/-- Settles O19: a READ_EXACT of no byte is done at its issue; any other runs through the loop of the exact read, whose end
does not depend on the sizes of the answers. -/
theorem readExactIsIndependentOfChunking : Obligations.ReadExactIsIndependentOfChunking := by
  intro s n w hsound hidle hh hvalid hcap hcan hd hal hil
  rcases readExact_cases n w s with
    ⟨hr, -⟩ | ⟨-, hv, -⟩ | ⟨-, -, -, hsmall, -⟩ | ⟨-, -, rfl, e⟩ | ⟨-, -, h0, -, e⟩
  · cases hidle.symm.trans hr
  · cases hvalid.symm.trans hv
  · omega
  · exact ⟨_, 0, _, e, by omega, rfl, rfl, rfl, rfl, rfl, nofun, fun _ _ => rfl⟩
  · obtain ⟨k, t, hk, hrun, hspos, hinput, hpbuf⟩ :=
      readExact_run (s := { accept s with win := some w }) h0 rfl hh hcan hd hal hil
    refine ⟨_, k, _, e, hk, hrun, rfl, rfl, hspos, hinput, fun j hj => ?_, fun a hout => ?_⟩ <;>
      rw [finished_pbuf, hpbuf]
    · exact winWriteAll_take_read hsound.memory hil (by omega) hj
    · exact winWriteAll_take_read_frame hil hout

end Sys2Proof.Machine
end

section
/-! PROOFS. What the rows of a header leave unchanged (41_frame_decoder.md R90 to R106), and in which window a step can change a
byte of PBUF (20_memory.md R45). The state a row leaves is said once for each class of rows, as `LengthRowEffect` and
`OpcodeRowEffect`; the frames, and the bytes a step of the block can change, are read off them. -/

namespace Sys2Proof.Machine

/-! ### The environment -/

/-- Everything beside the block's registers and PBUF that no row of a header touches: the stream, its position and its coming
answers, CANCEL, the sink, the random source, MAX_LEN, the parameters and the host's script. -/
def SameEnvironment (s t : State) : Prop :=
  t.input = s.input ∧ t.spos = s.spos ∧ t.answers = s.answers ∧ t.cancel = s.cancel ∧ t.out = s.out ∧ t.rng = s.rng ∧
  t.draws = s.draws ∧ t.maxLen = s.maxLen ∧ t.params = s.params ∧ t.host = s.host

/-! ### Length-form rows -/

/-- Everything a length-form row that answers a next state can do: with HB and XB as they are it ends in a fault, or begins
the next read. -/
inductive LengthRowEffect (s : State) : State → Prop where
  | faults (e : Err) (w : Working) : LengthRowEffect s (raised e { s with work := w })
  | reads (p : Phase) (n : Nat) (w : Working) (hb : w.hb = s.work.hb) (xb : w.xb = s.work.xb) :
      LengthRowEffect s (startRead p n { s with work := w })

theorem LengthRowEffect.pbuf {s t : State} (h : LengthRowEffect s t) : t.pbuf = s.pbuf := by
  cases h <;> rfl

theorem LengthRowEffect.sameEnvironment {s t : State} (h : LengthRowEffect s t) : SameEnvironment s t := by
  cases h <;> exact ⟨rfl, rfl, rfl, rfl, rfl, rfl, rfl, rfl, rfl, rfl⟩

/-- Unless the row ends the operation, it leaves every register but PHASE, the fields, `LEN`, NEED and CNT. -/
theorem LengthRowEffect.registers {s t : State} (h : LengthRowEffect s t) (hp : t.phase ≠ .fault) :
    t.err = s.err ∧ t.res = s.res ∧ t.key = s.key ∧ t.win = s.win ∧ t.work.hb = s.work.hb ∧ t.work.xb = s.work.xb := by
  cases h with
  | faults => exact absurd rfl hp
  | reads p n w hb xb => exact ⟨rfl, rfl, rfl, rfl, hb, xb⟩

theorem startPayload_rowEffect {s t : State} (h : startPayload s = .next t) : LengthRowEffect s t := by
  rcases startPayload_next h with ⟨e, rfl⟩ | ⟨n, rfl⟩
  · exact .faults e s.work
  · exact .reads .payload n s.work rfl rfl

/-- From a header whose fields stand in `w`, beside HB and XB as they are. -/
theorem lengthKnown_rowEffect {masked : Bool} {l : Len} {s t : State} {w : Working} (hb : w.hb = s.work.hb)
    (xb : w.xb = s.work.xb) (h : lengthKnown masked l { s with work := w } = .next t) : LengthRowEffect s t := by
  rcases lengthKnown_next h with ⟨e, rfl⟩ | ⟨p, n, -, rfl⟩
  · exact .faults e { w with len := some l }
  · exact .reads p n { w with len := some l } hb xb

theorem keyKnown_rowEffect {masked : Bool} {s t : State} (h : keyKnown masked s = .next t) : LengthRowEffect s t := by
  cases masked with
  | false => cases h
  | true => exact startPayload_rowEffect h

theorem length7Row_rowEffect {masked f : Bool} {o : BitVec 4} {i : BitVec 7} {s t : State}
    (h : length7Row masked f o i s = .next t) : LengthRowEffect s t := by
  cases hp : s.phase <;> simp only [length7Row, hp] at h
  case hdr => exact lengthKnown_rowEffect (w := (extractFields f o masked i s).work) rfl rfl h
  case keyrd => exact keyKnown_rowEffect h
  all_goals cases h

theorem length16Row_rowEffect {masked f : Bool} {o : BitVec 4} {s t : State}
    (h : length16Row masked f o s = .next t) : LengthRowEffect s t := by
  cases hp : s.phase <;> simp only [length16Row, hp] at h
  case hdr =>
    cases h
    exact .reads .ext16 2 (extractFields f o masked 126#7 s).work rfl rfl
  case ext16 =>
    obtain ⟨v, -, h⟩ := withValue_next h
    exact lengthKnown_rowEffect rfl rfl h
  case keyrd => exact keyKnown_rowEffect h
  all_goals cases h

theorem length64Row_rowEffect {masked f : Bool} {o : BitVec 4} {s t : State}
    (h : length64Row masked f o s = .next t) : LengthRowEffect s t := by
  cases hp : s.phase <;> simp only [length64Row, hp] at h
  case hdr =>
    cases h
    exact .reads .ext64 8 (extractFields f o masked 127#7 s).work rfl rfl
  case ext64 =>
    obtain ⟨v, -, h⟩ := withValue_next h
    exact lengthKnown_rowEffect rfl rfl h
  case keyrd => exact keyKnown_rowEffect h
  all_goals cases h

theorem lengthRows_rowEffect {f : Bool} {r : BitVec 3} {o : BitVec 4} {i : BitVec 7} {row : Instr} {s t : State}
    (hrow : row ∈ lengthRows f r o i) (h : exec row s = .next t) : LengthRowEffect s t := by
  simp only [lengthRows, List.mem_cons, List.not_mem_nil, or_false] at hrow
  rcases hrow with rfl | rfl | rfl | rfl | rfl | rfl
  · exact length7Row_rowEffect h
  · exact length7Row_rowEffect h
  · exact length16Row_rowEffect h
  · exact length16Row_rowEffect h
  · exact length64Row_rowEffect h
  · exact length64Row_rowEffect h

/-- Settles O27: each of the six rows has one of the two effects. -/
theorem lengthRowsFrame : Obligations.LengthRowsFrame := by
  intro s t f r o i row hrow h
  have heffect := lengthRows_rowEffect hrow h
  obtain ⟨hi, hsp, ha, hc, ho, hrng, hd, hm, hpar, hh⟩ := heffect.sameEnvironment
  exact ⟨fun a => by rw [heffect.pbuf], hi, hsp, ha, hc, ho, hrng, hd, hm, hpar, hh, heffect.registers⟩

/-! ### Opcode rows -/

/-- The memory an opcode row leaves: as it was, or in UNMASK the first `LEN` bytes of the window unmasked
(41_frame_decoder.md R100). -/
inductive RowMemory (s : State) : Memory → Prop where
  | same : RowMemory s s.pbuf
  | unmasked (k : Key) (l : Len) (phase : s.phase = .unmask) (len : s.work.len = some l) :
      RowMemory s (toggleMask k (someWindow s) s.pbuf l.toNat)

/-- Everything an opcode row that answers a next state can do: it goes on to a next phase, or it ends the frame. -/
inductive OpcodeRowEffect (s : State) : State → Prop where
  | goesOn (p : Phase) (m : Memory) (memory : RowMemory s m) : OpcodeRowEffect s { s with phase := p, pbuf := m }
  | ends (r : Results) (m : Memory) (memory : RowMemory s m) : OpcodeRowEffect s (finished r { s with pbuf := m })

theorem OpcodeRowEffect.rowMemory {s t : State} (h : OpcodeRowEffect s t) : RowMemory s t.pbuf := by
  cases h with
  | goesOn _ _ memory | ends _ _ memory => exact memory

theorem OpcodeRowEffect.sameEnvironment {s t : State} (h : OpcodeRowEffect s t) : SameEnvironment s t := by
  cases h <;> exact ⟨rfl, rfl, rfl, rfl, rfl, rfl, rfl, rfl, rfl, rfl⟩

/-- Unless the row ends the operation, it leaves every register but PHASE. -/
theorem OpcodeRowEffect.registers {s t : State} (h : OpcodeRowEffect s t) (hp : t.phase ≠ .done) :
    t.err = s.err ∧ t.res = s.res ∧ t.key = s.key ∧ t.win = s.win ∧ t.work = s.work := by
  cases h with
  | goesOn => exact ⟨rfl, rfl, rfl, rfl, rfl⟩
  | ends => exact absurd rfl hp

theorem frameDone_rowEffect {c : CloseMeta} {s t : State} {m : Memory} (hm : RowMemory s m)
    (h : frameDone c { s with pbuf := m } = .next t) : OpcodeRowEffect s t := by
  rcases frameDone_cases c { s with pbuf := m } with ⟨r, e⟩ | ⟨f, o, l, -, -, -, e⟩ <;> cases e.symm.trans h
  exact .ends _ m hm

theorem payloadDone_rowEffect {isClose : Bool} {s t : State} {m : Memory} (hm : RowMemory s m)
    (h : payloadDone isClose { s with pbuf := m } = .next t) : OpcodeRowEffect s t := by
  rcases payloadDone_cases isClose { s with pbuf := m } with ⟨-, e⟩ | ⟨-, e⟩ <;> rw [e] at h
  · cases h
    exact .goesOn .closemeta m hm
  · exact frameDone_rowEffect hm h

theorem opcodeRow_rowEffect {isClose : Bool} {s t : State} (h : opcodeRow isClose s = .next t) :
    OpcodeRowEffect s t := by
  rcases opcodeRow_cases isClose s with
    ⟨r, e⟩ | e | ⟨-, -, e⟩ | ⟨-, -, e⟩ | ⟨k, l, hp, -, hl, e⟩ | ⟨l, -, -, -, e⟩ <;> rw [e] at h
  · cases h
  · cases h
  · cases h
    exact .goesOn .unmask s.pbuf .same
  · exact payloadDone_rowEffect .same h
  · exact payloadDone_rowEffect (.unmasked k l hp hl) h
  · exact frameDone_rowEffect .same h

/-- The window at hand is the sampled one, or has no byte. -/
theorem someWindow_cases (s : State) : (∃ w, s.win = some w ∧ someWindow s = w) ∨ (s.win = none ∧ someWindow s = ⟨0, 0⟩) := by
  cases hw : s.win with
  | none => exact .inr ⟨rfl, by simp [someWindow, hw]⟩
  | some w => exact .inl ⟨w, rfl, someWindow_of hw⟩

/-- Every address is outside a window that has no byte. -/
theorem outside_empty (a : Nat) : outside ⟨0, 0⟩ a := .inr (Nat.zero_le a)

/-- A byte that is none of the first `LEN` of the window in UNMASK reads as before. -/
theorem RowMemory.read_frame {s : State} {m : Memory} (h : RowMemory s m) {a : Nat}
    (ha : ∀ w l, s.phase = .unmask → s.win = some w → s.work.len = some l → a < w.base ∨ w.base + l.toNat ≤ a) :
    Memory.read m a = Memory.read s.pbuf a := by
  cases h with
  | same => rfl
  | unmasked k l hp hl =>
    rcases someWindow_cases s with ⟨w, hw, e⟩ | ⟨-, e⟩ <;> rw [e]
    · exact toggleMask_read_frame k w s.pbuf _ (ha w l hp hw hl)
    · exact toggleMask_read_outside k _ s.pbuf _ (outside_empty a)

/-- Settles O33: each of the sixteen rows has one of the two effects. -/
theorem opcodeRowsFrame : Obligations.OpcodeRowsFrame := by
  intro s t f r m i row hrow h
  have heffect : OpcodeRowEffect s t := opcodeRow_rowEffect ((opcodeRows_exec hrow s).symm.trans h)
  obtain ⟨hi, hsp, ha, hc, ho, hrng, hd, hm, hpar, hh⟩ := heffect.sameEnvironment
  exact ⟨fun a => heffect.rowMemory.read_frame, hi, hsp, ha, hc, ho, hrng, hd, hm, hpar, hh, heffect.registers⟩

/-! ### Stores of the block -/

/-- The memories `m` and `m'` differ at most in the window. -/
def DifferWithin (w : Window) (m m' : Memory) : Prop := ∀ a, outside w a → Memory.read m' a = Memory.read m a

/-- What the block may do to PBUF: nothing, or to store in the window at hand of a running operation. -/
def BlockStores (s : State) (m : Memory) : Prop :=
  m = s.pbuf ∨ (s.phase.running = true ∧ DifferWithin (someWindow s) s.pbuf m)

/-- A phase that reads the stream is a phase of a running operation (10_state.md R14). -/
theorem Phase.running_of_reading {p : Phase} (h : p.reading = true) : p.running = true := by
  cases p
  case idle | done | fault => cases h
  all_goals rfl

theorem stored_blockStores {s : State} (hr : s.phase.reading = true) (i : Nat) (bs : List Byte) :
    BlockStores s (stored i bs s).pbuf := by
  have hwindow : BlockStores s (winWriteAll (someWindow s) s.pbuf i bs) :=
    .inr ⟨Phase.running_of_reading hr, fun _ => winWriteAll_read_outside _ _ _ _⟩
  cases hp : s.phase <;> simp only [stored, hp]
  case payload | rxrun => exact hwindow
  all_goals exact .inl rfl

theorem readStep_blockStores {s t : State} {n c : Nat} (hr : s.phase.reading = true) (h : readStep n c s = .next t) :
    BlockStores s t.pbuf := by
  rcases readStep_cases n c s with ⟨-, -, e⟩ | ⟨-, e⟩ | ⟨-, ds, -, e⟩ | ⟨-, size, ds, b, -, ⟨-, e⟩ | ⟨-, e⟩⟩ <;> rw [e] at h
  case inr.inr.inr.inr =>
    rw [storeDelivered_eq_stored _ _ (by exact hr)] at h
    cases h
    exact stored_blockStores (s := counted (delivered (answered s ds b) _) _) hr c _
  all_goals
    cases h
    exact .inl rfl

theorem lengthForm_rowEffect {hw : HeaderWord} {s t : State} (h : exec (decodeLengthForm hw) s = .next t) :
    LengthRowEffect s t := by
  rw [exec_decodeLengthForm] at h
  split at h
  · exact length16Row_rowEffect h
  · split at h
    · exact length64Row_rowEffect h
    · exact length7Row_rowEffect h

theorem RowMemory.blockStores {s : State} {m : Memory} (h : RowMemory s m) : BlockStores s m := by
  cases h with
  | same => exact .inl rfl
  | unmasked k l hp => exact .inr ⟨by rw [hp]; rfl, fun _ => toggleMask_read_outside k _ _ _⟩

/-- Every step of the block stores in its window at most (20_memory.md R45). -/
theorem blockStep_blockStores {s t : State} (h : blockStep s = .next t) : BlockStores s t.pbuf := by
  rcases fetch_cases s with ⟨-, e⟩ | ⟨r, e⟩ | ⟨n, c, hr, -, -, -, e⟩ | ⟨_, _, -, -, -, -, e⟩ |
    ⟨_, _, hw, -, -, -, -, -, e⟩ | ⟨hw, -, -, e⟩
  · cases (blockStep_wait e).symm.trans h
    exact .inl rfl
  · cases (blockStep_missing e).symm.trans h
  · exact readStep_blockStores hr ((blockStep_read e).symm.trans h)
  · cases (blockStep_endRead e).symm.trans h
    exact .inl rfl
  · exact .inl (lengthForm_rowEffect ((blockStep_lengthForm e).symm.trans h)).pbuf
  · exact (opcodeRow_rowEffect ((blockStep_opcode e).symm.trans h)).rowMemory.blockStores

/-! ### Stores of a command -/

/-- What a command with the window `w` may do to PBUF: nothing, or between operations to store in `w`. -/
def CommandStores (w : Window) (s t : State) : Prop :=
  t.pbuf = s.pbuf ∨ (s.phase.running = false ∧ DifferWithin w s.pbuf t.pbuf)

theorem toggleMask_commandStores {klen : Nat} {k : Key} {w : Window} {s t : State}
    (h : exec (.toggleMask klen k w) s = .next t) : CommandStores w s t := by
  rcases toggleMask_cases klen k w s with ⟨-, e⟩ | ⟨-, -, e⟩ | ⟨-, -, -, e⟩ | ⟨hr, -, -, e⟩ <;> cases e.symm.trans h
  · exact .inl rfl
  · exact .inl rfl
  · exact .inr ⟨hr, fun _ => toggleMask_read_outside k w _ _⟩

theorem encode_commandStores {o : BitVec 4} {f c : Bool} {w : Window} {s t : State}
    (h : exec (.encode o f c w) s = .next t) : CommandStores w s t := by
  rcases encode_cases o f c w s with
    ⟨-, e⟩ | ⟨-, -, -, e⟩ | ⟨hr, -, -, ⟨-, e⟩ | ⟨-, k, ks, -, e⟩ | ⟨-, -, e⟩⟩ <;> cases e.symm.trans h
  · exact .inl rfl
  · exact .inl rfl
  · exact .inr ⟨hr, fun _ => toggleMask_read_outside k w _ _⟩
  · exact .inr ⟨hr, fun _ => toggleMask_read_outside _ w _ _⟩

theorem exec_decode_pbuf {w : Window} {s t : State} (h : exec (.decode w) s = .next t) : t.pbuf = s.pbuf := by
  rcases decode_cases w s with ⟨-, e⟩ | ⟨-, -, e⟩ | ⟨-, -, e⟩ <;> cases e.symm.trans h <;> rfl

theorem exec_readExact_pbuf {n : Nat} {w : Window} {s t : State} (h : exec (.readExact n w) s = .next t) :
    t.pbuf = s.pbuf := by
  rcases readExact_cases n w s with
    ⟨-, e⟩ | ⟨-, -, e⟩ | ⟨-, -, -, -, e⟩ | ⟨-, -, -, e⟩ | ⟨-, -, -, -, e⟩ <;> cases e.symm.trans h <;> rfl

theorem answer_pbuf {b : BOut} {s t : State} (h : answer b s = .next t) : t.pbuf = s.pbuf := by
  rcases answer_cases b s with ⟨-, e⟩ | ⟨-, e⟩ <;> cases e.symm.trans h <;> rfl

/-- Only the codes of TOGGLE_MASK and ENCODE store in PBUF, and in their own window (20_memory.md R45; 30_encoding.md R78). -/
theorem runWord_command_stores {code : BitVec 4} {a : Args} {s t : State} (h : runWord (.command code a) s = .next t) :
    t.pbuf = s.pbuf ∨ ((code = 0x2#4 ∨ code = 0x3#4) ∧ s.phase.running = false ∧ DifferWithin a.win s.pbuf t.pbuf) := by
  by_cases h1 : code = 0x1#4
  · subst h1
    exact .inl (exec_decode_pbuf h)
  by_cases h2 : code = 0x2#4
  · subst h2
    exact (toggleMask_commandStores h).imp_right fun hw => ⟨.inl rfl, hw⟩
  by_cases h3 : code = 0x3#4
  · subst h3
    exact (encode_commandStores h).imp_right fun hw => ⟨.inr rfl, hw⟩
  by_cases h4 : code = 0x4#4
  · subst h4
    exact .inl (exec_readExact_pbuf h)
  left
  rcases decodeCommand_cases code a with ⟨c, hd⟩ | ⟨i, -, hcode, -⟩ | ⟨i, hd, hi⟩
  · simp only [runWord, decode, hd] at h
    cases h
    rfl
  · simp [codeHasWindow, h1, h2, h3, h4] at hcode
  · obtain ⟨b, eb⟩ := byteOrderCommands_exec hi s
    simp only [runWord, decode, hd, eb] at h
    exact answer_pbuf h

/-! ### Stores of a step -/

/-- Everything a step that answers a next state can do to PBUF (20_memory.md R45, R49). -/
inductive StepStores (s t : State) : Prop where
  | block (stores : BlockStores s t.pbuf)
  | command {code : BitVec 4} {a : Args} {hs : List HostMove} (host : s.host = .command code a :: hs)
      (code_eq : code = 0x2#4 ∨ code = 0x3#4) (idle : s.phase.running = false) (within : DifferWithin a.win s.pbuf t.pbuf)
  | host {addr : Nat} {b : Byte} {hs : List HostMove} (host : s.host = .store addr b :: hs)
      (pbuf : t.pbuf = Memory.write s.pbuf addr b)

theorem stepStores_none {s t : State} (h : t.pbuf = s.pbuf) : StepStores s t := .block (.inl h)

theorem acknowledge_pbuf (s : State) : (acknowledge s).pbuf = s.pbuf := by
  rcases acknowledge_cases s with ⟨-, e⟩ | e <;> rw [e]

theorem writeMaxLen_pbuf (v : Len) (s : State) : (writeMaxLen v s).pbuf = s.pbuf := by
  rw [writeMaxLen_eq]

theorem step_stores {s t : State} (h : step s = .next t) : StepStores s t := by
  cases hh : s.host with
  | nil =>
    simp only [step, advance, hh] at h
    exact .block (blockStep_blockStores h)
  | cons m hs =>
    cases m <;> simp only [step, advance, hh] at h
    case yield => exact .block (blockStep_blockStores (s := { s with host := hs }) h)
    case await =>
      split at h
      · exact .block (blockStep_blockStores h)
      · cases h
        exact stepStores_none rfl
    case command code a =>
      rcases runWord_command_stores h with hsame | ⟨hcode, hidle, hwithin⟩
      · exact stepStores_none hsame
      · exact .command hh hcode hidle hwithin
    case ack =>
      cases h
      exact stepStores_none (acknowledge_pbuf _)
    case writeMaxLen v =>
      cases h
      exact stepStores_none (writeMaxLen_pbuf v _)
    case setCancel level | reset =>
      cases h
      exact stepStores_none rfl
    case connect bytes =>
      rcases connect_cases bytes { s with host := hs } with ⟨-, e⟩ | ⟨-, e⟩ <;> cases e.symm.trans h
      exact stepStores_none rfl
    case store addr b =>
      rcases hostStore_cases addr b { s with host := hs } with ⟨-, e⟩ | ⟨-, -, e⟩ | ⟨-, -, e⟩ <;> cases e.symm.trans h
      exact .host hh rfl

/-- A byte in which two memories differ lies in the window in which they differ at most. -/
theorem DifferWithin.mem {w : Window} {m m' : Memory} (h : DifferWithin w m m') {a : Nat}
    (hne : Memory.read m' a ≠ Memory.read m a) : w.base ≤ a ∧ a < w.base + w.cap := by
  have hin : ¬ outside w a := fun hout => hne (h a hout)
  unfold outside at hin
  omega

/-- Settles O39: each way in which a step stores is within one of the three places. -/
theorem storesStayInTheWindow : Obligations.StoresStayInTheWindow := by
  intro s t a hstep hne
  cases step_stores hstep with
  | block stores =>
    rcases stores with e | ⟨hr, hwithin⟩
    · exact absurd (by rw [e]) hne
    · rcases someWindow_cases s with ⟨w, hw, e⟩ | ⟨-, e⟩ <;> rw [e] at hwithin
      · exact .inl ⟨w, hr, hw, hwithin.mem hne⟩
      · exact absurd (hwithin a (outside_empty a)) hne
  | command host code_eq idle within => exact .inr (.inl ⟨_, _, _, host, idle, code_eq, within.mem hne⟩)
  | host host pbuf =>
    refine .inr (.inr ⟨_, _, _, host, ?_⟩)
    by_contra ha
    exact hne (by rw [pbuf, Memory.read_write_ne s.pbuf _ ha])

end Sys2Proof.Machine
end

section
/-! PROOFS. The decoder and the encoder are inverse to each other: the fields of a header word and the word of five fields, the
rows of the two classes, and the commands. -/

namespace Sys2Proof

open Machine

/-! ### The fields of a header word -/

section
variable (f : Bool) (r : BitVec 3) (o : BitVec 4) (m : Bool) (i : BitVec 7)

@[simp] theorem hwFin_makeHeader : hwFin (makeHeader f r o m i) = f := by
  rw [hwFin, makeHeader_bit]; simp

@[simp] theorem hwMask_makeHeader : hwMask (makeHeader f r o m i) = m := by
  rw [hwMask, makeHeader_bit]; simp

@[simp] theorem hwRsv_makeHeader : hwRsv (makeHeader f r o m i) = r := by
  apply BitVec.eq_of_getLsbD_eq
  intro k hk
  simp only [hwRsv, BitVec.getLsbD_extractLsb', makeHeader_bit]
  grind

@[simp] theorem hwOpc_makeHeader : hwOpc (makeHeader f r o m i) = o := by
  apply BitVec.eq_of_getLsbD_eq
  intro k hk
  simp only [hwOpc, BitVec.getLsbD_extractLsb', makeHeader_bit]
  grind

@[simp] theorem hwInd_makeHeader : hwInd (makeHeader f r o m i) = i := by
  apply BitVec.eq_of_getLsbD_eq
  intro k hk
  simp only [hwInd, BitVec.getLsbD_extractLsb', makeHeader_bit]
  grind

end

/-- A header word is the word of its five fields (30_encoding.md R61, R62, R67). -/
@[simp] theorem makeHeader_fields (hw : HeaderWord) :
    makeHeader (hwFin hw) (hwRsv hw) (hwOpc hw) (hwMask hw) (hwInd hw) = hw := by
  apply BitVec.eq_of_getLsbD_eq
  intro k hk
  simp only [makeHeader_bit, hwFin, hwRsv, hwOpc, hwMask, hwInd, BitVec.getLsbD_extractLsb']
  grind

/-! ### The opcode rows -/

/-- The word of an opcode row decodes to the row. -/
theorem decode_encode_opcodeRow {f : Bool} {r : BitVec 3} {m : Bool} {i : BitVec 7} {row : Instr}
    (h : row ∈ opcodeRows f r m i) : decode (encode row) = .ok row := by
  simp only [opcodeRows, genericRows, List.mem_cons, List.not_mem_nil, or_false] at h
  rcases h with rfl | rfl | rfl | rfl | rfl | rfl | rfl | rfl | rfl | rfl | rfl | rfl | rfl | rfl | rfl | rfl <;>
    simp [encode, decode, decodeOpcode]

/-- An opcode row has no condition on its fields. -/
theorem opcodeRow_wellFormed {f : Bool} {r : BitVec 3} {m : Bool} {i : BitVec 7} {row : Instr}
    (h : row ∈ opcodeRows f r m i) (sizeW : Nat) : row.wellFormed sizeW = true := by
  simp only [opcodeRows, genericRows, List.mem_cons, List.not_mem_nil, or_false] at h
  rcases h with rfl | rfl | rfl | rfl | rfl | rfl | rfl | rfl | rfl | rfl | rfl | rfl | rfl | rfl | rfl | rfl <;> rfl

/-- A header word decodes to an opcode row of its own fields (30_encoding.md R68). -/
theorem decodeOpcode_mem (hw : HeaderWord) :
    decodeOpcode hw ∈ opcodeRows (hwFin hw) (hwRsv hw) (hwMask hw) (hwInd hw) := by
  unfold decodeOpcode
  split <;> simp [opcodeRows, genericRows]

/-- Every header word is the word of the opcode row that it decodes to (30_encoding.md R67). -/
theorem encode_decodeOpcode (hw : HeaderWord) : encode (decodeOpcode hw) = .opcode hw := by
  have key : ∀ o, hwOpc hw = o → makeHeader (hwFin hw) (hwRsv hw) o (hwMask hw) (hwInd hw) = hw := by
    rintro _ rfl
    exact makeHeader_fields hw
  unfold decodeOpcode
  split
  case h_16 =>
    have hlast : hwOpc hw = 0xF#4 := by
      simp only [imp_false] at *
      bv_omega
    exact congrArg _ (key _ hlast)
  all_goals next h => exact congrArg _ (key _ h)

/-! ### The length-form rows -/

/-- An indicator of a 7-bit form is none of a longer form (30_encoding.md R72). -/
theorem shortIndicator_iff (i : BitVec 7) : shortIndicator i = true ↔ i ≠ 126#7 ∧ i ≠ 127#7 := by
  rw [shortIndicator, decide_eq_true_iff]
  bv_omega

/-- The word of a well-formed length-form row decodes to the row. -/
theorem decode_encode_lengthRow {f : Bool} {r : BitVec 3} {o : BitVec 4} {i : BitVec 7} {row : Instr}
    (h : row ∈ lengthRows f r o i) {sizeW : Nat} (hwf : row.wellFormed sizeW = true) :
    decode (encode row) = .ok row := by
  simp only [lengthRows, List.mem_cons, List.not_mem_nil, or_false] at h
  rcases h with rfl | rfl | rfl | rfl | rfl | rfl
  case inl | inr.inl =>
    obtain ⟨h6, h7⟩ := (shortIndicator_iff i).mp hwf
    simp [encode, decode, decodeLengthForm, h6, h7]
  all_goals simp [encode, decode, decodeLengthForm]

/-- Everything a header word can decode to as a length-form row: the form of its indicator, with its fields
(30_encoding.md R72). -/
theorem decodeLengthForm_cases (hw : HeaderWord) :
    decodeLengthForm hw ∈ lengthRows (hwFin hw) (hwRsv hw) (hwOpc hw) (hwInd hw) ∧
    (∀ sizeW, (decodeLengthForm hw).wellFormed sizeW = true) ∧
    encode (decodeLengthForm hw) = .lengthForm hw := by
  have key : ∀ m i, hwMask hw = m → hwInd hw = i → makeHeader (hwFin hw) (hwRsv hw) (hwOpc hw) m i = hw := by
    rintro _ _ rfl rfl
    exact makeHeader_fields hw
  unfold decodeLengthForm
  by_cases h6 : hwInd hw = 126#7
  · cases hm : hwMask hw <;> simp [h6, lengthRows, Instr.wellFormed, encode, key _ _ hm h6]
  by_cases h7 : hwInd hw = 127#7
  · cases hm : hwMask hw <;> simp [h7, lengthRows, Instr.wellFormed, encode, key _ _ hm h7]
  · have hshort := (shortIndicator_iff _).mpr ⟨h6, h7⟩
    cases hm : hwMask hw <;> simp [h6, h7, lengthRows, Instr.wellFormed, hshort, encode, key _ _ hm rfl]

/-! ### The commands -/

/-- Two bytes placed on the byte lines are read back (30_encoding.md R79). -/
@[simp] theorem firstTwo_twoLines (b : Vector Byte 2) : firstTwo (twoLines b) = b := by
  apply Vector.ext
  intro j hj
  match j, hj with
  | 0, _ => rfl
  | 1, _ => rfl

/-- A 16-bit value placed on the value lines is read back (30_encoding.md R79). -/
@[simp] theorem value16_lines (v : BitVec 16) : (v.setWidth 64).setWidth 16 = v := by
  rw [BitVec.setWidth_setWidth_of_le v (by omega), BitVec.setWidth_eq]

/-- Settles O1, class by class: the opcode rows, the length-form rows, whose condition on the indicator the decoder needs, and
the commands, which are read off their own lines. -/
theorem decodeOfEncodeIsTheInstruction : Obligations.DecodeOfEncodeIsTheInstruction := by
  intro sizeW row hwf
  cases row
  case cont f r m i | text f r m i | bin f r m i | op3 f r m i | op4 f r m i | op5 f r m i | op6 f r m i | op7 f r m i |
      close f r m i | ping f r m i | pong f r m i | op11 f r m i | op12 f r m i | op13 f r m i | op14 f r m i |
      op15 f r m i =>
    exact decode_encode_opcodeRow (f := f) (r := r) (m := m) (i := i) (by simp [opcodeRows, genericRows])
  case len7U f r o i | len7M f r o i =>
    exact decode_encode_lengthRow (f := f) (r := r) (o := o) (i := i) (by simp [lengthRows]) hwf
  case len16U f r o | len16M f r o | len64U f r o | len64M f r o =>
    exact decode_encode_lengthRow (f := f) (r := r) (o := o) (i := 0#7) (by simp [lengthRows]) hwf
  case swap16 | rdu16 | rdi16 => simp only [encode, decode, decodeCommand, firstTwo_twoLines]
  case wru16 | wri16 => simp only [encode, decode, decodeCommand, value16_lines]
  all_goals rfl

/-- Settles O2: the rows that the word decodes to, with its own fields. -/
theorem everyHeaderWordIsOneRowOfEachClass : Obligations.EveryHeaderWordIsOneRowOfEachClass := by
  intro sizeW hw
  have hmem := decodeOpcode_mem hw
  obtain ⟨hlmem, hlwf, hlenc⟩ := decodeLengthForm_cases hw
  exact ⟨⟨_, _, _, _, _, rfl, hmem, opcodeRow_wellFormed hmem sizeW, encode_decodeOpcode hw⟩,
    ⟨_, _, _, _, _, rfl, hlmem, hlwf sizeW, hlenc⟩⟩

/-- Settles O3: each word is the word of its row, or of its command. -/
theorem writtenOutWordsDecode : Obligations.WrittenOutWordsDecode :=
  ⟨rfl, rfl, rfl, rfl, rfl, rfl, rfl, rfl, rfl⟩

end Sys2Proof
end

section
/-! PROOFS. What a presented command does, and the rows of a header at the end of HDR, of an extended length and of an unmasked
payload: whole next states. -/

namespace Sys2Proof.Machine

/-! ### The command port -/

/-- A presented command is run at the state in which the move is off the script (30_encoding.md R78, R80). -/
theorem step_command {s : State} {code : BitVec 4} {a : Args} {hs : List HostMove} (hh : s.host = .command code a :: hs) :
    step s = runWord (.command code a) { s with host := hs } := by
  simp only [step, advance, hh]

/-- While an operation runs no command has an effect (30_encoding.md R80). -/
theorem issue_running {s : State} (hr : s.phase.running = true) (start : State → Outcome) : issue s start = .next s :=
  if_pos hr

theorem issueWindow_running {s : State} (hr : s.phase.running = true) (w : Window) (start : State → Outcome) :
    issueWindow w s start = .next s :=
  issue_running hr _

theorem windowCommands_running {s : State} (hr : s.phase.running = true) {a : Args} {i : Instr}
    (hi : i ∈ windowCommands a) : exec i s = .next s := by
  simp only [windowCommands, List.mem_cons, List.not_mem_nil, or_false] at hi
  rcases hi with rfl | rfl | rfl | rfl
  · simp only [exec, execDecode, issueWindow_running hr]
  · simp only [exec, execToggleMask, issueWindow_running hr]
  · simp only [exec, execEncode, issueWindow_running hr, ite_self]
  · simp only [exec, execReadExact, issueWindow_running hr]

/-- A command presented while an operation runs has no effect, whatever its code (30_encoding.md R80). -/
theorem runWord_command_running {s : State} (hr : s.phase.running = true) (code : BitVec 4) (a : Args) :
    runWord (.command code a) s = .next s := by
  rcases decodeCommand_cases code a with ⟨c, hd⟩ | ⟨i, hd, -, hi⟩ | ⟨i, hd, hi⟩ <;> simp only [runWord, decode, hd]
  · exact windowCommands_running hr hi
  · obtain ⟨b, e⟩ := byteOrderCommands_exec hi s
    exact e.trans (issue_running hr _)

/-- Settles O4: a running operation, the two codes without an operation, and ENCODE without the encoder. -/
theorem commandsNotAcceptedHaveNoEffect : Obligations.CommandsNotAcceptedHaveNoEffect := by
  intro s code a hs hh hcase
  rw [step_command hh]
  rcases hcase with hr | rfl | rfl | ⟨rfl, henc⟩
  · exact runWord_command_running (s := { s with host := hs }) hr code a
  · rfl
  · rfl
  · show execEncode _ _ _ _ _ = _
    rw [execEncode, if_neg (by simp [henc])]

/-- Settles O10: the word of the command is run, and it decodes to the instruction. -/
theorem stepRunsThePresentedCommand : Obligations.StepRunsThePresentedCommand := by
  intro s code a hs i hh hd
  rw [step_command hh, runWord, hd]

/-- Settles O40: the one case of DECODE in which no operation runs and the window is one. -/
theorem decodeStartsWithTheHeader : Obligations.DecodeStartsWithTheHeader := by
  intro s w hr hv
  rcases decode_cases w s with ⟨hr', -⟩ | ⟨-, hv', -⟩ | ⟨-, -, e⟩
  · exact absurd (hr.symm.trans hr') Bool.false_ne_true
  · exact absurd (hv'.symm.trans hv) Bool.false_ne_true
  · exact e

/-! ### TOGGLE_MASK -/

/-- Each of the first `n` bytes of the window is combined with the key byte of its index (42_toggle_mask.md R121). -/
theorem toggleMask_read_masked (k : Key) (w : Window) {m : Memory} (hm : m.wf = true) {n i : Nat} (hn : n ≤ w.cap)
    (hi : i < n) : winRead w (toggleMask k w m n) i = winRead w m i ^^^ keyByte k i := by
  induction n with
  | zero => exact absurd hi (Nat.not_lt_zero i)
  | succ n ih =>
    rcases Nat.lt_succ_iff_lt_or_eq.mp hi with hlt | rfl
    · exact (winRead_winWrite_ne w _ _ (Nat.ne_of_lt hlt)).trans (ih (by omega) hlt)
    · have hbefore : winRead w (toggleMask k w m i) i = winRead w m i := toggleMask_read_frame k w m i (by omega)
      rw [← hbefore]
      exact winRead_winWrite_self w _ i _ (toggleMask_wf k w m i hm) hn

/-- Settles O41: the one case of TOGGLE_MASK in which it is accepted with a key of four bytes. -/
theorem toggleMaskMasksTheWholeWindow : Obligations.ToggleMaskMasksTheWholeWindow := by
  intro s klen k w hr hv hk hm
  rcases toggleMask_cases klen k w s with ⟨hr', -⟩ | ⟨-, hv', -⟩ | ⟨-, -, hk', -⟩ | ⟨-, -, -, e⟩
  · exact absurd (hr.symm.trans hr') Bool.false_ne_true
  · exact absurd (hv'.symm.trans hv) Bool.false_ne_true
  · exact absurd hk hk'
  · exact ⟨_, e, rfl, fun i hi => toggleMask_read_masked k w hm (Nat.le_refl _) hi,
      fun a ha => toggleMask_read_frame k w s.pbuf w.cap ha⟩

/-! ### The length is known -/

section
variable {s : State} {n : Nat} (hmax : n ≤ s.maxLen.toNat)
include hmax

/-- A length within MAX_LEN is a number of 64 bits (10_state.md R22). -/
theorem toNat_ofNat_of_le_maxLen : (BitVec.ofNat 64 n).toNat = n := by
  rw [BitVec.toNat_ofNat]
  exact Nat.mod_eq_of_lt (Nat.lt_of_le_of_lt hmax s.maxLen.isLt)

/-- A masked form with a length within MAX_LEN goes on to read the four key bytes (41_frame_decoder.md R95, R97). -/
theorem lengthKnown_masked : lengthKnown true (BitVec.ofNat 64 n) s = .next { s with
    phase := .keyrd, work := { s.work with len := some (BitVec.ofNat 64 n), need := some 4, cnt := some 0 } } := by
  have hl := toNat_ofNat_of_le_maxLen hmax
  rcases lengthKnown_cases true (BitVec.ofNat 64 n) s with ⟨hlt, -⟩ | ⟨-, -, e⟩ | ⟨-, hm, -⟩
  · omega
  · exact e
  · cases hm

/-- An unmasked form with a length within MAX_LEN and the window goes on to read the payload (41_frame_decoder.md R95, R98,
R99). -/
theorem lengthKnown_unmasked {w : Window} (hw : s.win = some w) (hcap : n ≤ w.cap) :
    lengthKnown false (BitVec.ofNat 64 n) s = .next { s with
      phase := .payload, work := { s.work with len := some (BitVec.ofNat 64 n),
                                               need := if n = 0 then s.work.need else some n,
                                               cnt := if n = 0 then s.work.cnt else some 0 } } := by
  have hl := toNat_ofNat_of_le_maxLen hmax
  rcases lengthKnown_cases false (BitVec.ofNat 64 n) s with ⟨hlt, -⟩ | ⟨-, hm, -⟩ | ⟨-, -, e⟩
  · omega
  · cases hm
  · have hsome : someWindow (withLen s (BitVec.ofNat 64 n)) = w := someWindow_of hw
    rcases startPayload_cases (withLen s (BitVec.ofNat 64 n)) with ⟨hnone, -⟩ | ⟨l, hlen, hlt, -⟩ | ⟨l, hlen, -, e'⟩
    · cases hnone
    · cases hlen
      rw [hsome] at hlt
      omega
    · cases hlen
      rw [e, e', hl]
      rfl

end

/-- A 7-bit form knows its length at the end of HDR, with the fields extracted (30_encoding.md R65). -/
theorem length7Row_hdr {s : State} (hp : s.phase = .hdr) (masked f : Bool) (o : BitVec 4) (i : BitVec 7) :
    length7Row masked f o i s = lengthKnown masked (BitVec.ofNat 64 i.toNat) (extractFields f o masked i s) := by
  simp only [length7Row, hp, BitVec.ofNat_toNat]

/-- Settles O20: the 7-bit rows know their length at the end of HDR. -/
theorem shortHeadersGiveTheLength : Obligations.ShortHeadersGiveTheLength := by
  intro s f r o i hp hmax
  exact ⟨fun w hw hcap => (length7Row_hdr hp false f o i).trans
      (lengthKnown_unmasked (s := extractFields f o false i s) hmax hw hcap),
    (length7Row_hdr hp true f o i).trans (lengthKnown_masked (s := extractFields f o true i s) hmax)⟩

/-- The 16-bit value of two bytes in the 64 bits of `LEN` (30_encoding.md R65). -/
theorem be16_setWidth (b0 b1 : Byte) : (be16 b0 b1).setWidth 64 = BitVec.ofNat 64 (256 * b0.toNat + b1.toNat) := by
  have h0 := b0.isLt
  have h1 := b1.isLt
  apply BitVec.eq_of_toNat_eq
  rw [be16, BitVec.toNat_setWidth, BitVec.toNat_ofNat, BitVec.toNat_ofNat, Nat.mod_eq_of_lt (by omega : _ < 2 ^ 16)]

/-- A 16-bit form knows its length at the end of EXT16 (30_encoding.md R65). -/
theorem length16Row_ext16 {s : State} {b0 b1 : Byte} (hp : s.phase = .ext16) (h0 : s.work.xb[0] = some b0)
    (h1 : s.work.xb[1] = some b1) (masked f : Bool) (o : BitVec 4) :
    length16Row masked f o s = lengthKnown masked (BitVec.ofNat 64 (256 * b0.toNat + b1.toNat)) s := by
  simp only [length16Row, hp, ext16Value, h0, h1, withValue_some, be16_setWidth]

/-- Settles O22: the 16-bit rows know their length at the end of EXT16. -/
theorem sixteenBitLengthIsAssembled : Obligations.SixteenBitLengthIsAssembled := by
  intro s f r o w b0 b1 hp hw h0 h1 hmax
  exact ⟨(length16Row_ext16 hp h0 h1 true f o).trans (lengthKnown_masked hmax),
    fun hcap => (length16Row_ext16 hp h0 h1 false f o).trans (lengthKnown_unmasked hmax hw hcap)⟩

/-- A file of eight bytes that all hold a value gives the 64-bit length (30_encoding.md R65). -/
theorem ext64Value_map (b : Vector Byte 8) : ext64Value (b.map some) = some (be64 b) := by
  simp only [ext64Value, Vector.getElem_map]
  rfl

/-- The 64-bit value of eight bytes is the sum of each byte times its weight (30_encoding.md R65; 45_byte_order.md R171). -/
theorem be64_eq_sum (b : Vector Byte 8) : be64 b = BitVec.ofNat 64 (∑ j : Fin 8, (b[j]).toNat * 256 ^ (7 - j.val)) := by
  simp [be64, be64Nat, Fin.sum_univ_eight]

/-- A 64-bit form whose extended length is `n` knows it at the end of EXT64 (30_encoding.md R65). -/
theorem length64Row_ext64 {s : State} {n : Nat} (hp : s.phase = .ext64)
    (hx : ext64Value s.work.xb = some (BitVec.ofNat 64 n)) (masked f : Bool) (o : BitVec 4) :
    length64Row masked f o s = lengthKnown masked (BitVec.ofNat 64 n) s := by
  simp only [length64Row, hp, hx, withValue_some]

/-- Settles O23: the 64-bit rows know their length at the end of EXT64. -/
theorem sixtyFourBitLengthIsAssembled : Obligations.SixtyFourBitLengthIsAssembled := by
  intro s f r o w b hp hw hxb
  have hx : ext64Value s.work.xb = some (BitVec.ofNat 64 (∑ j : Fin 8, (b[j]).toNat * 256 ^ (7 - j.val))) := by
    rw [hxb, ext64Value_map, be64_eq_sum]
  dsimp only
  generalize (∑ j : Fin 8, (b[j]).toNat * 256 ^ (7 - j.val)) = n at hx ⊢
  exact fun hmax => ⟨(length64Row_ext64 hp hx true f o).trans (lengthKnown_masked hmax),
    fun hcap => (length64Row_ext64 hp hx false f o).trans (lengthKnown_unmasked hmax hw hcap)⟩

/-! ### The end of an unmasked frame -/

/-- Settles O29: the fifteen rows have one course, which reports the three registers and no metadata. -/
theorem genericRowsReportTheUnmaskedFrame : Obligations.GenericRowsReportTheUnmaskedFrame := by
  intro s f r m i row fin opc l hrow hp hmask hfin hopc hlen
  have hend : exec row s = frameDone noCloseMeta s := by
    rw [genericRows_exec hrow]
    simp only [opcodeRow, hp, hmask, withValue_some, payloadDone, Bool.false_eq_true, if_false]
  rw [hend, frameDone, hfin, hopc, hlen]
  rfl

end Sys2Proof.Machine
end

section
/-! PROOFS. The reserved bits of the header change nothing: a header in HB with the same FIN, OPC, MASK and IND is fetched in the
same place and run as the same rows, and no row reads or writes HB. -/

namespace Sys2Proof.Machine

/-! ### What is fetched -/

@[simp] theorem withHeader_phase (hw : HeaderWord) (s : State) : (withHeader hw s).phase = s.phase := rfl

/-- The block moves with another header in HB as it moves without (log 10). -/
theorem BlockMoves.withHeader {s u : State} (h : BlockMoves s u) (hw : HeaderWord) :
    BlockMoves (withHeader hw s) (withHeader hw u) := by
  rcases h with ⟨h, rfl⟩ | ⟨hs, h, rfl⟩ | ⟨hs, h, hr, rfl⟩
  · exact .inl ⟨h, rfl⟩
  · exact .inr (.inl ⟨hs, h, rfl⟩)
  · exact .inr (.inr ⟨hs, h, hr, rfl⟩)

theorem fetchLengthForm_withHeader (hw : HeaderWord) (s : State) :
    fetchLengthForm (withHeader hw s) = .word (.lengthForm hw) := by
  simp only [fetchLengthForm, withHeader, headerBytes_placed]

theorem fetchOpcode_withHeader (hw : HeaderWord) (s : State) : fetchOpcode (withHeader hw s) = .word (.opcode hw) := by
  simp only [fetchOpcode, withHeader, headerBytes_placed]

/-- Where a word is fetched in a phase that reads, the read is complete, and whatever follows it is fetched, with any header
in HB. -/
theorem fetchReading_withHeader {s : State} {next : Fetch} {f : FetchWord} (h : fetchReading s next = .word f)
    (hw : HeaderWord) (next' : Fetch) : fetchReading (withHeader hw s) next' = next' := by
  have e : fetchReading (withHeader hw s) next' = fetchReading s next' := rfl
  rw [e]
  unfold fetchReading at h ⊢
  cases hn : s.work.need <;> cases hc : s.work.cnt <;> simp only [hn, hc] at h ⊢
  case some.some n c =>
    split at h
    · cases h
    · next hge => exact if_neg hge
  all_goals cases h

/-- A header fetched as its length-form row stands at the end of a phase that reads the header. -/
theorem heading_of_fetch_lengthForm {s : State} {hw : HeaderWord} (h : fetch s = .word (.lengthForm hw)) :
    s.phase.heading = true := by
  rcases fetch_cases s with ⟨-, e⟩ | ⟨r, e⟩ | ⟨_, _, -, -, -, -, e⟩ | ⟨_, _, -, -, -, -, e⟩ |
    ⟨_, _, _, hp, -⟩ | ⟨_, -, -, e⟩
  case inr.inr.inr.inr.inl => exact hp
  all_goals cases e.symm.trans h

/-- A header fetched as its opcode row stands at the end of the payload read, in UNMASK or in CLOSEMETA. -/
theorem phase_of_fetch_opcode {s : State} {hw : HeaderWord} (h : fetch s = .word (.opcode hw)) :
    s.phase = .payload ∨ s.phase = .unmask ∨ s.phase = .closemeta := by
  rcases fetch_cases s with ⟨-, e⟩ | ⟨r, e⟩ | ⟨_, _, -, -, -, -, e⟩ | ⟨_, _, -, -, -, -, e⟩ |
    ⟨_, _, _, -, -, -, -, -, e⟩ | ⟨_, hp, -⟩
  case inr.inr.inr.inr.inr => exact hp
  all_goals cases e.symm.trans h

theorem fetch_withHeader_lengthForm {s : State} {hw : HeaderWord} (h : fetch s = .word (.lengthForm hw))
    (hw' : HeaderWord) : fetch (withHeader hw' s) = .word (.lengthForm hw') := by
  have hphase := heading_of_fetch_lengthForm h
  cases hp : s.phase <;> simp only [hp, Phase.heading, Bool.false_eq_true] at hphase
  all_goals
    simp only [fetch, hp] at h
    simp only [fetch, withHeader_phase, hp, fetchReading_withHeader h, fetchLengthForm_withHeader]

theorem fetch_withHeader_opcode {s : State} {hw : HeaderWord} (h : fetch s = .word (.opcode hw)) (hw' : HeaderWord) :
    fetch (withHeader hw' s) = .word (.opcode hw') := by
  rcases phase_of_fetch_opcode h with hp | hp | hp
  case inl =>
    simp only [fetch, hp] at h
    simp only [fetch, withHeader_phase, hp, fetchReading_withHeader h, fetchOpcode_withHeader]
  all_goals simp only [fetch, withHeader_phase, hp, fetchOpcode_withHeader]

/-! ### What is run -/

/-- Where `o` answers a next state, `o'` answers the same one, or the one with `hw` in HB. -/
def AnswersAlike (hw : HeaderWord) (o o' : Outcome) : Prop :=
  ∀ t, o = .next t → ∃ t', o' = .next t' ∧ (t' = t ∨ t' = withHeader hw t)

section
variable (hw : HeaderWord) (s : State)

/-- An operation that ends clears HB: the two next states are one. -/
theorem answersAlike_same (t : State) : AnswersAlike hw (.next t) (.next t) := by
  rintro _ ⟨⟩
  exact ⟨t, rfl, .inl rfl⟩

/-- An operation that goes on holds HB. -/
theorem answersAlike_held (t : State) : AnswersAlike hw (.next t) (.next (withHeader hw t)) := by
  rintro _ ⟨⟩
  exact ⟨_, rfl, .inr rfl⟩

theorem answersAlike_fault (f : Fault) (o : Outcome) : AnswersAlike hw (.fault f) o := by
  rintro _ ⟨⟩

theorem answersAlike_refused (r : Refusal) (o : Outcome) : AnswersAlike hw (.refused r) o := by
  rintro _ ⟨⟩

/-- A register other than HB is read alike. -/
theorem withValue_alike {α : Type} (r : Reg) (v : Option α) {k k' : α → Outcome}
    (h : ∀ x, AnswersAlike hw (k x) (k' x)) : AnswersAlike hw (withValue r v k) (withValue r v k') := by
  cases v with
  | none => exact answersAlike_fault hw _ _
  | some x => exact h x

theorem startPayload_alike : AnswersAlike hw (startPayload s) (startPayload (withHeader hw s)) := by
  refine withValue_alike hw .len s.work.len fun l => ?_
  show AnswersAlike hw (if (someWindow s).cap < l.toNat then _ else _) (if (someWindow s).cap < l.toNat then _ else _)
  split
  · exact answersAlike_same hw _
  · exact answersAlike_held hw _

theorem lengthKnown_alike (masked : Bool) (l : Len) :
    AnswersAlike hw (lengthKnown masked l s) (lengthKnown masked l (withHeader hw s)) := by
  show AnswersAlike hw (if s.maxLen.toNat < l.toNat then _ else _) (if s.maxLen.toNat < l.toNat then _ else _)
  split
  · exact answersAlike_same hw _
  · split
    · exact answersAlike_held hw _
    · exact startPayload_alike hw (withLen s l)

theorem keyKnown_alike (masked : Bool) : AnswersAlike hw (keyKnown masked s) (keyKnown masked (withHeader hw s)) := by
  cases masked with
  | false => exact answersAlike_refused hw _ _
  | true => exact startPayload_alike hw s

variable (masked f : Bool) (o : BitVec 4) (i : BitVec 7)

theorem length7Row_alike : AnswersAlike hw (length7Row masked f o i s) (length7Row masked f o i (withHeader hw s)) := by
  cases hp : s.phase <;> simp only [length7Row, withHeader_phase, hp]
  case hdr => exact lengthKnown_alike hw (extractFields f o masked i s) masked _
  case keyrd => exact keyKnown_alike hw s masked
  all_goals exact answersAlike_refused hw _ _

theorem length16Row_alike : AnswersAlike hw (length16Row masked f o s) (length16Row masked f o (withHeader hw s)) := by
  cases hp : s.phase <;> simp only [length16Row, withHeader_phase, hp]
  case hdr => exact answersAlike_held hw _
  case ext16 => exact withValue_alike hw .xb _ fun v => lengthKnown_alike hw s masked _
  case keyrd => exact keyKnown_alike hw s masked
  all_goals exact answersAlike_refused hw _ _

theorem length64Row_alike : AnswersAlike hw (length64Row masked f o s) (length64Row masked f o (withHeader hw s)) := by
  cases hp : s.phase <;> simp only [length64Row, withHeader_phase, hp]
  case hdr => exact answersAlike_held hw _
  case ext64 => exact withValue_alike hw .xb _ fun v => lengthKnown_alike hw s masked _
  case keyrd => exact keyKnown_alike hw s masked
  all_goals exact answersAlike_refused hw _ _

theorem frameDone_alike (c : CloseMeta) : AnswersAlike hw (frameDone c s) (frameDone c (withHeader hw s)) :=
  withValue_alike hw .fin s.work.fin fun _ => withValue_alike hw .opc s.work.opc fun _ =>
    withValue_alike hw .len s.work.len fun _ => answersAlike_same hw _

variable (isClose : Bool)

theorem payloadDone_alike : AnswersAlike hw (payloadDone isClose s) (payloadDone isClose (withHeader hw s)) := by
  cases isClose with
  | false => exact frameDone_alike hw s noCloseMeta
  | true => exact answersAlike_held hw _

theorem unmaskPayload_alike : AnswersAlike hw (unmaskPayload isClose s) (unmaskPayload isClose (withHeader hw s)) :=
  withValue_alike hw .key (keyBytes s.key) fun k => withValue_alike hw .len s.work.len fun l =>
    payloadDone_alike hw { s with pbuf := toggleMask k (someWindow s) s.pbuf l.toNat } isClose

theorem closeMetaStep_alike : AnswersAlike hw (closeMetaStep s) (closeMetaStep (withHeader hw s)) :=
  withValue_alike hw .len s.work.len fun _ => frameDone_alike hw s _

theorem opcodeRow_alike : AnswersAlike hw (opcodeRow isClose s) (opcodeRow isClose (withHeader hw s)) := by
  cases hp : s.phase <;> simp only [opcodeRow, withHeader_phase, hp]
  case payload =>
    refine withValue_alike hw .mask s.work.mask fun m => ?_
    split
    · exact answersAlike_held hw _
    · exact payloadDone_alike hw s isClose
  case unmask => exact unmaskPayload_alike hw s isClose
  case closemeta =>
    split
    · exact closeMetaStep_alike hw s
    · exact answersAlike_refused hw _ _
  all_goals exact answersAlike_refused hw _ _

end

/-! ### The step -/

/-- The two headers agree in every field but the reserved bits (30_encoding.md R61, R62, R66). -/
def SameFields (hw hw' : HeaderWord) : Prop :=
  hwFin hw' = hwFin hw ∧ hwOpc hw' = hwOpc hw ∧ hwMask hw' = hwMask hw ∧ hwInd hw' = hwInd hw

/-- A length-form row is run alike whatever the reserved bits of its word are (30_encoding.md R66). -/
theorem lengthForm_alike {hw hw' : HeaderWord} (h : SameFields hw hw') (s : State) :
    AnswersAlike hw' (exec (decodeLengthForm hw) s) (exec (decodeLengthForm hw') (withHeader hw' s)) := by
  obtain ⟨hfin, hopc, hmask, hind⟩ := h
  rw [exec_decodeLengthForm, exec_decodeLengthForm, hfin, hopc, hmask, hind]
  split
  · exact length16Row_alike hw' s _ _ _
  · split
    · exact length64Row_alike hw' s _ _ _
    · exact length7Row_alike hw' s _ _ _ _

/-- A step of the block that runs a row of the header is alike whatever the reserved bits in HB are (30_encoding.md R66). -/
theorem blockStep_alike {s : State} {hw hw' : HeaderWord} (h : SameFields hw hw')
    (hf : fetch s = .word (.lengthForm hw) ∨ fetch s = .word (.opcode hw)) :
    AnswersAlike hw' (blockStep s) (blockStep (withHeader hw' s)) := by
  rcases hf with hf | hf
  · rw [blockStep_lengthForm hf, blockStep_lengthForm (fetch_withHeader_lengthForm hf hw')]
    exact lengthForm_alike h s
  · obtain ⟨-, hopc, -, -⟩ := h
    rw [blockStep_opcode hf, blockStep_opcode (fetch_withHeader_opcode hf hw'), hopc]
    exact opcodeRow_alike hw' s _

/-- Settles O28: the step runs the same rows on two machines of which no row reads the difference. -/
theorem reservedBitsChangeNothing : Obligations.ReservedBitsChangeNothing := by
  intro s u t hw hw' hmoves hf hfin hopc hmask hind hstep
  obtain ⟨hs, rfl, e⟩ := hmoves.step_eq
  obtain ⟨_, -, e'⟩ := (hmoves.withHeader hw').step_eq
  rw [e']
  exact blockStep_alike (s := { s with host := hs }) ⟨hfin, hopc, hmask, hind⟩ hf t (e.symm.trans hstep)

end Sys2Proof.Machine
end

section
/-! PROOFS. The frame decoder row by row (41_frame_decoder.md): which row a step runs, how the length-form rows go on or fault,
and how the opcode rows unmask the payload and report a CLOSE. -/

namespace Sys2Proof.Machine

/-! ### The row of the header -/

/-- Where the read of a header's part is complete, the step is its length-form row (41_frame_decoder.md R106). -/
theorem BlockMoves.step_lengthForm {s t : State} (h : BlockMoves s t) {n : Nat} {hw : HeaderWord}
    (hr : s.phase.heading = true) (hn : s.work.need = some n) (hc : s.work.cnt = some n)
    (hb : headerBytes s.work.hb = some hw) : step s = exec (decodeLengthForm hw) t := by
  obtain ⟨hs, rfl, e⟩ := h.step_eq
  exact e.trans (blockStep_lengthForm (fetch_lengthForm (s := { s with host := hs }) hr hn hc hb))

/-- Where the read of the payload is complete, the step is the header's opcode row (41_frame_decoder.md R106). -/
theorem BlockMoves.step_payload {s t : State} (h : BlockMoves s t) {n : Nat} {hw : HeaderWord} (hp : s.phase = .payload)
    (hn : s.work.need = some n) (hc : s.work.cnt = some n) (hb : headerBytes s.work.hb = some hw) :
    step s = opcodeRow (decide (hwOpc hw = 8#4)) t := by
  obtain ⟨hs, rfl, e⟩ := h.step_eq
  exact e.trans (blockStep_opcode (fetch_payload (s := { s with host := hs }) hp hn hc hb))

/-- In UNMASK and CLOSEMETA the step is the header's opcode row (41_frame_decoder.md R106). -/
theorem BlockMoves.step_opcode {s t : State} (h : BlockMoves s t) {hw : HeaderWord}
    (hp : s.phase = .unmask ∨ s.phase = .closemeta) (hb : headerBytes s.work.hb = some hw) :
    step s = opcodeRow (decide (hwOpc hw = 8#4)) t := by
  obtain ⟨hs, rfl, e⟩ := h.step_eq
  exact e.trans (blockStep_opcode (fetch_opcode (s := { s with host := hs }) hp hb))

/-- Settles O11: in each phase the word that is fetched is the header's, and it decodes to the row. -/
theorem stepRunsTheRowOfTheHeader : Obligations.StepRunsTheRowOfTheHeader := by
  intro s t hw row hmoves hb
  have hopcode (hd : decode (.opcode hw) = .ok row) : exec row t = opcodeRow (decide (hwOpc hw = 8#4)) t := by
    cases hd
    exact exec_decodeOpcode hw t
  refine ⟨fun hp ⟨n, hn, hc⟩ hd => ?_, fun hp ⟨n, hn, hc⟩ hd => ?_, fun hp hd => ?_⟩
  · have hr : s.phase.heading = true := by rcases hp with hp | hp | hp | hp <;> rw [hp] <;> rfl
    cases hd
    exact hmoves.step_lengthForm hr hn hc hb
  · rw [hopcode hd]
    exact hmoves.step_payload hp hn hc hb
  · rw [hopcode hd]
    exact hmoves.step_opcode hp hb

/-! ### Length-form rows -/

/-- Settles O21: the rows of one form have one course, and a read of some bytes begins at `CNT = 0`. -/
theorem longHeadersStartTheExtendedLength : Obligations.LongHeadersStartTheExtendedLength := by
  intro s f r o masked hp
  have h16 : exec (if masked then .len16M f r o else .len16U f r o) s = length16Row masked f o s := by
    cases masked <;> rfl
  have h64 : exec (if masked then .len64M f r o else .len64U f r o) s = length64Row masked f o s := by
    cases masked <;> rfl
  rw [h16, h64]
  constructor
  · simp only [length16Row, hp]
    rfl
  · simp only [length64Row, hp]
    rfl

section
variable {s : State} {l : Len} {w : Window}

/-- A window large enough for `LEN` begins the payload read (41_frame_decoder.md R98, R99). -/
theorem startPayload_fits (hl : s.work.len = some l) (hw : s.win = some w) (hcap : l.toNat ≤ w.cap) :
    startPayload s = .next (startRead .payload l.toNat s) := by
  simp only [startPayload, hl, withValue_some, someWindow_of hw, Nat.not_lt.mpr hcap, if_false]

/-- A window smaller than `LEN` is a fault (41_frame_decoder.md R98; 60_exceptions.md R192). -/
theorem startPayload_tooSmall (hl : s.work.len = some l) (hw : s.win = some w) (hcap : w.cap < l.toNat) :
    startPayload s = .next (raised .bufferTooSmall s) := by
  simp only [startPayload, hl, withValue_some, someWindow_of hw, hcap, if_true, raiseErr]

/-- At the end of KEYRD the masked rows go on to the window check (41_frame_decoder.md R97, R98). -/
theorem maskedRows_keyrd {f : Bool} {r : BitVec 3} {o : BitVec 4} {i : BitVec 7} {row : Instr}
    (hrow : row ∈ [Instr.len7M f r o i, .len16M f r o, .len64M f r o]) (hp : s.phase = .keyrd) :
    exec row s = startPayload s := by
  simp only [List.mem_cons, List.not_mem_nil, or_false] at hrow
  rcases hrow with rfl | rfl | rfl
  · simp only [exec, execLen7M, length7Row, hp, keyKnown, if_true]
  · simp only [exec, execLen16M, length16Row, hp, keyKnown, if_true]
  · simp only [exec, execLen64M, length64Row, hp, keyKnown, if_true]

/-- A length above MAX_LEN is a fault, whatever the working registers hold (41_frame_decoder.md R95; 60_exceptions.md R191). -/
theorem lengthKnown_aboveMax (masked : Bool) (work : Working) (hmax : s.maxLen.toNat < l.toNat) :
    lengthKnown masked l { s with work := work } = .next (raised .lengthOutOfRange s) := by
  simp only [lengthKnown, hmax, if_true]
  rfl

/-- An unmasked length within MAX_LEN that exceeds the window is a fault, whatever the working registers hold
(41_frame_decoder.md R98; 60_exceptions.md R192). -/
theorem lengthKnown_tooSmall (work : Working) (hmax : l.toNat ≤ s.maxLen.toNat) (hw : s.win = some w)
    (hcap : w.cap < l.toNat) : lengthKnown false l { s with work := work } = .next (raised .bufferTooSmall s) := by
  simp only [lengthKnown, Nat.not_lt.mpr hmax, if_false, Bool.false_eq_true]
  exact startPayload_tooSmall (s := withLen { s with work := work } l) rfl hw hcap

end

/-- Settles O24: the masked rows go on to the window check, which the window passes. -/
theorem keyKnownStartsThePayload : Obligations.KeyKnownStartsThePayload := by
  intro s f r o i w l row hrow hp hw hl hcap
  exact (maskedRows_keyrd hrow hp).trans (startPayload_fits hl hw hcap)

/-- `row` assembles a length of `l`, masked or not, in the phase of `s` (30_encoding.md R65): what follows is decided by the
length alone, with the header's fields in the working registers. -/
def AssemblesLength (s : State) (row : Instr) (masked : Bool) (l : Nat) : Prop :=
  ∃ (x : Len) (work : Working), x.toNat = l ∧ exec row s = lengthKnown masked x { s with work := work }

section
variable {s : State} {f : Bool} {r : BitVec 3} {o : BitVec 4} {i : BitVec 7}

theorem len7_assembles (hp : s.phase = .hdr) (masked : Bool) :
    AssemblesLength s (if masked then .len7M f r o i else .len7U f r o i) masked i.toNat := by
  have e : exec (if masked then .len7M f r o i else .len7U f r o i) s = length7Row masked f o i s := by
    cases masked <;> rfl
  refine ⟨i.setWidth 64, (extractFields f o masked i s).work, BitVec.toNat_setWidth_of_le (by decide), e.trans ?_⟩
  simp only [length7Row, hp]
  rfl

theorem len16_assembles (hp : s.phase = .ext16) {v : BitVec 16} (hv : ext16Value s.work.xb = some v) (masked : Bool) :
    AssemblesLength s (if masked then .len16M f r o else .len16U f r o) masked v.toNat := by
  have e : exec (if masked then .len16M f r o else .len16U f r o) s = length16Row masked f o s := by
    cases masked <;> rfl
  have hrow : length16Row masked f o s = lengthKnown masked (v.setWidth 64) s := by
    simp only [length16Row, hp, hv, withValue_some]
  exact ⟨v.setWidth 64, s.work, BitVec.toNat_setWidth_of_le (by decide), e.trans hrow⟩

theorem len64_assembles (hp : s.phase = .ext64) {v : BitVec 64} (hv : ext64Value s.work.xb = some v) (masked : Bool) :
    AssemblesLength s (if masked then .len64M f r o else .len64U f r o) masked v.toNat := by
  have e : exec (if masked then .len64M f r o else .len64U f r o) s = length64Row masked f o s := by
    cases masked <;> rfl
  have hrow : length64Row masked f o s = lengthKnown masked v s := by
    simp only [length64Row, hp, hv, withValue_some]
  exact ⟨v, s.work, rfl, e.trans hrow⟩

end

theorem AssemblesLength.aboveMax {s : State} {row : Instr} {masked : Bool} {l : Nat} (h : AssemblesLength s row masked l)
    (hmax : s.maxLen.toNat < l) : exec row s = .next (raised .lengthOutOfRange s) := by
  obtain ⟨x, work, rfl, e⟩ := h
  exact e.trans (lengthKnown_aboveMax masked work hmax)

theorem AssemblesLength.tooSmall {s : State} {row : Instr} {l : Nat} (h : AssemblesLength s row false l)
    (hmax : l ≤ s.maxLen.toNat) {w : Window} (hw : s.win = some w) (hcap : w.cap < l) :
    exec row s = .next (raised .bufferTooSmall s) := by
  obtain ⟨x, work, rfl, e⟩ := h
  exact e.trans (lengthKnown_tooSmall work hmax hw hcap)

/-- A row of a form is its masked or its unmasked one. -/
theorem eq_ite_of_mem_pair {row a b : Instr} (h : row ∈ [a, b]) : ∃ masked : Bool, row = if masked then b else a := by
  simp only [List.mem_cons, List.not_mem_nil, or_false] at h
  rcases h with rfl | rfl
  · exact ⟨false, rfl⟩
  · exact ⟨true, rfl⟩

/-- Settles O25: in each of the three phases the row assembles the length, masked or not, and the length is above MAX_LEN. -/
theorem lengthAboveTheCapFaults : Obligations.LengthAboveTheCapFaults := by
  intro s f r o i row l hcase hmax
  have hrow : ∃ masked, AssemblesLength s row masked l := by
    rcases hcase with ⟨hp, hmem, rfl⟩ | ⟨hp, hmem, v, hv, rfl⟩ | ⟨hp, hmem, v, hv, rfl⟩ <;>
      obtain ⟨masked, rfl⟩ := eq_ite_of_mem_pair hmem
    · exact ⟨masked, len7_assembles hp masked⟩
    · exact ⟨masked, len16_assembles hp hv masked⟩
    · exact ⟨masked, len64_assembles hp hv masked⟩
  obtain ⟨masked, h⟩ := hrow
  exact h.aboveMax hmax

/-- Settles O26: the unmasked rows come to the window check with the length they assemble, the masked rows after the key. -/
theorem windowTooSmallFaults : Obligations.WindowTooSmallFaults := by
  intro s f r o i w row l hcase hw hcap
  rcases hcase with ⟨hp, rfl, rfl, hmax⟩ | ⟨hp, rfl, hmax, v, hv, rfl⟩ | ⟨hp, rfl, hmax, v, hv, rfl⟩ |
    ⟨hp, hrow, v, hv, rfl⟩
  · exact (len7_assembles hp false).tooSmall hmax hw hcap
  · exact (len16_assembles hp hv false).tooSmall hmax hw hcap
  · exact (len64_assembles hp hv false).tooSmall hmax hw hcap
  · exact (maskedRows_keyrd hrow hp).trans (startPayload_tooSmall hv hw hcap)

/-! ### Opcode rows -/

section
variable {s : State} (isClose : Bool)

/-- At the end of the payload read a masked frame goes on to UNMASK (41_frame_decoder.md R100). -/
theorem opcodeRow_payload_masked (hp : s.phase = .payload) (hm : s.work.mask = some true) :
    opcodeRow isClose s = .next { s with phase := .unmask } := by
  simp only [opcodeRow, hp, hm, withValue_some, if_true]

/-- At the end of the payload read the payload of an unmasked frame is complete (41_frame_decoder.md R106). -/
theorem opcodeRow_payload_unmasked (hp : s.phase = .payload) (hm : s.work.mask = some false) :
    opcodeRow isClose s = payloadDone isClose s := by
  simp only [opcodeRow, hp, hm, withValue_some, Bool.false_eq_true, if_false]

/-- In UNMASK the mask procedure runs over the first `LEN` bytes of the window (41_frame_decoder.md R100). -/
theorem opcodeRow_unmask {w : Window} {k : Key} {l : Len} (hp : s.phase = .unmask) (hw : s.win = some w)
    (hk : keyBytes s.key = some k) (hl : s.work.len = some l) :
    opcodeRow isClose s = payloadDone isClose { s with pbuf := toggleMask k w s.pbuf l.toNat } := by
  simp only [opcodeRow, hp, unmaskPayload, hk, hl, withValue_some, someWindow_of hw]

/-- The end of a frame whose registers hold a value reports them (41_frame_decoder.md R105). -/
theorem frameDone_eq {f : Bool} {o : BitVec 4} {l : Len} (c : CloseMeta) (hf : s.work.fin = some f)
    (ho : s.work.opc = some o) (hl : s.work.len = some l) :
    frameDone c s = .next (finished (frameResults c f o l) s) := by
  simp only [frameDone, hf, ho, hl, withValue_some, finish_eq, frameResults]

end

/-- Settles O30: the two courses at the end of the payload read, of all rows and of CLOSE. -/
theorem payloadGoesOnToUnmaskOrCloseMeta : Obligations.PayloadGoesOnToUnmaskOrCloseMeta := by
  intro s f r m i hp
  exact ⟨fun row hrow hm => (opcodeRows_exec hrow s).trans (opcodeRow_payload_masked _ hp hm),
    fun hm => opcodeRow_payload_unmasked true hp hm⟩

/-- A key file in which each byte of the key holds a value gives the key. -/
theorem keyBytes_map (k : Key) : keyBytes (k.map some) = some k := by
  rw [← keyFileOf_eq_map, keyBytes_keyFileOf]

/-- Settles O31: the row runs the mask procedure, which masks the first `LEN` bytes of the window, and then CLOSE goes on and
every other row reports the frame. -/
theorem unmaskAppliesTheKeyToThePayload : Obligations.UnmaskAppliesTheKeyToThePayload := by
  intro s f r m i row fin opc l w k hrow hp hw hf ho hl hcap hkey hwf
  have hmasked : ∀ j, j < l.toNat → Memory.read (toggleMask k w s.pbuf l.toNat) (w.base + j) =
      Memory.read s.pbuf (w.base + j) ^^^ keyByte k j := fun j => toggleMask_read_masked k w hwf hcap
  have hframe : ∀ a, (a < w.base ∨ w.base + l.toNat ≤ a) →
      Memory.read (toggleMask k w s.pbuf l.toNat) a = Memory.read s.pbuf a := fun a => toggleMask_read_frame k w s.pbuf _
  have hexec := (opcodeRows_exec hrow s).trans
    (opcodeRow_unmask _ hp hw (by rw [hkey, keyBytes_map]) hl)
  by_cases hclose : row = .close f r m i
  · rw [decide_eq_true hclose] at hexec
    exact ⟨_, hexec, hmasked, hframe, fun _ => rfl, fun hne => absurd hclose hne⟩
  · rw [decide_eq_false hclose] at hexec
    exact ⟨_, hexec.trans (frameDone_eq (s := { s with pbuf := _ }) noCloseMeta hf ho hl), hmasked, hframe,
      fun he => absurd he hclose, fun _ => rfl⟩

/-! ### The metadata of CLOSE -/

/-- The status of a CLOSE payload of `l` bytes in window `w` (41_frame_decoder.md R102). -/
def closeStatus (p : Params) (m : Memory) (w : Window) (l : Len) : StatusCode :=
  if 2 ≤ l.toNat then normaliseStatus p (be16 (winRead w m 0) (winRead w m 1)) else p.noStatus

/-- A CLOSE frame reports its status always, and the extent of the reason where the payload has more than two bytes
(41_frame_decoder.md R102, R103). -/
theorem closeMetaOf_eq (p : Params) (m : Memory) (w : Window) (l : Len) : closeMetaOf p m w l =
    { csV := true, cs := some (closeStatus p m w l), crV := decide (2 < l.toNat),
      crOff := if 2 < l.toNat then some 2 else none, crLen := if 2 < l.toNat then some (l.toNat - 2) else none } := by
  by_cases h2 : 2 ≤ l.toNat
  · by_cases h3 : 2 < l.toNat <;> simp [closeMetaOf, closeStatus, h2, h3]
  · have h3 : ¬ 2 < l.toNat := by omega
    simp [closeMetaOf, closeStatus, h2, h3]

/-- A code whose number is `256*b0 + b1` is the one that the two bytes give (45_byte_order.md R170). -/
theorem eq_be16_of_toNat {code : StatusCode} {b0 b1 : Byte} (h : code.toNat = 256 * b0.toNat + b1.toNat) :
    code = be16 b0 b1 := by
  rw [be16, ← h, BitVec.ofNat_toNat, BitVec.setWidth_eq]

/-- In CLOSEMETA the row of CLOSE reports the metadata of the payload (41_frame_decoder.md R102, R103). -/
theorem opcodeRow_closemeta {s : State} {l : Len} {w : Window} (hp : s.phase = .closemeta) (hw : s.win = some w)
    (hl : s.work.len = some l) : opcodeRow true s = frameDone (closeMetaOf s.params s.pbuf w l) s := by
  simp only [opcodeRow, hp, if_true, closeMetaStep, hl, withValue_some, someWindow_of hw]

/-- Settles O32: the status is that of the two first bytes where there are two, and the report is the row's. -/
theorem closeReportsStatusAndReason : Obligations.CloseReportsStatusAndReason := by
  intro s f r m i fin opc l w hp hw hf ho hl
  refine ⟨closeStatus s.params s.pbuf w l, fun h => if_neg (by omega), fun h2 code hcode => ?_, ?_⟩
  · rw [eq_be16_of_toNat hcode]
    exact if_pos h2
  · refine (opcodeRow_closemeta hp hw hl).trans ((frameDone_eq _ hf ho hl).trans ?_)
    rw [closeMetaOf_eq]
    rfl

end Sys2Proof.Machine
end

section
/-! PROOFS. The frame that ENCODE appends (43_frame_encoder.md R130 to R137): its two header bytes as a header word, its extended
length as the length that the decoder assembles, and its payload, which the decoder's mask procedure gives back. -/

namespace Sys2Proof.Machine

/-! ### The bytes of the header -/

/-- The second byte of a frame: the mask bit and the indicator (30_encoding.md R62). -/
def secondByte (masked : Bool) (i : BitVec 7) : Byte := (if masked then 0x80#8 else 0x00#8) ||| i.setWidth 8

/-- The first two bytes of a frame are the header word of its fields, with no reserved bit set (30_encoding.md R61, R62, R66;
43_frame_encoder.md R131, R132). -/
theorem headerWordOf_firstByte (o : BitVec 4) (f masked : Bool) (i : BitVec 7) :
    headerWordOf (firstByte o f) (secondByte masked i) = makeHeader f 0#3 o masked i := by
  have h80 : ∀ k, k < 8 → (0x80#8 : BitVec 8).getLsbD k = decide (k = 7) := by decide
  have htop (b : Bool) {k : Nat} (hk : k < 8) : (if b then 0x80#8 else 0x00#8 : Byte).getLsbD k = (decide (k = 7) && b) := by
    cases b
    · simp
    · simp [h80 k hk]
  apply BitVec.eq_of_getLsbD_eq
  intro k hk
  rw [headerWordOf_bit, makeHeader_bit]
  by_cases h8 : k < 8
  · simp only [h8, if_true, secondByte, BitVec.getLsbD_or, htop masked h8, BitVec.getLsbD_setWidth]
    grind
  · have h8' : k - 8 < 8 := by omega
    simp only [h8, if_false, firstByte, BitVec.getLsbD_or, htop f h8', BitVec.getLsbD_setWidth, BitVec.getLsbD_zero]
    grind

/-- The extended length of a payload of `n` bytes (43_frame_encoder.md R133). -/
def extendedLength (n : Nat) : List Byte :=
  if n < 126 then [] else if n ≤ 65535 then (writeU16 (BitVec.ofNat 16 n) false).toList
  else (writeU64 (lengthField n) false).toList

/-- The indicator of a payload of `n` bytes (43_frame_encoder.md R132). -/
def indicatorOf (n : Nat) : BitVec 7 := if n < 126 then BitVec.ofNat 7 n else if n ≤ 65535 then 126#7 else 127#7

/-- A header is its two bytes and then the extended length. -/
theorem headerBytesOf_eq (o : BitVec 4) (f masked : Bool) (n : Nat) : headerBytesOf o f masked n =
    (#v[firstByte o f, secondByte masked (indicatorOf n)]).toList ++ extendedLength n := by
  have hshort (hn : n < 126) : BitVec.ofNat 8 n = (BitVec.ofNat 7 n).setWidth 8 := by
    apply BitVec.eq_of_toNat_eq
    simp only [BitVec.toNat_ofNat, BitVec.toNat_setWidth]
    omega
  unfold headerBytesOf lengthBytes extendedLength indicatorOf
  by_cases h7 : n < 126
  · simp only [h7, if_true, secondByte, hshort h7]
    rfl
  · by_cases h16 : n ≤ 65535
    · simp only [h7, h16, if_true, if_false]
      rfl
    · simp only [h7, h16, if_false]
      rfl

theorem headerBytesOf_length (o : BitVec 4) (f masked : Bool) (n : Nat) :
    (headerBytesOf o f masked n).length + (if masked then 4 else 0) = headerLength masked n := by
  rw [headerBytesOf_eq, headerLength, extendedLength]
  by_cases h7 : n < 126
  · simp [h7]
  · by_cases h16 : n ≤ 65535 <;> simp [h7, h16]

/-- The two bytes of a 16-bit value, most significant first, give it back (45_byte_order.md R170, R176). -/
theorem be16_byteAt (v : BitVec 16) : be16 (byteAt v 1) (byteAt v 0) = v := by
  apply BitVec.eq_of_toNat_eq
  have := v.isLt
  simp only [be16, byteAt, BitVec.toNat_ofNat, BitVec.extractLsb'_toNat, Nat.shiftRight_eq_div_pow]
  omega

/-- The eight bytes of a 64-bit value, most significant first, give it back (45_byte_order.md R171, R178). -/
theorem be64_writeU64 (v : BitVec 64) : be64 (writeU64 v false) = v := by
  apply BitVec.eq_of_toNat_eq
  have := v.isLt
  simp only [be64, be64Nat, writeU64, Bool.false_eq_true, if_false, byteAt, Nat.reduceMul, Nat.mul_one, Nat.mul_zero,
    Vector.getElem_mk, List.getElem_toArray, List.getElem_cons_zero, List.getElem_cons_succ, BitVec.extractLsb'_toNat,
    Nat.shiftRight_eq_div_pow, Nat.reducePow, pow_zero, Nat.div_one, BitVec.toNat_ofNat]
  omega

/-! ### The bytes of a frame -/

/-- The key bytes of a frame, none of an unmasked one (43_frame_encoder.md R135). -/
def keyPart : Option Key → List Byte
  | none => []
  | some k => k.toList

/-- The memory with the first `n` bytes of the window masked, where there is a key. -/
def maskedWith (key : Option Key) (w : Window) (m : Memory) (n : Nat) : Memory :=
  match key with
  | none => m
  | some k => toggleMask k w m n

/-- The frame of a payload in the window `w` of the memory `m` (43_frame_encoder.md R130). -/
def wireFrame (o : BitVec 4) (f : Bool) (key : Option Key) (w : Window) (m : Memory) : List Byte :=
  headerBytesOf o f key.isSome w.cap ++ (keyPart key ++ winBytes w (maskedWith key w m w.cap) w.cap)

theorem winBytes_length (w : Window) (m : Memory) (n : Nat) : (winBytes w m n).length = n := by
  rw [winBytes, List.length_map, List.length_range]

theorem wireFrame_length (o : BitVec 4) (f : Bool) (key : Option Key) (w : Window) (m : Memory) :
    (wireFrame o f key w m).length = headerLength key.isSome w.cap + w.cap := by
  have hlen := headerBytesOf_length o f key.isSome w.cap
  cases key with
  | none => simpa [wireFrame, keyPart, winBytes_length] using hlen
  | some k =>
    simp only [Option.isSome_some, if_true] at hlen
    simp only [wireFrame, keyPart, List.length_append, winBytes_length, Vector.length_toList, Option.isSome_some]
    omega

/-- An accepted ENCODE appends a frame, masked exactly for a client, and reports its length (43_frame_encoder.md R130, R137). -/
theorem encode_emits {o : BitVec 4} {f c : Bool} {w : Window} {e t : State} (hr : e.phase.running = false)
    (henc : e.params.hasEncoder = true) (h : exec (.encode o f c w) e = .next t) :
    ∃ key : Option Key, t.out = e.out ++ wireFrame o f key w e.pbuf ∧
      t.res.eWritten = some (writtenCount (wireFrame o f key w e.pbuf).length) := by
  have hclient (k : Key) (s : State) : (encodedClient o f w k s).out = s.out ++ wireFrame o f (some k) w s.pbuf := by
    simp only [encodedClient, finished_out, wireFrame, keyPart, maskedWith, Option.isSome_some, List.append_assoc]
  rcases encode_cases o f c w e with
    ⟨hno, -⟩ | ⟨-, -, -, e'⟩ | ⟨-, -, -, ⟨-, e'⟩ | ⟨-, k, ks, -, e'⟩ | ⟨-, -, e'⟩⟩
  · rw [hr, henc] at hno
    simp at hno
  all_goals cases e'.symm.trans h
  · refine ⟨none, ?_, ?_⟩
    · simp only [encodedServer, finished_out, emit_out, accept_out, accept_pbuf, wireFrame, keyPart, maskedWith,
        Option.isSome_none, List.nil_append, List.append_assoc]
    · rw [wireFrame_length]
      rfl
  · refine ⟨some k, hclient k _, ?_⟩
    rw [wireFrame_length]
    rfl
  · refine ⟨some (Config.freeKey e.draws), hclient _ _, ?_⟩
    rw [wireFrame_length]
    rfl

/-- What is masked, sent and unmasked with the same key is what it was (42_toggle_mask.md R122). -/
theorem winRead_unmasked (key : Option Key) (src dst : Window) {m m' : Memory} (hm : m.wf = true) (hm' : m'.wf = true)
    (hcap : src.cap ≤ dst.cap) {i : Nat} (hi : i < src.cap) :
    winRead dst (maskedWith key dst
      (winWriteAll dst m' 0 (winBytes src (maskedWith key src m src.cap) src.cap)) src.cap) i = winRead src m i := by
  have hsent (x : Memory) : winRead dst (winWriteAll dst m' 0 (winBytes src x src.cap)) i = winRead src x i := by
    have hrun := winWriteAll_read_run dst m' 0 (winBytes src x src.cap) hm' (by rw [winBytes_length]; omega) (j := i)
      (by rwa [winBytes_length])
    simpa only [Nat.zero_add, winBytes, List.getElem_map, List.getElem_range] using hrun
  cases key with
  | none => exact hsent m
  | some k =>
    simp only [maskedWith]
    rw [toggleMask_read_masked k dst (winWriteAll_wf dst m' 0 _ hm') hcap hi, hsent,
      toggleMask_read_masked k src hm (Nat.le_refl _) hi, BitVec.xor_assoc, BitVec.xor_self, BitVec.xor_zero]

end Sys2Proof.Machine
end

section
/-! PROOFS. A DECODE over the frame that ENCODE appends (43_frame_encoder.md R139), in answers of any sizes, phase by phase: the
header, the extended length, the key, the payload, its unmasking and the report of the frame. -/

namespace Sys2Proof.Machine

/-! ### Runs of any length -/

/-- A run of some number of steps leads from `s` to `t`. -/
def Reaches (s t : State) : Prop := ∃ k, runSteps k s = .next t

theorem Reaches.refl (s : State) : Reaches s s := ⟨0, rfl⟩

theorem Reaches.trans {s t u : State} (h : Reaches s t) (h' : Reaches t u) : Reaches s u := by
  obtain ⟨j, hj⟩ := h
  obtain ⟨k, hk⟩ := h'
  exact ⟨j + k, (run_append j k hj).trans hk⟩

theorem reaches_step {s t : State} (h : step s = .next t) : Reaches s t := ⟨1, run_step 0 h⟩

/-! ### Reading on, phase by phase -/

@[simp] theorem readOn_maxLen (c : Nat) (bs : List Byte) (ds : List ReadDraw) (s : State) :
    (readOn c bs ds s).maxLen = s.maxLen := by
  unfold readOn stored; split <;> rfl

/-- The header's reads go into registers: PBUF stays (20_memory.md R46). -/
theorem readOn_pbuf_heading {s : State} (h : s.phase.heading = true) (c : Nat) (bs : List Byte) (ds : List ReadDraw) :
    (readOn c bs ds s).pbuf = s.pbuf := by
  cases hp : s.phase <;> simp only [hp, Phase.heading, Bool.false_eq_true] at h
  all_goals simp only [readOn, stored, counted, delivered, hp]

theorem readOn_work_hdr {s : State} (hp : s.phase = .hdr) (c : Nat) (bs : List Byte) (ds : List ReadDraw) :
    (readOn c bs ds s).work = { s.work with cnt := some (c + bs.length), hb := storeFile s.work.hb c bs } := by
  simp only [readOn, stored, counted, delivered, hp]

theorem readOn_work_ext {s : State} (hp : s.phase = .ext16 ∨ s.phase = .ext64) (c : Nat) (bs : List Byte)
    (ds : List ReadDraw) :
    (readOn c bs ds s).work = { s.work with cnt := some (c + bs.length), xb := storeFile s.work.xb c bs } := by
  rcases hp with hp | hp <;> simp only [readOn, stored, counted, delivered, hp]

theorem readOn_work_counted {s : State} (hp : s.phase = .keyrd ∨ s.phase = .payload) (c : Nat) (bs : List Byte)
    (ds : List ReadDraw) : (readOn c bs ds s).work = { s.work with cnt := some (c + bs.length) } := by
  rcases hp with hp | hp <;> simp only [readOn, stored, counted, delivered, hp]

theorem readOn_key_keyrd {s : State} (hp : s.phase = .keyrd) (c : Nat) (bs : List Byte) (ds : List ReadDraw) :
    (readOn c bs ds s).key = storeFile s.key c bs := by
  simp only [readOn, stored, counted, delivered, hp]

theorem readOn_key_payload {s : State} (hp : s.phase = .payload) (c : Nat) (bs : List Byte) (ds : List ReadDraw) :
    (readOn c bs ds s).key = s.key := by
  simp only [readOn, stored, counted, delivered, hp]

/-- As many bytes as a file has fill it. -/
theorem storeFile_full {d : Nat} (f : Vector (Option Byte) d) (b : Vector Byte d) :
    storeFile f 0 b.toList = b.map some := by
  apply Vector.ext
  intro j hj
  rw [storeFile_getElem, dif_pos (by simpa using hj)]
  simp

/-- Two bytes at the start of XB are the 16-bit extended length (30_encoding.md R65). -/
theorem ext16Value_storeFile (f : Vector (Option Byte) 8) (v : BitVec 16) :
    ext16Value (storeFile f 0 (writeU16 v false).toList) = some v := by
  have h0 : (storeFile f 0 (writeU16 v false).toList)[0] = some (byteAt v 1) := storeFile_getElem f 0 _ 0 (by decide)
  have h1 : (storeFile f 0 (writeU16 v false).toList)[1] = some (byteAt v 0) := storeFile_getElem f 0 _ 1 (by decide)
  simp only [ext16Value, h0, h1, be16_byteAt]

/-! ### A DECODE and its stream -/

/-- A running operation with the window `w` and a length of `n` within MAX_LEN, whose stream holds `bs` and then `rest`: no
read is cancelled, every answer to come is data, there are enough of them for `bs`, and SPOS is `stop` once `bs` is taken. -/
def Fed (w : Window) (n stop : Nat) (rest bs : List Byte) (s : State) : Prop :=
  s.host = [] ∧ s.win = some w ∧ n ≤ s.maxLen.toNat ∧ s.cancel = false ∧ (∀ d ∈ s.answers, ∃ size, d = .data size) ∧
    bs.length ≤ s.answers.length ∧ s.input = bs ++ rest ∧ s.spos + bs.length = stop

/-- The read before is complete (10_state.md R15). -/
def ReadDone (s : State) : Prop := ∃ c, s.work.need = some c ∧ s.work.cnt = some c

/-- The header of a frame is in HB, and its fields are extracted (41_frame_decoder.md R92). -/
def HeaderIn (o : BitVec 4) (f masked : Bool) (s : State) : Prop :=
  ∃ hw, Latched s hw ∧ hwOpc hw = o ∧ hwFin hw = f ∧ hwMask hw = masked

/-- Beside the header, `LEN` is known, and where the frame is masked the key (41_frame_decoder.md R95, R97). -/
def FrameKnown (o : BitVec 4) (f : Bool) (key : Option Key) (n : Nat) (s : State) : Prop :=
  HeaderIn o f key.isSome s ∧ s.work.len = some (BitVec.ofNat 64 n) ∧ ∀ k ∈ key, keyBytes s.key = some k

section
variable {w : Window} {n stop : Nat} {rest bs cs : List Byte} {s : State} {o : BitVec 4} {f masked : Bool}
  {key : Option Key}

theorem Fed.host (h : Fed w n stop rest bs s) : s.host = [] :=
  have ⟨hhost, _⟩ := h
  hhost

theorem Fed.win (h : Fed w n stop rest bs s) : s.win = some w :=
  have ⟨_, hwin, _⟩ := h
  hwin

theorem Fed.le_maxLen (h : Fed w n stop rest bs s) : n ≤ s.maxLen.toNat :=
  have ⟨_, _, hmax, _⟩ := h
  hmax

theorem Fed.moves (h : Fed w n stop rest bs s) : BlockMoves s s := .inl ⟨h.host, rfl⟩

/-- A read of exactly the next bytes of the stream runs to its end, whatever the sizes of the answers (44_exact_read.md R151,
R156). -/
theorem Fed.read (h : Fed w n stop rest (bs ++ cs) s) (hr : s.phase.reading = true) (hn : s.work.need = some bs.length)
    (hc : s.work.cnt = some 0) (hne : bs ≠ []) :
    ∃ ds, Reaches s (readOn 0 bs ds s) ∧ Fed w n stop rest cs (readOn 0 bs ds s) := by
  obtain ⟨hhost, hwin, hmax, hcan, hdata, henough, hinput, hstop⟩ := h
  simp only [List.length_append] at henough hstop
  have hpos : 0 < bs.length := List.length_pos_iff.mpr hne
  have htake : s.input.take bs.length = bs := by rw [hinput, List.append_assoc, List.take_left]
  have hdrop : s.input.drop bs.length = cs ++ rest := by rw [hinput, List.append_assoc, List.drop_left]
  obtain ⟨k, ds, -, hdata', hleft, hrun⟩ := read_run bs.length s bs.length 0 hhost hr hn hc (Nat.zero_le _) (by omega)
    hcan hdata (by omega) (by simp [hinput])
  rw [if_neg (by omega), Nat.sub_zero, htake] at hrun
  refine ⟨ds, ⟨k, hrun⟩, ?_, ?_, ?_, ?_, ?_, ?_, ?_, ?_⟩
  · rw [readOn_host, hhost]
  · rw [readOn_win, hwin]
  · rwa [readOn_maxLen]
  · rw [readOn_cancel, hcan]
  · rwa [readOn_answers]
  · rw [readOn_answers]
    omega
  · rw [readOn_input, hdrop]
  · rw [readOn_spos]
    omega

/-! ### The header and its extended length -/

/-- The two bytes of a header are read into HB (41_frame_decoder.md R91). -/
theorem hdr_read {b : Vector Byte 2} (hp : s.phase = .hdr) (hn : s.work.need = some 2) (hc : s.work.cnt = some 0)
    (h : Fed w n stop rest (b.toList ++ cs) s) :
    ∃ u, Reaches s u ∧ u.phase = .hdr ∧ headerBytes u.work.hb = some (headerWordOf b[0] b[1]) ∧
      (u.work.need = some 2 ∧ u.work.cnt = some 2) ∧ Fed w n stop rest cs u ∧ u.pbuf = s.pbuf := by
  obtain ⟨ds, hreach, hfed⟩ := h.read (by rw [hp]; rfl) (by simpa using hn) hc (by simp)
  refine ⟨_, hreach, by rw [readOn_phase, hp], ?_, ?_, hfed, readOn_pbuf_heading (by rw [hp]; rfl) _ _ _⟩
  · rw [readOn_work_hdr hp, storeFile_full]
    simp [headerBytes]
  · rw [readOn_work_hdr hp]
    exact ⟨hn, by simp⟩

/-- The bytes of an extended length are read into XB, with the header as it is (41_frame_decoder.md R94). -/
theorem ext_read {d : Nat} {b : Vector Byte d} {hw : HeaderWord} (hd : d ≠ 0) (hp : s.phase = .ext16 ∨ s.phase = .ext64)
    (hlat : Latched s hw) (hn : s.work.need = some d) (hc : s.work.cnt = some 0)
    (h : Fed w n stop rest (b.toList ++ cs) s) :
    ∃ u, Reaches s u ∧ u.phase = s.phase ∧ Latched u hw ∧ (u.work.need = some d ∧ u.work.cnt = some d) ∧
      u.work.xb = storeFile s.work.xb 0 b.toList ∧ Fed w n stop rest cs u ∧ u.pbuf = s.pbuf := by
  have hheading : s.phase.heading = true := by rcases hp with hp | hp <;> rw [hp] <;> rfl
  have hreading : s.phase.reading = true := by rcases hp with hp | hp <;> rw [hp] <;> rfl
  have hne : b.toList ≠ [] := fun he => hd (by simpa using congrArg List.length he)
  obtain ⟨ds, hreach, hfed⟩ := h.read hreading (by simpa using hn) hc hne
  have hwork := readOn_work_ext hp 0 b.toList ds
  refine ⟨_, hreach, readOn_phase .., ?_, ?_, by rw [hwork], hfed, readOn_pbuf_heading hheading _ _ _⟩
  · unfold Latched
    rw [hwork]
    exact hlat
  · rw [hwork]
    exact ⟨hn, by simp⟩

/-- In some number of steps the block comes to know that `LEN` is `n` (41_frame_decoder.md R93 to R95): the next step is the cap
check, from a state in which the header stands and its last read is complete. -/
def ComesToLength (w : Window) (n stop : Nat) (rest cs : List Byte) (o : BitVec 4) (f masked : Bool) (s : State) : Prop :=
  ∃ u v, Reaches s u ∧ step u = lengthKnown masked (BitVec.ofNat 64 n) v ∧ HeaderIn o f masked v ∧ ReadDone v ∧
    Fed w n stop rest cs v ∧ v.pbuf = s.pbuf

theorem ComesToLength.of_step {t : State} (h : ComesToLength w n stop rest cs o f masked t) (hstep : step s = .next t)
    (hpbuf : t.pbuf = s.pbuf) : ComesToLength w n stop rest cs o f masked s := by
  obtain ⟨u, v, hreach, hrest⟩ := h
  rw [hpbuf] at hrest
  exact ⟨u, v, (reaches_step hstep).trans hreach, hrest⟩

/-- At the start of the read of an extended length the block comes to the length, where the length-form row finds it in the
bytes that are read. -/
theorem comesToLength_of_ext {d : Nat} {b : Vector Byte d} {hw : HeaderWord} (hd : d ≠ 0)
    (hp : s.phase = .ext16 ∨ s.phase = .ext64) (hlat : Latched s hw) (hn : s.work.need = some d)
    (hc : s.work.cnt = some 0) (h : Fed w n stop rest (b.toList ++ cs) s)
    (hrow : ∀ u : State, u.phase = s.phase → u.work.xb = storeFile s.work.xb 0 b.toList →
      exec (decodeLengthForm hw) u = lengthKnown (hwMask hw) (BitVec.ofNat 64 n) u) :
    ComesToLength w n stop rest cs (hwOpc hw) (hwFin hw) (hwMask hw) s := by
  obtain ⟨u, hreach, hpu, hlat', ⟨hn', hc'⟩, hxb, hfed, hpbuf⟩ := ext_read hd hp hlat hn hc h
  have hheading : u.phase.heading = true := by rcases hp with hp | hp <;> rw [hpu, hp] <;> rfl
  have hstep := (hfed.moves.step_lengthForm hheading hn' hc' hlat'.1).trans (hrow u hpu hxb)
  exact ⟨u, u, hreach, hstep, ⟨hw, hlat', rfl, rfl, rfl⟩, ⟨d, hn', hc'⟩, hfed, hpbuf⟩

/-- With the header in HB the block comes to the length: at once, or after the read of the extended length. -/
theorem comesToLength_of_header {hw : HeaderWord} (hp : s.phase = .hdr) (hb : headerBytes s.work.hb = some hw)
    (hi : hwInd hw = indicatorOf n) (hread : s.work.need = some 2 ∧ s.work.cnt = some 2)
    (h : Fed w n stop rest (extendedLength n ++ cs) s) :
    ComesToLength w n stop rest cs (hwOpc hw) (hwFin hw) (hwMask hw) s := by
  have hn64 : n < 2 ^ 64 := Nat.lt_of_le_of_lt h.le_maxLen s.maxLen.isLt
  have hstep := (h.moves.step_lengthForm (by rw [hp]; rfl) hread.1 hread.2 hb).trans (exec_lengthForm_hdr hp hw)
  rw [hi] at hstep
  unfold indicatorOf at hi hstep
  unfold extendedLength at h
  by_cases h7 : n < 126
  · have hne6 : BitVec.ofNat 7 n ≠ 126#7 := by bv_omega
    have hne7 : BitVec.ofNat 7 n ≠ 127#7 := by bv_omega
    have hlen : (BitVec.ofNat 7 n).setWidth 64 = BitVec.ofNat 64 n := by bv_omega
    simp only [h7, if_true, hne6, hne7, if_false, hlen] at hi hstep h
    exact ⟨s, _, .refl s, hstep, ⟨hw, ⟨hb, rfl, rfl, rfl, congrArg some hi.symm⟩, rfl, rfl, rfl⟩, ⟨2, hread⟩, h, rfl⟩
  by_cases h16 : n ≤ 65535
  · have hlen : (BitVec.ofNat 16 n).setWidth 64 = BitVec.ofNat 64 n := by bv_omega
    simp only [h7, h16, if_true, if_false] at hi hstep h
    refine (comesToLength_of_ext (s := extending .ext16 2 (hwFin hw) (hwOpc hw) (hwMask hw) 126#7 s) (by decide)
      (.inl rfl) ⟨hb, rfl, rfl, rfl, congrArg some hi.symm⟩ rfl rfl h fun u hpu hxb => ?_).of_step hstep rfl
    rw [exec_lengthForm_ext16 hpu hi, hxb, ext16Value_storeFile, withValue_some, hlen]
  · have hne : (127#7 : BitVec 7) ≠ 126#7 := by decide
    have hlen : lengthField n = BitVec.ofNat 64 n := if_pos hn64
    simp only [h7, h16, if_true, if_false, hne] at hi hstep h
    refine (comesToLength_of_ext (s := extending .ext64 8 (hwFin hw) (hwOpc hw) (hwMask hw) 127#7 s) (by decide)
      (.inr rfl) ⟨hb, rfl, rfl, rfl, congrArg some hi.symm⟩ rfl rfl h fun u hpu hxb => ?_).of_step hstep rfl
    rw [exec_lengthForm_ext64 hpu hi, hxb, storeFile_full, ext64Value_map, withValue_some, be64_writeU64, hlen]

/-- A DECODE whose stream begins with the header of a frame comes to its length. -/
theorem comesToLength (hp : s.phase = .hdr) (hn : s.work.need = some 2) (hc : s.work.cnt = some 0)
    (h : Fed w n stop rest (headerBytesOf o f masked n ++ cs) s) : ComesToLength w n stop rest cs o f masked s := by
  rw [headerBytesOf_eq, List.append_assoc] at h
  obtain ⟨u, hreach, hpu, hb, hread, hfed, hpbuf⟩ := hdr_read hp hn hc h
  have hword := hb.trans (congrArg some (headerWordOf_firstByte o f masked (indicatorOf n)))
  obtain ⟨v, x, hreach', hstep, hhead, hdone, hfed', hpbuf'⟩ :=
    comesToLength_of_header hpu hword (hwInd_makeHeader ..) hread hfed
  rw [hwOpc_makeHeader, hwFin_makeHeader, hwMask_makeHeader] at hhead
  rw [hwMask_makeHeader] at hstep
  exact ⟨v, x, hreach.trans hreach', hstep, hhead, hdone, hfed', hpbuf'.trans hpbuf⟩

/-! ### The key and the payload -/

/-- In some number of steps the payload read begins, with the header, `LEN` and the key known (41_frame_decoder.md R97 to
R99). -/
def ComesToPayload (w : Window) (n stop : Nat) (rest bs : List Byte) (o : BitVec 4) (f : Bool) (key : Option Key)
    (s : State) : Prop :=
  ∃ u, Reaches s (startRead .payload n u) ∧ FrameKnown o f key n u ∧ ReadDone u ∧ Fed w n stop rest bs u ∧
    u.pbuf = s.pbuf

/-- The four bytes of a key are read into KEY, with the header and `LEN` as they are (41_frame_decoder.md R97). -/
theorem key_read {k : Key} (hp : s.phase = .keyrd) (hhead : HeaderIn o f masked s) (hn : s.work.need = some 4)
    (hc : s.work.cnt = some 0) (h : Fed w n stop rest (k.toList ++ cs) s) :
    ∃ u, Reaches s u ∧ u.phase = .keyrd ∧ HeaderIn o f masked u ∧ u.work.len = s.work.len ∧
      (u.work.need = some 4 ∧ u.work.cnt = some 4) ∧ keyBytes u.key = some k ∧ Fed w n stop rest cs u ∧
      u.pbuf = s.pbuf := by
  obtain ⟨ds, hreach, hfed⟩ := h.read (by rw [hp]; rfl) (by simpa using hn) hc (by simp)
  have hwork := readOn_work_counted (.inl hp) 0 k.toList ds
  refine ⟨_, hreach, by rw [readOn_phase, hp], ?_, by rw [hwork], ?_, ?_, hfed,
    readOn_pbuf_heading (by rw [hp]; rfl) _ _ _⟩
  · unfold HeaderIn Latched
    rw [hwork]
    exact hhead
  · rw [hwork]
    exact ⟨hn, by simp⟩
  · rw [readOn_key_keyrd hp, storeFile_full, keyBytes_map]

/-- The key of a masked frame is read, and the payload read begins (41_frame_decoder.md R97 to R99). -/
theorem comesToPayload_of_keyrd {k : Key} (hp : s.phase = .keyrd) (hhead : HeaderIn o f true s)
    (hl : s.work.len = some (BitVec.ofNat 64 n)) (hn : s.work.need = some 4) (hc : s.work.cnt = some 0)
    (hcap : n ≤ w.cap) (h : Fed w n stop rest (k.toList ++ bs) s) :
    ComesToPayload w n stop rest bs o f (some k) s := by
  obtain ⟨u, hreach, hp', hhead', hl', ⟨hn', hc'⟩, hkey, hfed, hpbuf⟩ := key_read hp hhead hn hc h
  rw [hl] at hl'
  obtain ⟨hw, ⟨hb, -⟩, -, -, hm⟩ := id hhead'
  have hlen := toNat_ofNat_of_le_maxLen hfed.le_maxLen
  have hstep : step u = .next (startRead .payload n u) := by
    rw [hfed.moves.step_lengthForm (by rw [hp']; rfl) hn' hc' hb, exec_lengthForm_keyrd hp' hm,
      startPayload_fits hl' hfed.win (by rwa [hlen]), hlen]
  refine ⟨u, hreach.trans (reaches_step hstep), ⟨hhead', hl', ?_⟩, ⟨4, hn', hc'⟩, hfed, hpbuf⟩
  rintro _ ⟨⟩
  exact hkey

/-- From the cap check, which the length passes, the block comes to the payload: at once, or after the key. -/
theorem comesToPayload (h : ComesToLength w n stop rest (keyPart key ++ bs) o f key.isSome s) (hcap : n ≤ w.cap) :
    ComesToPayload w n stop rest bs o f key s := by
  obtain ⟨u, v, hreach, hstep, hhead, hdone, hfed, hpbuf⟩ := h
  cases key with
  | none =>
    rw [Option.isSome_none, lengthKnown_unmasked hfed.le_maxLen hfed.win hcap] at hstep
    exact ⟨withLen v (BitVec.ofNat 64 n), hreach.trans (reaches_step hstep), ⟨hhead, rfl, nofun⟩, hdone, hfed, hpbuf⟩
  | some k =>
    rw [Option.isSome_some, lengthKnown_masked hfed.le_maxLen] at hstep
    obtain ⟨x, hreach', hknown, hdone', hfed', hpbuf'⟩ := comesToPayload_of_keyrd (k := k)
      (s := startRead .keyrd 4 (withLen v (BitVec.ofNat 64 n))) rfl hhead rfl rfl rfl hcap hfed
    exact ⟨x, (hreach.trans (reaches_step hstep)).trans hreach', hknown, hdone', hfed', hpbuf'.trans hpbuf⟩

/-- The payload is read into the window (41_frame_decoder.md R99, R101). -/
theorem payload_read (hknown : FrameKnown o f key n s) (hdone : ReadDone s) (h : Fed w n stop rest bs s)
    (hlen : bs.length = n) :
    ∃ u, Reaches (startRead .payload n s) u ∧ u.phase = .payload ∧ FrameKnown o f key n u ∧ ReadDone u ∧
      Fed w n stop rest [] u ∧ u.pbuf = winWriteAll w s.pbuf 0 bs := by
  by_cases h0 : n = 0
  · have hnil : bs = [] := List.length_eq_zero_iff.mp (hlen.trans h0)
    subst hnil h0
    exact ⟨_, .refl _, rfl, hknown, hdone, h, rfl⟩
  · have hfed : Fed w n stop rest (bs ++ []) (startRead .payload n s) := by
      rw [List.append_nil]
      exact h
    have hneed : (startRead .payload n s).work.need = some n := by simp [h0]
    obtain ⟨ds, hreach, hfed'⟩ := hfed.read rfl (hneed.trans (by rw [hlen])) (by simp [h0])
      (List.length_pos_iff.mp (by omega))
    have hwork := readOn_work_counted (s := startRead .payload n s) (.inr rfl) 0 bs ds
    have hkey := readOn_key_payload (s := startRead .payload n s) rfl 0 bs ds
    have hpbuf := readOn_pbuf_window (s := startRead .payload n s) (.inl rfl) h.win 0 bs ds
    refine ⟨_, hreach, readOn_phase .., ?_, ?_, hfed', hpbuf⟩
    · unfold FrameKnown HeaderIn Latched
      rw [hwork, hkey]
      exact hknown
    · exact ⟨n, by rw [hwork, hneed], by rw [hwork, hlen, Nat.zero_add]⟩

/-! ### The end of the frame -/

/-- The payload is unmasked where there is a key, and then it is complete (41_frame_decoder.md R100, R106). -/
theorem payload_unmasked (hp : s.phase = .payload) (hknown : FrameKnown o f key n s) (hdone : ReadDone s)
    (h : Fed w n stop rest [] s) :
    ∃ u v, Reaches s u ∧ step u = payloadDone (decide (o = 8#4)) v ∧ FrameKnown o f key n v ∧ Fed w n stop rest [] v ∧
      v.pbuf = maskedWith key w s.pbuf n := by
  obtain ⟨⟨hw, hlat, rfl, hf, hm⟩, hl, hk⟩ := id hknown
  obtain ⟨c, hn, hc⟩ := hdone
  have hlen := toNat_ofNat_of_le_maxLen h.le_maxLen
  obtain ⟨hb, -, -, hmask, -⟩ := id hlat
  rw [hm] at hmask
  have hstep := h.moves.step_payload hp hn hc hb
  cases key with
  | none =>
    rw [opcodeRow_payload_unmasked _ hp hmask] at hstep
    exact ⟨s, s, .refl s, hstep, hknown, h, rfl⟩
  | some k =>
    rw [opcodeRow_payload_masked _ hp hmask] at hstep
    have hmoves : BlockMoves { s with phase := .unmask } { s with phase := .unmask } := .inl ⟨h.host, rfl⟩
    have hstep' := (hmoves.step_opcode (.inl rfl) hb).trans (opcodeRow_unmask _ rfl h.win (hk k rfl) hl)
    rw [hlen] at hstep'
    exact ⟨_, _, reaches_step hstep, hstep', hknown, h, rfl⟩

/-- In CLOSEMETA the next step reports the frame with its metadata (41_frame_decoder.md R102, R103, R105). -/
theorem closemeta_reported (hp : s.phase = .closemeta) (hknown : FrameKnown 8#4 f key n s) (h : Fed w n stop rest [] s) :
    ∃ c, step s = .next (finished (frameResults c f 8#4 (BitVec.ofNat 64 n)) s) := by
  obtain ⟨⟨hw, ⟨hb, hfin, hopc, -, -⟩, ho, rfl, -⟩, hl, -⟩ := hknown
  rw [ho] at hopc
  have hstep := h.moves.step_opcode (.inr hp) hb
  rw [decide_eq_true ho, opcodeRow_closemeta hp h.win hl, frameDone_eq _ hfin hopc hl] at hstep
  exact ⟨_, hstep⟩

/-- A complete payload leads to the report of the frame, for CLOSE after the metadata step (41_frame_decoder.md R102 to R106). -/
theorem frame_reported {u : State} (hstep : step u = payloadDone (decide (o = 8#4)) s) (hknown : FrameKnown o f key n s)
    (h : Fed w n stop rest [] s) :
    ∃ c v, Reaches u (finished (frameResults c f o (BitVec.ofNat 64 n)) v) ∧ Fed w n stop rest [] v ∧ v.pbuf = s.pbuf := by
  rcases payloadDone_cases (decide (o = 8#4)) s with ⟨hclose, e⟩ | ⟨-, e⟩ <;> rw [e] at hstep
  · obtain rfl : o = 8#4 := of_decide_eq_true hclose
    obtain ⟨c, hend⟩ := closemeta_reported (s := { s with phase := .closemeta }) rfl hknown h
    exact ⟨c, _, (reaches_step hstep).trans (reaches_step hend), h, rfl⟩
  · obtain ⟨⟨hw, ⟨-, hfin, hopc, -, -⟩, rfl, rfl, -⟩, hl, -⟩ := hknown
    rw [frameDone_eq _ hfin hopc hl] at hstep
    exact ⟨_, s, reaches_step hstep, h, rfl⟩

/-- A DECODE that has begun and whose stream holds a frame ends in DONE with the frame reported, exactly the frame taken off
the stream, and the payload in the window, unmasked (41_frame_decoder.md R90 to R106). -/
theorem decode_run (hp : s.phase = .hdr) (hn : s.work.need = some 2) (hc : s.work.cnt = some 0) (hcap : n ≤ w.cap)
    (hlen : bs.length = n)
    (h : Fed w n stop rest (headerBytesOf o f key.isSome n ++ (keyPart key ++ bs)) s) :
    ∃ c u, Reaches s (finished (frameResults c f o (BitVec.ofNat 64 n)) u) ∧ Fed w n stop rest [] u ∧
      u.pbuf = maskedWith key w (winWriteAll w s.pbuf 0 bs) n := by
  obtain ⟨u₁, hreach₁, hknown₁, hdone₁, hfed₁, hpbuf₁⟩ := comesToPayload (comesToLength hp hn hc h) hcap
  obtain ⟨u₂, hreach₂, hp₂, hknown₂, hdone₂, hfed₂, hpbuf₂⟩ := payload_read hknown₁ hdone₁ hfed₁ hlen
  obtain ⟨u₃, v, hreach₃, hstep, hknown₃, hfed₃, hpbuf₃⟩ := payload_unmasked hp₂ hknown₂ hdone₂ hfed₂
  obtain ⟨c, u, hreach₄, hfed₄, hpbuf₄⟩ := frame_reported hstep hknown₃ hfed₃
  refine ⟨c, u, hreach₁.trans (hreach₂.trans (hreach₃.trans hreach₄)), hfed₄, ?_⟩
  rw [hpbuf₄, hpbuf₃, hpbuf₂, hpbuf₁]

end

/-- Settles O59: the bytes that ENCODE appends are a frame, a DECODE over a frame ends with it reported, and masking twice with
one key is the identity. -/
theorem encodedFrameDecodesToItsPayload : Obligations.EncodedFrameDecodesToItsPayload := by
  intro e t opc fin client src hsound he henc hvalid hencode s dst rest hsound' hidle hhost hcan hvalid' hcap hmax hdata
    henough hinput
  obtain ⟨key, hout, hwritten⟩ := encode_emits he henc hencode
  have hlen : t.out.length - e.out.length = (wireFrame opc fin key src e.pbuf).length := by
    rw [hout, List.length_append, Nat.add_sub_cancel_left]
  have hfed : Fed dst src.cap (s.spos + (t.out.length - e.out.length)) rest (wireFrame opc fin key src e.pbuf)
      (startRead .hdr 2 { accept s with win := some dst }) := by
    refine ⟨hhost, rfl, hmax, hcan, hdata, ?_, ?_, by rw [hlen]; rfl⟩
    · rw [hout, List.length_append] at henough
      exact Nat.le_of_add_le_add_left henough
    · rwa [hout, List.drop_left] at hinput
  obtain ⟨c, u, ⟨k, hrun⟩, ⟨-, -, -, -, -, -, hrest, hstop⟩, hpbuf⟩ :=
    decode_run rfl rfl rfl hcap (winBytes_length src _ _) hfed
  refine ⟨_, k, _, _, decodeStartsWithTheHeader s dst hidle hvalid', hrun, rfl, rfl, rfl, rfl, ?_, fun i hi => ?_, hrest,
    hstop, hwritten, fun hfits => ?_⟩
  · exact congrArg some (toNat_ofNat_of_le_maxLen hmax)
  · rw [finished_pbuf, hpbuf]
    exact winRead_unmasked key src dst hsound.memory hsound'.memory hcap hi
  · rw [hlen] at hfits ⊢
    exact writtenCount_toNat hfits

end Sys2Proof.Machine
end

section
/-! PROOFS. The laws of the mask procedure (42_toggle_mask.md R122, R123, R125): masking twice, at another address and in two
pieces; and the key length that ends TOGGLE_MASK before any byte is touched (R124). -/

namespace Sys2Proof.Machine

/-! ### Masking twice -/

/-- Settles O35: a byte of the first `n` is combined twice with one key byte, every other byte is kept, and canonical memories
that read the same are equal. -/
theorem maskIsAnInvolution : Obligations.MaskIsAnInvolution := by
  intro k w m n hm hn
  have hm' : (toggleMask k w m n).wf = true := toggleMask_wf k w m n hm
  refine Memory.eq_of_read_eq (toggleMask_wf k w _ n hm') hm fun a => ?_
  by_cases ha : a < w.base ∨ w.base + n ≤ a
  · rw [toggleMask_read_frame k w _ n ha, toggleMask_read_frame k w m n ha]
  · obtain ⟨i, rfl⟩ := Nat.exists_eq_add_of_le (show w.base ≤ a by omega)
    have hi : i < n := by omega
    calc winRead w (toggleMask k w (toggleMask k w m n) n) i
        = winRead w m i ^^^ keyByte k i ^^^ keyByte k i := by
          rw [toggleMask_read_masked k w hm' hn hi, toggleMask_read_masked k w hm hn hi]
      _ = winRead w m i := by rw [BitVec.xor_assoc, BitVec.xor_self, BitVec.xor_zero]

/-! ### Masking at another address -/

/-- Two windows hold the same first `n` bytes where each index below `n` reads the same in both. -/
theorem winBytes_eq_iff {w w' : Window} {m m' : Memory} {n : Nat} :
    winBytes w m n = winBytes w' m' n ↔ ∀ i < n, winRead w m i = winRead w' m' i := by
  simp only [winBytes, List.map_inj_left, List.mem_range]

/-- Settles O36: the key byte of an index is the same in both windows, and so is the byte it is combined with. -/
theorem maskIsIndependentOfTheAddress : Obligations.MaskIsIndependentOfTheAddress := by
  intro k w w' m m' n hm hm' hn hn' hsame
  rw [winBytes_eq_iff] at hsame ⊢
  intro i hi
  rw [toggleMask_read_masked k w hm hn hi, toggleMask_read_masked k w' hm' hn' hi, hsame i hi]

/-! ### Masking in two pieces -/

/-- The key rotated left by `a mod 4` bytes (42_toggle_mask.md R125). -/
def rotateKey (k : Key) (a : Nat) : Key :=
  Vector.ofFn fun j : Fin 4 => k[(j.val + a) % 4]'(Nat.mod_lt _ (by decide))

theorem keyByte_rotateKey (k : Key) (a i : Nat) : keyByte (rotateKey k a) i = keyByte k (a + i) := by
  simp only [keyByte, rotateKey, Vector.getElem_ofFn, Nat.mod_add_mod, Nat.add_comm a i]

/-- A store at an index of two windows is the same store where it falls on one address. -/
theorem winWrite_congr {w w' : Window} {i i' : Nat} (m : Memory) (b : Byte) (hi : i < w.cap) (hi' : i' < w'.cap)
    (haddr : w.base + i = w'.base + i') : winWrite w m i b = winWrite w' m i' b := by
  simp only [winWrite, hi, hi', if_true, haddr]

/-- The mask procedure over `n` bytes does not depend on how far the window goes beyond them. -/
theorem toggleMask_cap (k : Key) (m : Memory) {base c c' n : Nat} (h : n ≤ c) (h' : n ≤ c') :
    toggleMask k ⟨base, c⟩ m n = toggleMask k ⟨base, c'⟩ m n := by
  induction n with
  | zero => rfl
  | succ n ih =>
    simp only [toggleMask, ih (Nat.le_of_succ_le h) (Nat.le_of_succ_le h')]
    exact winWrite_congr _ _ h h' rfl

/-- Masking on from index `a` of a window is masking from the first index of the window that begins there, with the rotated
key (42_toggle_mask.md R125). -/
theorem toggleMask_add (k : Key) (m : Memory) {base a c d b : Nat} (hb : b ≤ c) (hab : a + b ≤ d) :
    toggleMask k ⟨base, d⟩ m (a + b) =
      toggleMask (rotateKey k a) ⟨base + a, c⟩ (toggleMask k ⟨base, d⟩ m a) b := by
  induction b with
  | zero => rfl
  | succ b ih =>
    have hprev := ih (Nat.le_of_succ_le hb) (Nat.le_of_succ_le hab)
    rw [← Nat.add_assoc]
    simp only [toggleMask, keyByte_rotateKey, winRead, Nat.add_assoc base, hprev]
    exact winWrite_congr _ _ hab hb (Nat.add_assoc base a b).symm

/-- Settles O37: masking the whole is masking its first `a` bytes and going on from there. -/
theorem maskInPiecesRotatesTheKey : Obligations.MaskInPiecesRotatesTheKey := by
  intro k base a b m
  show toggleMask (rotateKey k a) ⟨base + a, b⟩ (toggleMask k ⟨base, a⟩ m a) b = _
  rw [toggleMask_add k m (Nat.le_refl b) (Nat.le_refl (a + b)), toggleMask_cap k m (Nat.le_refl a) (Nat.le_add_right a b)]

/-! ### A wrong key length -/

/-- Settles O42: the one case of TOGGLE_MASK in which it is accepted with a key of another length. -/
theorem wrongKeyLengthTouchesNothing : Obligations.WrongKeyLengthTouchesNothing := by
  intro s klen k w hr hv hk
  rcases toggleMask_cases klen k w s with ⟨hr', -⟩ | ⟨-, hv', -⟩ | ⟨-, -, -, e⟩ | ⟨-, -, hk', -⟩
  · exact absurd (hr.symm.trans hr') Bool.false_ne_true
  · exact absurd (hv'.symm.trans hv) Bool.false_ne_true
  · exact e
  · exact absurd hk' hk

end Sys2Proof.Machine
end

section
/-! PROOFS. The frame encoder as a whole (43_frame_encoder.md R130 to R137): the numbers its header bytes stand for, and the state
that an accepted ENCODE leaves, for a server and for a client. -/

namespace Sys2Proof.Machine

/-! ### The header bytes as numbers -/

/-- A flag in bit 7 above a value of seven bits adds its weight (43_frame_encoder.md R131, R132). -/
theorem topBit_or_toNat (b : Bool) {x : Byte} (hx : x.toNat < 128) :
    ((if b then 0x80#8 else 0x00#8) ||| x).toNat = (if b then 128 else 0) + x.toNat := by
  cases b with
  | false => simp
  | true =>
    rw [if_pos rfl, if_pos rfl, BitVec.toNat_or]
    exact (Nat.two_pow_add_eq_or_of_lt (i := 7) hx 1).symm

theorem firstByte_toNat (o : BitVec 4) (f : Bool) : (firstByte o f).toNat = (if f then 128 else 0) + o.toNat := by
  have ho : (o.setWidth 8).toNat = o.toNat := BitVec.toNat_setWidth_of_le (by decide)
  rw [firstByte, topBit_or_toNat f (by omega), ho]

theorem secondByte_toNat (masked : Bool) (i : BitVec 7) :
    (secondByte masked i).toNat = (if masked then 128 else 0) + i.toNat := by
  have hi : (i.setWidth 8).toNat = i.toNat := BitVec.toNat_setWidth_of_le (by decide)
  rw [secondByte, topBit_or_toNat masked (by omega), hi]

theorem indicatorOf_toNat (n : Nat) :
    (indicatorOf n).toNat = if n < 126 then n else if n ≤ 65535 then 126 else 127 := by
  unfold indicatorOf
  split
  · rw [BitVec.toNat_ofNat]
    omega
  · split <;> rfl

/-- Byte `j` of a value by its weight (45_byte_order.md R178). -/
theorem byteAt_toNat {d : Nat} (v : BitVec d) (j : Nat) : (byteAt v j).toNat = v.toNat / 256 ^ j % 256 := by
  rw [byteAt, BitVec.extractLsb'_toNat, Nat.shiftRight_eq_div_pow, Nat.pow_mul]

/-- The two bytes of a value, most significant first (45_byte_order.md R176). -/
theorem writeU16_bigEndian_toNat (v : BitVec 16) :
    (writeU16 v false).toList.map BitVec.toNat = [v.toNat / 256, v.toNat % 256] := by
  have hv : v.toNat / 256 % 256 = v.toNat / 256 := by omega
  show [(byteAt v 1).toNat, (byteAt v 0).toNat] = _
  rw [byteAt_toNat, byteAt_toNat, pow_one, pow_zero, Nat.div_one, hv]

/-- The eight bytes of a value, most significant first (45_byte_order.md R178). -/
theorem writeU64_bigEndian_toNat (v : BitVec 64) :
    (writeU64 v false).toList.map BitVec.toNat = (List.range 8).map fun j => v.toNat / 256 ^ (7 - j) % 256 := by
  have hbytes : (writeU64 v false).toList = (List.range 8).map fun j => byteAt v (7 - j) := rfl
  rw [hbytes, List.map_map]
  exact List.map_congr_left fun j _ => byteAt_toNat v (7 - j)

/-- The extended length is the length itself, in the bytes of its form (43_frame_encoder.md R133). -/
theorem extendedLength_toNat {n : Nat} (hn : n < 2 ^ 64) :
    (extendedLength n).map BitVec.toNat =
      if n < 126 then [] else if n ≤ 65535 then [n / 256, n % 256]
      else (List.range 8).map fun j => n / 256 ^ (7 - j) % 256 := by
  unfold extendedLength
  split
  · rfl
  · split
    · rw [writeU16_bigEndian_toNat, BitVec.toNat_ofNat, Nat.mod_eq_of_lt (by omega)]
    · rw [writeU64_bigEndian_toNat, lengthField_toNat hn]

/-- Settles O43: the first byte, the second with the indicator, and the extended length, in each of the three forms. -/
theorem encoderEmitsTheMinimalHeader : Obligations.EncoderEmitsTheMinimalHeader := by
  intro o f masked n hn
  have hheader : (headerBytesOf o f masked n).map BitVec.toNat =
      (firstByte o f).toNat :: (secondByte masked (indicatorOf n)).toNat :: (extendedLength n).map BitVec.toNat := by
    rw [headerBytesOf_eq]
    rfl
  rw [hheader, firstByte_toNat, secondByte_toNat, indicatorOf_toNat, extendedLength_toNat hn]
  by_cases h7 : n < 126
  · simp only [if_pos h7]
  · by_cases h16 : n ≤ 65535
    · simp only [if_neg h7, if_pos h16]
    · simp only [if_neg h7, if_neg h16]

/-! ### An accepted ENCODE -/

/-- `HL` of the three forms without a key (43_frame_encoder.md R137). -/
theorem headerLength_server (n : Nat) :
    headerLength false n = if n < 126 then 2 else if n ≤ 65535 then 4 else 10 := by
  simp only [headerLength, Bool.false_eq_true, if_false]
  split_ifs <;> rfl

/-- `HL` of the three forms with a key (43_frame_encoder.md R137). -/
theorem headerLength_client (n : Nat) :
    headerLength true n = if n < 126 then 6 else if n ≤ 65535 then 8 else 14 := by
  simp only [headerLength, if_true]
  split_ifs <;> rfl

/-- A draw changes nothing but the random source (20_memory.md R48). -/
theorem rand4_state (s : State) : (rand4 s).2 = { s with rng := (rand4 s).2.rng, draws := (rand4 s).2.draws } := by
  rcases rand4_cases s with ⟨k, ks, -, e⟩ | ⟨-, e⟩ <;> rw [e]

section
variable {o : BitVec 4} {f : Bool} {w : Window} {s : State} (hr : s.phase.running = false)
  (hv : w.valid s.params.sizeW = true) (he : s.params.hasEncoder = true)
include hr hv he

/-- What is left of the cases of ENCODE once it is accepted: one course for a server, and one for a client with the key it
draws. -/
theorem encode_accepted (c : Bool) : exec (.encode o f c w) s =
    .next (if c then encodedClient o f w (rand4 s).1 (accept (rand4 s).2) else encodedServer o f w (accept s)) := by
  rcases encode_cases o f c w s with
    ⟨hr' | he', -⟩ | ⟨-, -, hv', -⟩ | ⟨-, -, -, ⟨hc, e⟩ | ⟨hc, k, ks, hrng, e⟩ | ⟨hc, hrng, e⟩⟩
  · exact absurd (hr.symm.trans hr') Bool.false_ne_true
  · exact absurd (he'.symm.trans he) Bool.false_ne_true
  · exact absurd (hv'.symm.trans hv) Bool.false_ne_true
  · rw [e, hc]
    rfl
  · rw [e, if_pos hc, rand4, hrng]
  · rw [e, if_pos hc, rand4, hrng]

end

/-- Settles O44: the state of a finished ENCODE of a server, with `HL` as the three forms have it. -/
theorem serverEncodeEmitsThePayload : Obligations.ServerEncodeEmitsThePayload := by
  intro s o f w hr hv he total
  have htotal : headerLength false w.cap + w.cap = total := by rw [headerLength_server]
  exact ⟨writtenCount (headerLength false w.cap + w.cap), fun h => htotal ▸ writtenCount_toNat (htotal ▸ h),
    encode_accepted hr hv he false⟩

/-- The payload of a masked window, byte by byte (43_frame_encoder.md R135). -/
theorem winBytes_toggleMask (k : Key) (w : Window) {m : Memory} (hm : m.wf = true) :
    winBytes w (toggleMask k w m w.cap) w.cap = (List.range w.cap).map fun i => winRead w m i ^^^ keyByte k i :=
  List.map_congr_left fun _ hi => toggleMask_read_masked k w hm (Nat.le_refl _) (List.mem_range.mp hi)

/-- The state of a finished ENCODE of a client, whose draw left the random source at `rng` and `draws`. -/
theorem encodedClient_accept (o : BitVec 4) (f : Bool) (w : Window) (k : Key) {s : State} (hm : s.pbuf.wf = true)
    (rng : List Key) (draws : Nat) :
    encodedClient o f w k (accept { s with rng := rng, draws := draws }) = { s with
      phase := .done, err := .none, work := Working.empty, key := KeyFile.empty, win := none,
      pbuf := toggleMask k w s.pbuf w.cap, rng := rng, draws := draws,
      out := s.out ++ headerBytesOf o f true w.cap ++ k.toList
        ++ (List.range w.cap).map fun i => winRead w s.pbuf i ^^^ keyByte k i,
      res := { Results.empty with eWritten := some (writtenCount (headerLength true w.cap + w.cap)) } } := by
  rw [← winBytes_toggleMask k w hm]
  rfl

/-- Settles O45: the state of a finished ENCODE of a client for the key of its draw, and the mask procedure over the window. -/
theorem clientEncodeEmitsTheMaskedPayload : Obligations.ClientEncodeEmitsTheMaskedPayload := by
  intro s o f w hr hv he hm total
  have htotal : headerLength true w.cap + w.cap = total := by rw [headerLength_client]
  have hstate := encodedClient_accept o f w (rand4 s).1 hm (rand4 s).2.rng (rand4 s).2.draws
  have hexec : exec (.encode o f true w) s = .next (encodedClient o f w (rand4 s).1 (accept (rand4 s).2)) :=
    encode_accepted hr hv he true
  rw [rand4_state s, hstate] at hexec
  refine ⟨_, _, _, hexec, fun h => htotal ▸ writtenCount_toNat (htotal ▸ h), fun k ks h => ?_, fun h => ?_, rfl,
    fun i hi => toggleMask_read_masked _ w hm (Nat.le_refl _) hi, fun a ha => toggleMask_read_frame _ w s.pbuf w.cap ha⟩
  · simp only [rand4, h, and_self]
  · simp only [rand4, h, and_self]

end Sys2Proof.Machine
end

section
/-! PROOFS. The exact read at its issue, while it waits, at the end of the stream and at its end (44_exact_read.md R150 to R157);
and the commands that issue no read, on which the level of CANCEL has no effect (60_exceptions.md R197). -/

namespace Sys2Proof.Machine

/-! ### The commands that issue no read -/

/-- Where `m` goes on, it goes on alike with CANCEL at any level, and leaves that level as it is (60_exceptions.md R197). -/
def IgnoresCancel (m : State → Outcome) : Prop :=
  ∀ s t level, m s = .next t → m { s with cancel := level } = .next { t with cancel := level }

theorem finish_ignoresCancel (r : Results) : IgnoresCancel (finish r) := by
  rintro s _ level ⟨⟩
  rfl

theorem raiseErr_ignoresCancel (e : Err) : IgnoresCancel (raiseErr e) := by
  rintro s _ level ⟨⟩
  rfl

theorem next_ignoresCancel : IgnoresCancel .next := by
  rintro s _ level ⟨⟩
  rfl

theorem refused_ignoresCancel (r : Refusal) : IgnoresCancel fun _ => .refused r := by
  rintro s t level ⟨⟩

/-- A branch on a condition that does not look at CANCEL. -/
theorem ite_ignoresCancel {p : State → Prop} [DecidablePred p] (hp : ∀ s level, p { s with cancel := level } ↔ p s)
    {m m' : State → Outcome} (h : IgnoresCancel m) (h' : IgnoresCancel m') :
    IgnoresCancel fun s => if p s then m s else m' s := by
  intro s t level
  simp only [hp s level]
  split
  · exact h s t level
  · exact h' s t level

/-- A command is accepted whatever the level of CANCEL is (30_encoding.md R80). -/
theorem issue_ignoresCancel {start : State → Outcome} (h : IgnoresCancel start) :
    IgnoresCancel fun s => issue s start :=
  ite_ignoresCancel (p := fun s => s.phase.running = true) (fun _ _ => Iff.rfl) next_ignoresCancel
    fun s => h (accept s)

/-- A window is checked whatever the level of CANCEL is (20_memory.md R44). -/
theorem issueWindow_ignoresCancel (w : Window) {start : State → Outcome} (h : IgnoresCancel start) :
    IgnoresCancel fun s => issueWindow w s start :=
  issue_ignoresCancel (ite_ignoresCancel (p := fun s => w.valid s.params.sizeW = true) (fun _ _ => Iff.rfl) h
    (refused_ignoresCancel .notAWindow))

theorem toggleMask_ignoresCancel (klen : Nat) (k : Key) (w : Window) : IgnoresCancel (exec (.toggleMask klen k w)) :=
  issueWindow_ignoresCancel w (ite_ignoresCancel (p := fun _ => klen ≠ 4) (fun _ _ => Iff.rfl) (raiseErr_ignoresCancel _)
    fun s => finish_ignoresCancel Results.empty { s with key := keyFileOf k, pbuf := toggleMask k w s.pbuf w.cap })

/-- A draw does not look at CANCEL (20_memory.md R48). -/
theorem rand4_setCancel (s : State) (level : Bool) :
    rand4 { s with cancel := level } = ((rand4 s).1, { (rand4 s).2 with cancel := level }) := by
  simp only [rand4]
  split <;> rfl

theorem maskForClient_setCancel (w : Window) (s : State) (level : Bool) :
    maskForClient w { s with cancel := level } = { maskForClient w s with cancel := level } := by
  simp only [maskForClient, rand4_setCancel]
  rfl

theorem encodeBody_ignoresCancel (o : BitVec 4) (f c : Bool) (w : Window) : IgnoresCancel (encodeBody o f c w) := by
  rintro s _ level ⟨⟩
  cases c with
  | false => rfl
  | true =>
    have hmask := maskForClient_setCancel w (emit (headerBytesOf o f true w.cap) s) level
    exact congrArg (fun u => finish _ (emit (winBytes w u.pbuf w.cap) u)) hmask

theorem encode_ignoresCancel (o : BitVec 4) (f c : Bool) (w : Window) : IgnoresCancel (exec (.encode o f c w)) :=
  ite_ignoresCancel (p := fun s => s.params.hasEncoder = true) (fun _ _ => Iff.rfl)
    (issueWindow_ignoresCancel w (encodeBody_ignoresCancel o f c w)) next_ignoresCancel

/-- A READ_EXACT of no byte ends before its first read (44_exact_read.md R150). -/
theorem readExact_zero_ignoresCancel (w : Window) : IgnoresCancel (exec (.readExact 0 w)) :=
  issueWindow_ignoresCancel w fun s => finish_ignoresCancel Results.empty { s with win := some w }

theorem answer_ignoresCancel (b : BOut) : IgnoresCancel (answer b) :=
  issue_ignoresCancel (finish_ignoresCancel _)

theorem byteOrderCommands_ignoresCancel {b2 : Vector Byte 2} {b8 : Vector Byte 8} {v16 : BitVec 16} {v64 : BitVec 64}
    {little : Bool} {i : Instr} (hi : i ∈ byteOrderCommands b2 b8 v16 v64 little) : IgnoresCancel (exec i) := by
  simp only [byteOrderCommands, List.mem_cons, List.not_mem_nil, or_false] at hi
  rcases hi with rfl | rfl | rfl | rfl | rfl | rfl | rfl | rfl | rfl | rfl <;> exact answer_ignoresCancel _

/-- Settles O49, command by command. -/
theorem commandsWithoutReadsIgnoreCancel : Obligations.CommandsWithoutReadsIgnoreCancel := by
  intro s t level klen k w opc fin client b2 b8 v16 v64 little i hi
  suffices h : IgnoresCancel (exec i) from h s t level
  rcases List.mem_append.mp hi with hi | hi
  · simp only [List.mem_cons, List.not_mem_nil, or_false] at hi
    rcases hi with rfl | rfl | rfl
    · exact toggleMask_ignoresCancel klen k w
    · exact encode_ignoresCancel opc fin client w
    · exact readExact_zero_ignoresCancel w
  · exact byteOrderCommands_ignoresCancel hi

/-! ### A turn of the exact read that takes nothing off the stream -/

/-- Where the block moves and bytes are missing, the step is a turn of the exact read, at a state that differs at most in the
host's script (44_exact_read.md R151). -/
theorem BlockMoves.step_readStep {s u : State} (h : BlockMoves s u) {n c : Nat} (hr : s.phase.reading = true)
    (hn : s.work.need = some n) (hc : s.work.cnt = some c) (hlt : c < n) :
    ∃ hs, u = { s with host := hs } ∧ step s = readStep n c u := by
  obtain ⟨hs, rfl, e⟩ := h.step_eq
  exact ⟨hs, rfl, e.trans (blockStep_read (s := { s with host := hs }) (fetch_read hr hn hc hlt))⟩

/-- A turn whose answer has not come changes nothing (44_exact_read.md R157). -/
theorem readStep_pending {s : State} (n c : Nat) (hcan : s.cancel = false) (ha : s.answers = []) :
    readStep n c s = .next s := by
  simp [readStep, streamRead, hcan, ha]

/-- Settles O12: where nothing is running nothing is fetched, and a turn of the exact read waits for its answer. -/
theorem blockWaitsForACommandOrAnAnswer : Obligations.BlockWaitsForACommandOrAnAnswer := by
  refine ⟨fun s t h hr => ?_, fun s t n c h hr hn hc hlt hcan ha => ?_⟩
  · obtain ⟨hs, rfl, e⟩ := h.step_eq
    exact e.trans (blockStep_wait (fetch_not_running (s := { s with host := hs }) hr))
  · obtain ⟨hs, rfl, e⟩ := h.step_readStep hr hn hc hlt
    exact e.trans (readStep_pending (s := { s with host := hs }) n c hcan ha)

/-- A stream that has ended answers zero bytes, with or without a rise of CANCEL (20_memory.md R41; 60_exceptions.md R196). -/
theorem streamRead_ended {s : State} {size : Nat} {ds : List ReadDraw} {rises : Bool} (n : Nat) (hcan : s.cancel = false)
    (ha : s.answers = (if rises then .dataAsCancelRises size else .data size) :: ds) (hi : s.input = []) :
    streamRead n s = (.data [], answered s ds rises) := by
  cases rises <;> simp [streamRead, deliver, deliveryOf, answered, hcan, ha, hi]

/-- A turn that is answered with zero bytes ends the operation (44_exact_read.md R154). -/
theorem readStep_ended {s : State} {size : Nat} {ds : List ReadDraw} {rises : Bool} (n c : Nat) (hcan : s.cancel = false)
    (ha : s.answers = (if rises then .dataAsCancelRises size else .data size) :: ds) (hi : s.input = []) :
    readStep n c s = .next (raised .unexpectedEndOfStream (answered s ds rises)) := by
  rw [readStep, streamRead_ended (n - c) hcan ha hi]
  rfl

/-- Settles O16: the turn that is answered with zero bytes raises the fault. -/
theorem endOfStreamEndsTheOperation : Obligations.EndOfStreamEndsTheOperation := by
  intro s u n c size ds rises h hr hn hc hlt hcan ha hi
  obtain ⟨hs, rfl, e⟩ := h.step_readStep hr hn hc hlt
  exact e.trans (readStep_ended (s := { s with host := hs }) n c hcan ha hi)

/-! ### The issue and the end of a READ_EXACT -/

/-- An accepted READ_EXACT samples its window and checks it (44_exact_read.md R150, R153). -/
theorem readExact_accepted {s : State} {w : Window} (hr : s.phase.running = false)
    (hv : w.valid s.params.sizeW = true) (n : Nat) :
    exec (.readExact n w) s = startReadExact n w { accept s with win := some w } := by
  rcases issueWindow_cases w s fun s' => startReadExact n w { s' with win := some w } with
    ⟨hr', -⟩ | ⟨-, hv', -⟩ | ⟨-, -, e⟩
  · exact absurd (hr.symm.trans hr') Bool.false_ne_true
  · exact absurd (hv'.symm.trans hv) Bool.false_ne_true
  · exact e

/-- Settles O46: the three courses of the check. -/
theorem readExactChecksTheWindowFirst : Obligations.ReadExactChecksTheWindowFirst := by
  intro s n w hr hv
  rw [readExact_accepted hr hv, startReadExact]
  refine ⟨fun h0 => ?_, fun h0 hcap => ?_, fun h0 hcap => ?_⟩
  · rw [if_pos h0]
    rfl
  · rw [if_neg h0, if_neg (Nat.not_lt.mpr hcap), startRead_pos .rxrun _ h0]
    rfl
  · rw [if_neg h0, if_pos hcap]
    rfl

/-- Settles O47: with no byte missing the sequencer ends the read. -/
theorem readExactEndsWhenFilled : Obligations.ReadExactEndsWhenFilled := by
  intro s u n h hp hn hc
  obtain ⟨hs, rfl, e⟩ := h.step_eq
  exact e.trans (blockStep_endRead (fetch_endRead (s := { s with host := hs }) hp hn hc))

end Sys2Proof.Machine
end

section
/-! PROOFS. The byte-order commands (45_byte_order.md R165 to R184): what an accepted one leaves; the values that are read and
the bytes that are written, in both orders; and the laws of the converters (R182). The two orders are related by the swap
(R182 (c)), and the signed converters to the unsigned ones by two's complement (R182 (d)). -/

namespace Sys2Proof.Machine

/-- An accepted byte-order command is done with its answer in B_OUT (45_byte_order.md R165, 10_state.md R28). -/
theorem answer_accepted {s : State} (hr : s.phase.running = false) (b : BOut) :
    answer b s = .next { s with
      phase := .done, err := .none, work := Working.empty, key := KeyFile.empty, win := none,
      res := { Results.empty with bOut := some b } } := by
  rcases answer_cases b s with ⟨hr', -⟩ | ⟨-, e⟩
  · exact absurd (hr.symm.trans hr') Bool.false_ne_true
  · rw [e, finished_accept]

/-! ### The swap and the order -/

/-- SWAP16 is the reversal (45_byte_order.md R168). -/
theorem swapBytes2_eq_reverse (b : Vector Byte 2) : swapBytes2 b = b.reverse := by
  apply Vector.ext
  intro j hj
  rw [Vector.getElem_reverse]
  match j, hj with
  | 0, _ => rfl
  | 1, _ => rfl

/-- SWAP64 is the reversal (45_byte_order.md R169). -/
theorem swapBytes8_eq_reverse (b : Vector Byte 8) : swapBytes8 b = b.reverse := by
  apply Vector.ext
  intro j hj
  rw [Vector.getElem_reverse]
  match j, hj with
  | 0, _ => rfl
  | 1, _ => rfl
  | 2, _ => rfl
  | 3, _ => rfl
  | 4, _ => rfl
  | 5, _ => rfl
  | 6, _ => rfl
  | 7, _ => rfl

theorem swapBytes2_swapBytes2 (b : Vector Byte 2) : swapBytes2 (swapBytes2 b) = b := by
  rw [swapBytes2_eq_reverse, swapBytes2_eq_reverse, Vector.reverse_reverse]

theorem swapBytes8_swapBytes8 (b : Vector Byte 8) : swapBytes8 (swapBytes8 b) = b := by
  rw [swapBytes8_eq_reverse, swapBytes8_eq_reverse, Vector.reverse_reverse]

/-- Swapped bytes are written in the other order (45_byte_order.md R182 (c)). -/
theorem swapBytes2_writeU16 (v : BitVec 16) (little : Bool) : swapBytes2 (writeU16 v little) = writeU16 v (!little) := by
  cases little <;> rfl

theorem swapBytes8_writeU64 (v : BitVec 64) (little : Bool) : swapBytes8 (writeU64 v little) = writeU64 v (!little) := by
  cases little <;> rfl

/-! ### The values that are read -/

/-- The value of two bytes in the given order (45_byte_order.md R170, R172, R180). -/
theorem readU16_toNat (b : Vector Byte 2) (little : Bool) : (readU16 b little).toNat =
    if little then (b[0]).toNat + 256 * (b[1]).toNat else 256 * (b[0]).toNat + (b[1]).toNat := by
  unfold readU16
  split
  · rw [le16, BitVec.toNat_ofNat]
    omega
  · rw [be16, BitVec.toNat_ofNat]
    omega

theorem be64_toNat (b : Vector Byte 8) : (be64 b).toNat = be64Nat b := by
  rw [be64, BitVec.toNat_ofNat, be64Nat]
  omega

theorem le64_toNat (b : Vector Byte 8) : (le64 b).toNat = le64Nat b := by
  rw [le64, BitVec.toNat_ofNat, le64Nat]
  omega

/-- The value of eight bytes in the given order (45_byte_order.md R171, R174, R181). -/
theorem readU64_toNat (b : Vector Byte 8) (little : Bool) : (readU64 b little).toNat =
    if little then ∑ j : Fin 8, (b[j]).toNat * 256 ^ j.val else ∑ j : Fin 8, (b[j]).toNat * 256 ^ (7 - j.val) := by
  unfold readU64
  split
  · rw [le64_toNat]
    simp [le64Nat, Fin.sum_univ_eight]
  · rw [be64_toNat]
    simp [be64Nat, Fin.sum_univ_eight]

/-- Swapped bytes are read in the other order (45_byte_order.md R182 (c)). -/
theorem readU16_swapBytes2 (b : Vector Byte 2) (little : Bool) : readU16 (swapBytes2 b) little = readU16 b (!little) := by
  apply BitVec.eq_of_toNat_eq
  rw [readU16_toNat, readU16_toNat]
  cases little <;> exact Nat.add_comm _ _

theorem be64Nat_swapBytes8 (b : Vector Byte 8) : be64Nat (swapBytes8 b) = le64Nat b := by
  simp only [be64Nat, le64Nat, swapBytes8, Vector.getElem_mk, List.getElem_toArray, List.getElem_cons_zero,
    List.getElem_cons_succ]
  omega

theorem readU64_swapBytes8 (b : Vector Byte 8) (little : Bool) : readU64 (swapBytes8 b) little = readU64 b (!little) := by
  cases little with
  | false => exact congrArg (BitVec.ofNat 64) (be64Nat_swapBytes8 b)
  | true =>
    have h := be64Nat_swapBytes8 (swapBytes8 b)
    rw [swapBytes8_swapBytes8] at h
    exact congrArg (BitVec.ofNat 64) h.symm

/-! ### The bytes that are written -/

/-- The two bytes of a value in the given order (45_byte_order.md R176). -/
theorem writeU16_toNat (v : BitVec 16) (little : Bool) :
    ((writeU16 v little)[0]).toNat = (if little then v.toNat % 256 else v.toNat / 256) ∧
    ((writeU16 v little)[1]).toNat = (if little then v.toNat / 256 else v.toNat % 256) := by
  have hlow : (byteAt v 0).toNat = v.toNat % 256 := by rw [byteAt_toNat, pow_zero, Nat.div_one]
  have hhigh : (byteAt v 1).toNat = v.toNat / 256 := by rw [byteAt_toNat]; omega
  cases little with
  | false => exact ⟨hhigh, hlow⟩
  | true => exact ⟨hlow, hhigh⟩

/-- Place `j` of the bytes holds byte `j` of the value, or byte `7 - j`, by its weight (45_byte_order.md R178). -/
theorem writeU64_toNat (v : BitVec 64) (little : Bool) (j : Fin 8) :
    ((writeU64 v little)[j]).toNat = v.toNat / 256 ^ (if little then j.val else 7 - j.val) % 256 := by
  have hbyte : (writeU64 v little)[j] = byteAt v (if little then j.val else 7 - j.val) := by
    cases little <;> fin_cases j <;> rfl
  rw [hbyte, byteAt_toNat]

/-! ### The unsigned round trips (45_byte_order.md R182 (a)) -/

theorem readU16_writeU16 (v : BitVec 16) (little : Bool) : readU16 (writeU16 v little) little = v := by
  have hbig : readU16 (writeU16 v false) false = v := be16_byteAt v
  cases little with
  | false => exact hbig
  | true => exact (readU16_swapBytes2 (writeU16 v false) true).trans hbig

theorem readU64_writeU64 (v : BitVec 64) (little : Bool) : readU64 (writeU64 v little) little = v := by
  have hbig : readU64 (writeU64 v false) false = v := be64_writeU64 v
  cases little with
  | false => exact hbig
  | true => exact (readU64_swapBytes8 (writeU64 v false) true).trans hbig

theorem writeU16_readU16 (b : Vector Byte 2) (little : Bool) : writeU16 (readU16 b little) little = b := by
  obtain ⟨h0, h1⟩ := writeU16_toNat (readU16 b little) little
  rw [readU16_toNat] at h0 h1
  apply Vector.ext
  intro j hj
  apply BitVec.eq_of_toNat_eq
  match j, hj with
  | 0, _ => exact h0.trans (by split <;> omega)
  | 1, _ => exact h1.trans (by split <;> omega)

theorem writeU64_readU64_bigEndian (b : Vector Byte 8) : writeU64 (readU64 b false) false = b := by
  apply Vector.ext
  intro j hj
  apply BitVec.eq_of_toNat_eq
  have hbyte : ((writeU64 (be64 b) false)[j]).toNat = (be64 b).toNat / 256 ^ (7 - j) % 256 :=
    writeU64_toNat (be64 b) false ⟨j, hj⟩
  refine hbyte.trans ?_
  rw [be64_toNat, be64Nat]
  interval_cases j <;> omega

theorem writeU64_readU64 (b : Vector Byte 8) (little : Bool) : writeU64 (readU64 b little) little = b := by
  cases little with
  | false => exact writeU64_readU64_bigEndian b
  | true =>
    calc writeU64 (readU64 b true) true
      _ = swapBytes8 (writeU64 (readU64 (swapBytes8 b) false) false) := by
        rw [readU64_swapBytes8, swapBytes8_writeU64, Bool.not_false]
      _ = b := by rw [writeU64_readU64_bigEndian, swapBytes8_swapBytes8]

/-! ### The signed converters (45_byte_order.md R173, R175, R177, R179; 93 G2, log 21) -/

/-- A value below zero is written as that value plus `2^w`, which denotes the same bits. -/
theorem ofInt_toInt_wrapped {w : Nat} (v : BitVec w) :
    BitVec.ofInt w (if v.toInt < 0 then v.toInt + 2 ^ w else v.toInt) = v := by
  split
  · have h0 : BitVec.ofInt w (2 ^ w) = 0#w := BitVec.eq_of_toInt_eq (by simpa using Int.bmod_self (a := 2 ^ w))
    rw [BitVec.ofInt_add, h0, BitVec.ofInt_toInt, BitVec.add_zero]
  · exact BitVec.ofInt_toInt

theorem readI16_eq_toInt (b : Vector Byte 2) (little : Bool) : readI16 b little = (readU16 b little).toInt := by
  rw [readI16, BitVec.toInt_eq_toNat_cond]
  split <;> split <;> omega

theorem readI64_eq_toInt (b : Vector Byte 8) (little : Bool) : readI64 b little = (readU64 b little).toInt := by
  rw [readI64, BitVec.toInt_eq_toNat_cond]
  split <;> split <;> omega

theorem writeI16_toInt (v : BitVec 16) (little : Bool) : writeI16 v.toInt little = writeU16 v little :=
  congrArg (writeU16 · little) (ofInt_toInt_wrapped v)

theorem writeI64_toInt (v : BitVec 64) (little : Bool) : writeI64 v.toInt little = writeU64 v little :=
  congrArg (writeU64 · little) (ofInt_toInt_wrapped v)

/-! ### The commands -/

/-- Settles O52: RDI64 leaves the same 64 bits as RDU64, and their signed value is R175's. -/
theorem sixtyFourBitReadsGiveTheValue : Obligations.SixtyFourBitReadsGiveTheValue := by
  intro s b little hr
  refine ⟨readU64 b little, BitVec.ofInt 64 (readI64 b little), readU64_toNat b little, ?_, answer_accepted hr _,
    answer_accepted hr _⟩
  rw [readI64_eq_toInt, BitVec.ofInt_toInt]
  exact (readI64_eq_toInt b little).symm

/-- Settles O54: WRI64 writes the bytes that WRU64 writes. -/
theorem sixtyFourBitWritesGiveTheBytes : Obligations.SixtyFourBitWritesGiveTheBytes := by
  intro s v little i hr hi
  refine ⟨writeU64 v little, writeU64_toNat v little, ?_⟩
  rcases List.mem_pair.mp hi with rfl | rfl
  · exact answer_accepted hr _
  · rw [← writeI64_toInt]
    exact answer_accepted hr _

/-- Settles O55: the signed laws are the unsigned ones, through two's complement, and the laws of the order are the swap's. -/
theorem convertersObeyTheirLaws : Obligations.ConvertersObeyTheirLaws := by
  refine ⟨fun v b e => ⟨readU16_writeU16 v e, writeU16_readU16 b e, ?_, ?_, (swapBytes2_writeU16 v true).symm,
      (readU16_swapBytes2 b true).symm, ?_⟩,
    fun v b e => ⟨readU64_writeU64 v e, writeU64_readU64 b e, ?_, ?_, (swapBytes8_writeU64 v true).symm,
      (readU64_swapBytes8 b true).symm, ?_⟩⟩
  · rw [writeI16_toInt, readI16_eq_toInt, readU16_writeU16]
  · rw [readI16_eq_toInt, writeI16_toInt, writeU16_readU16]
  · rw [readI16_eq_toInt, BitVec.ofInt_toInt]
  · rw [writeI64_toInt, readI64_eq_toInt, readU64_writeU64]
  · rw [readI64_eq_toInt, writeI64_toInt, writeU64_readU64]
  · rw [readI64_eq_toInt, BitVec.ofInt_toInt]

/-- Settles O50: the swaps are the reversals. -/
theorem swapsReverseTheBytes : Obligations.SwapsReverseTheBytes := by
  intro s b2 b8 hr
  rw [← swapBytes2_eq_reverse, ← swapBytes8_eq_reverse]
  exact ⟨answer_accepted hr _, answer_accepted hr _⟩

/-- Settles O51: RDI16 leaves the same 16 bits as RDU16, and their signed value is R173's. -/
theorem sixteenBitReadsGiveTheValue : Obligations.SixteenBitReadsGiveTheValue := by
  intro s b little hr
  refine ⟨readU16 b little, BitVec.ofInt 16 (readI16 b little), readU16_toNat b little, ?_, answer_accepted hr _,
    answer_accepted hr _⟩
  rw [readI16_eq_toInt, BitVec.ofInt_toInt]
  exact (readI16_eq_toInt b little).symm

/-- Settles O53: WRI16 writes the bytes that WRU16 writes. -/
theorem sixteenBitWritesGiveTheBytes : Obligations.SixteenBitWritesGiveTheBytes := by
  intro s v little i hr hi
  obtain ⟨h0, h1⟩ := writeU16_toNat v little
  refine ⟨writeU16 v little, h0, h1, ?_⟩
  rcases List.mem_pair.mp hi with rfl | rfl
  · exact answer_accepted hr _
  · rw [← writeI16_toInt]
    exact answer_accepted hr _

end Sys2Proof.Machine
end

section
/-! PROOFS. The level of CANCEL over a turn of the exact read (60_exceptions.md R196). `Cancelled` is answered by a stream read and
by nothing else: the rows of a header raise other faults or none, so a step of the block that ends with it is a read that the
stream answered so. -/

namespace Sys2Proof.Machine

/-! ### The outcomes of a read -/

/-- A turn issued while CANCEL = 1 ends with `Cancelled` (60_exceptions.md R196 (a); 44_exact_read.md R155). -/
theorem readStep_of_cancel {s : State} (n c : Nat) (hcan : s.cancel = true) :
    readStep n c s = .next (raised .cancelled s) := by
  simp [readStep, streamRead, hcan, raiseErr]

/-- A turn that is answered `Cancelled` as CANCEL rises ends with it (60_exceptions.md R196 (c)). -/
theorem readStep_cancelled {s : State} {ds : List ReadDraw} (n c : Nat) (hcan : s.cancel = false)
    (ha : s.answers = .cancelled :: ds) : readStep n c s = .next (raised .cancelled (answered s ds true)) := by
  simp [readStep, streamRead, hcan, ha, answered, raiseErr]

/-- A turn that is answered with data as CANCEL rises goes on as any other answer of data (60_exceptions.md R196 (c)). -/
theorem readStep_dataAsCancelRises {s : State} {n c size : Nat} {ds : List ReadDraw} (hr : s.phase.reading = true)
    (hcan : s.cancel = false) (ha : s.answers = .dataAsCancelRises size :: ds)
    (hne : deliveryOf (n - c) size s.input ≠ []) :
    readStep n c s = .next (readOn c (deliveryOf (n - c) size s.input) ds (answered s ds true)) := by
  have hread : streamRead (n - c) s = (.data (deliveryOf (n - c) size s.input),
      delivered (answered s ds true) (deliveryOf (n - c) size s.input)) := by
    simp [streamRead, hcan, ha, deliver, delivered, answered]
  simp only [readStep, hread, List.isEmpty_iff, hne, if_false]
  exact storeDelivered_eq_stored c _ (by exact hr)

@[simp] theorem readOn_err (c : Nat) (bs : List Byte) (ds : List ReadDraw) (s : State) : (readOn c bs ds s).err = s.err := by
  unfold readOn stored; split <;> rfl

/-- A turn that newly gives ERR the code of `Cancelled` was issued while CANCEL = 1 or answered so as CANCEL rose, and ended the
operation with nothing delivered (60_exceptions.md R196). -/
theorem readStep_next_cancelled {s t : State} {n c : Nat} (hr : s.phase.reading = true) (h : readStep n c s = .next t)
    (hs : s.err ≠ .cancelled) (ht : t.err = .cancelled) :
    (s.cancel = true ∧ t = raised .cancelled s) ∨
      ∃ ds, s.answers = .cancelled :: ds ∧ t = raised .cancelled (answered s ds true) := by
  rcases readStep_cases n c s with ⟨-, -, e⟩ | ⟨hc, e⟩ | ⟨-, ds, ha, e⟩ | ⟨-, size, ds, b, -, ⟨-, e⟩ | ⟨-, e⟩⟩ <;>
    rw [e] at h
  · cases h
    exact absurd ht hs
  · cases h
    exact .inl ⟨hc, rfl⟩
  · cases h
    exact .inr ⟨ds, ha, rfl⟩
  · cases h
    cases ht
  · rw [storeDelivered_eq_stored _ _ (by exact hr)] at h
    cases h
    have herr := readOn_err c (deliveryOf (n - c) size s.input) ds (answered s ds b)
    exact absurd (herr.symm.trans ht) hs

/-! ### ERR after a row of a header -/

theorem startPayload_err {s t : State} (h : startPayload s = .next t) : t.err = s.err ∨ t.err = .bufferTooSmall := by
  rcases startPayload_cases s with ⟨-, e⟩ | ⟨l, -, -, e⟩ | ⟨l, -, -, e⟩ <;> cases e.symm.trans h
  · exact .inr rfl
  · exact .inl rfl

theorem lengthKnown_err {masked : Bool} {l : Len} {s t : State} (h : lengthKnown masked l s = .next t) :
    t.err = s.err ∨ t.err = .bufferTooSmall ∨ t.err = .lengthOutOfRange := by
  rcases lengthKnown_cases masked l s with ⟨-, e⟩ | ⟨-, -, e⟩ | ⟨-, -, e⟩ <;> rw [e] at h
  · cases h
    exact .inr (.inr rfl)
  · cases h
    exact .inl rfl
  · exact (startPayload_err h).imp_right .inl

/-- The faults of a length-form row are those of the cap check and of the window check (41_frame_decoder.md R95, R98). -/
theorem lengthForm_err {hw : HeaderWord} {s t : State} (h : exec (decodeLengthForm hw) s = .next t) :
    t.err = s.err ∨ t.err = .bufferTooSmall ∨ t.err = .lengthOutOfRange := by
  rcases lengthForm_cases hw s with ⟨r, e⟩ | e | ⟨-, -, e⟩ | ⟨-, -, e⟩ | ⟨-, -, -, e⟩ | ⟨v, -, -, -, e⟩ |
    ⟨v, -, -, -, e⟩ | ⟨-, -, e⟩ <;> rw [e] at h
  · cases h
  · cases h
  · cases h
    exact .inl rfl
  · cases h
    exact .inl rfl
  · simpa only [extractFields_err] using lengthKnown_err h
  · exact lengthKnown_err h
  · exact lengthKnown_err h
  · exact (startPayload_err h).imp_right .inl

/-- An opcode row raises no fault (41_frame_decoder.md R100 to R105). -/
theorem OpcodeRowEffect.err {s t : State} (h : OpcodeRowEffect s t) : t.err = s.err ∨ t.err = .none := by
  cases h with
  | goesOn => exact .inl rfl
  | ends => exact .inr rfl

/-! ### Where `Cancelled` comes from -/

/-- A step of the block that newly gives ERR the code of `Cancelled` is a turn of the exact read (60_exceptions.md R196). -/
theorem blockStep_next_cancelled {s t : State} (h : blockStep s = .next t) (hs : s.err ≠ .cancelled)
    (ht : t.err = .cancelled) : ∃ n c, s.phase.reading = true ∧ readStep n c s = .next t := by
  rcases fetch_cases s with ⟨-, e⟩ | ⟨r, e⟩ | ⟨n, c, hr, -, -, -, e⟩ | ⟨_, _, -, -, -, -, e⟩ |
    ⟨_, _, hw, -, -, -, -, -, e⟩ | ⟨hw, -, -, e⟩
  · cases (blockStep_wait e).symm.trans h
    exact absurd ht hs
  · cases (blockStep_missing e).symm.trans h
  · exact ⟨n, c, hr, (blockStep_read e).symm.trans h⟩
  · cases (blockStep_endRead e).symm.trans h
    cases ht
  · have herr := lengthForm_err ((blockStep_lengthForm e).symm.trans h)
    simp [ht, hs.symm] at herr
  · have herr := (opcodeRow_rowEffect ((blockStep_opcode e).symm.trans h)).err
    simp [ht, hs.symm] at herr

/-- Settles O17: the outcome of a turn by the level of CANCEL and by the answer, and no other step answers `Cancelled`. -/
theorem cancelledOnlyUnderCancel : Obligations.CancelledOnlyUnderCancel := by
  refine ⟨fun s u n c h hr hn hc hlt hcan => ?_, fun s u t h hstep hs ht => ?_,
    fun s u n c size ds h _ hr hn hc hlt hcan hi => ⟨fun ha => ?_, fun ha => ?_⟩⟩
  · obtain ⟨hs, rfl, e⟩ := h.step_readStep hr hn hc hlt
    exact e.trans (readStep_of_cancel (s := { s with host := hs }) n c hcan)
  · obtain ⟨hs', rfl, e⟩ := h.step_eq
    obtain ⟨n, c, hr, hread⟩ := blockStep_next_cancelled (e.symm.trans hstep) hs ht
    rcases readStep_next_cancelled hr hread hs ht with ⟨hcan, rfl⟩ | ⟨ds, ha, rfl⟩
    · exact ⟨hr, hcan, .inl hcan, rfl, rfl, rfl⟩
    · exact ⟨hr, rfl, .inr ⟨ds, ha⟩, rfl, rfl, rfl⟩
  · obtain ⟨hs, rfl, e⟩ := h.step_readStep hr hn hc hlt
    have hpos : 0 < (deliveryOf (n - c) size s.input).length := deliveryOf_pos size (by omega) hi
    refine ⟨_, e.trans (readStep_dataAsCancelRises (s := { s with host := hs }) hr hcan ha
      (List.length_pos_iff.mp hpos)), readOn_phase .., readOn_cancel .., ?_⟩
    rw [readOn_spos]
    exact Nat.lt_add_of_pos_right hpos
  · obtain ⟨hs, rfl, e⟩ := h.step_readStep hr hn hc hlt
    exact ⟨_, e.trans (readStep_cancelled (s := { s with host := hs }) n c hcan ha), rfl, rfl, rfl, rfl⟩

end Sys2Proof.Machine
end

section
/-! PROOFS. A reset in any state (70_reset_and_hazards.md R221): the step does not look at the phase, so a running operation is
left where it stands. -/

namespace Sys2Proof.Machine

/-- A reset is taken in every state, at the state in which the move is off the script (70_reset_and_hazards.md R221). -/
theorem step_reset {s : State} {hs : List HostMove} (hh : s.host = .reset :: hs) :
    step s = .next (State.resetBlock { s with host := hs }) := by
  simp only [step, advance, hh]

/-- Settles O6: the step is the block's reset, which writes the seven parts of the block and nothing of its environment. -/
theorem resetAbandonsTheOperation : Obligations.ResetAbandonsTheOperation := by
  intro s hs hh
  rw [step_reset hh, State.resetBlock, Config.maxLenReset]

end Sys2Proof.Machine
end
